-- ==== Sys2Proof/Word.lean ====
section
/-! DEFINITION. The word types of the engine (spec 00_scope.md R8, 20_memory.md R58). -/

namespace Sys2Proof

/-- A byte. -/
abbrev Byte := BitVec 8

/-- A *word*: 32 bits, the width of every register (R8, R22). -/
abbrev Word := BitVec 32

/-- A *dword*: 64 bits, the width of a hash and of a scrambling table entry (R8, R36). -/
abbrev DWord := BitVec 64

/-- A code unit: one 16-bit element of a staged string (R14, R58). -/
abbrev CodeUnit := BitVec 16

end Sys2Proof
end

