-- ==== Sys2Proof/Config.lean ====
section
/-! DEFINITION. What an implementation fixes (spec 00_scope.md R6) and the free values of the spec. -/

namespace Sys2Proof.Config

/-- `NCHAN`: hash channels 0..7 (R6). -/
def nchan : Nat := 8
/-- `TSIZE`: entries of the scrambling table, 256×8 (R6). -/
def tsize : Nat := 2048
/-- `TROUNDS`: rounds of the recurrence per table entry (R6). -/
def trounds : Nat := 31
/-- `K_MAX`: the most hash channels per Bloom probe; the least is 1 (R6). -/
def kMax : Nat := 8
/-- `LOG2_MAX`: the largest log2Bits of the explicit constructor; the least is 1 (R6). -/
def log2Max : Nat := 31
/-- `LOG2_SIZED_MIN`: the least log2Bits the sized constructor derives (R6). -/
def log2SizedMin : Nat := 4
/-- `CK_A` (R6). -/
def ckA : Nat := 37
/-- `CK_B` (R6), so that `CK_A * CK_B = 629`. -/
def ckB : Nat := 17
/-- What `ID` always reads (10_state.md R23). -/
def idWord : Word := 0x48573501#32

/-- The direction of one step of `TSHIFT`; both shifts are logical (R6). -/
inductive ShiftDir where
  | left
  | right
  deriving DecidableEq, Repr

/-- One step of `TSHIFT`: a direction and an amount (R6). -/
structure ShiftStep where
  dir : ShiftDir
  amount : Nat
  deriving DecidableEq, Repr

/-- `KHASH` (R6, 42_cuckoo.md R140) as plain data: the default, or one of the other functions of the
key word that an implementation may have, which `otherKeyHash` leaves uninterpreted (log entry 5). -/
inductive KeyHash where
  | sext
  | other (n : Nat)
  deriving DecidableEq, Repr

/-- FREE VALUE. The key hash an implementation other than the default has (R140: a function of the key
word alone, to a signed 64-bit integer). Log entry 5. -/
opaque otherKeyHash : Nat → Word → DWord

/-- FREE VALUE. What the `n`-th open read of a busy register returns (70_reset_and_hazards.md R211). Log entry 7. -/
opaque freeWord : Nat → Word

/-- FREE VALUE. What slot `i` of a Cuckoo unit that went to FAILED at draw `n` holds (42_cuckoo.md R153).
Log entry 8. -/
opaque freeSlot : Nat → Nat → Option (Word × Word)

/-- The implementation parameters of R6 that are OPEN. They are fixed for the life of an engine; State
carries them (log entry 3), so that a claim about every state is a claim about every engine. -/
structure Params where
  hstart : DWord
  hmult : DWord
  tseed : DWord
  tshift1 : ShiftStep
  tshift2 : ShiftStep
  tshift3 : ShiftStep
  bfMaxLog2 : Nat
  capMax : Nat
  strMax : Nat
  dupPrecheck : Bool
  khash : KeyHash
  engineBase : Nat
  deriving DecidableEq, Repr

/-- The default parameters (R6). The hash constants are the spec's defaults, which it marks as general
knowledge (log entry 3). `ENGINE_BASE` has no default in the spec: 0 is a DESIGN CHOICE (log entry 4). -/
def Params.default : Params where
  hstart := 0xBB40E64DA205B064#64
  hmult := 0x6A5D39EAE116586D#64
  tseed := 0x544B2FBACAAF1684#64
  tshift1 := ⟨.right, 7⟩
  tshift2 := ⟨.left, 11⟩
  tshift3 := ⟨.right, 10⟩
  bfMaxLog2 := 31
  capMax := 1048575
  strMax := 256
  dupPrecheck := true
  khash := .sext
  engineBase := 0

end Sys2Proof.Config
end

