-- ==== Sys2Proof/Syntax.lean ====
section
/-! DEFINITION. The seventeen commands (spec 30_encoding.md R72, opcode_table.json). -/

namespace Sys2Proof

/-- A command of the engine, one constructor per row of the opcode table. Only STR_PUSH and HE_HASH have an
operand in the command word (R71); the others take theirs from the latched operand registers (R77). -/
inductive Instr where
  /-- 0x00 NOP (R103) -/
  | nop
  /-- 0x01 STR_CLEAR (R102) -/
  | strClear
  /-- 0x02 STR_PUSH, `u = imm24[15:0]` (R104) -/
  | strPush (u : CodeUnit)
  /-- 0x08 HE_HASH, `ch = imm24[2:0]` (R105) -/
  | heHash (ch : BitVec 3)
  /-- 0x10 BF_CONFIG (R120) -/
  | bfConfig
  /-- 0x11 BF_CONFIG_SIZED (R122) -/
  | bfConfigSized
  /-- 0x12 BF_ADD (R124) -/
  | bfAdd
  /-- 0x13 BF_CONTAINS (R125) -/
  | bfContains
  /-- 0x14 BF_READ_WORD (R126) -/
  | bfReadWord
  /-- 0x20 CK_INIT (R145) -/
  | ckInit
  /-- 0x21 CK_PUT (R146) -/
  | ckPut
  /-- 0x22 CK_GET (R155) -/
  | ckGet
  /-- 0x23 CK_REMOVE (R156) -/
  | ckRemove
  /-- 0x24 CK_SIZE (R157) -/
  | ckSize
  /-- 0x25 CK_CLEAR (R158) -/
  | ckClear
  /-- 0x26 CK_CAPACITY (R159) -/
  | ckCapacity
  /-- 0x27 CK_READ_SLOT (R160) -/
  | ckReadSlot
  deriving DecidableEq, Repr

end Sys2Proof
end

