-- ==== Sys2Proof/Machine/State.lean ====
section
/-! DEFINITION. The state of the machine as plain data, why it can stop, and its state after reset
(spec 10_state.md, 70_reset_and_hazards.md R202). -/

namespace Sys2Proof.Machine

/-- Error codes of `STATUS.ERR` (60_exceptions.md R180). Codes 0x08..0xFF are never produced, so they have no
constructor. -/
inductive Err where
  | ok
  | illegal
  | invalidParam
  | notConfigured
  | strFull
  | resource
  | capExhausted
  | unitFailed
  deriving DecidableEq, Repr

/-- `ck_mode` (R35). -/
inductive CkMode where
  | uninit
  | ready
  | failed
  deriving DecidableEq, Repr

/-- A pair: an Occupied slot's key and value words (R14, R35). Equality is bitwise (42_cuckoo.md R143). -/
structure Pair where
  key : Word
  value : Word
  deriving DecidableEq, Repr

/-- The Bloom bit array (20_memory.md R55), sparse: the indices of the cells that hold 1. A cell that is not
listed reads 0. Canonical form: strictly rising (`BitStore.wf`). -/
abbrev BitStore := List Nat

/-- The Cuckoo slot array (20_memory.md R56), sparse: the Occupied slots with their indices. A slot that is
not listed is Empty. Canonical form: indices strictly rising (`SlotStore.wf`). -/
abbrev SlotStore := List (Nat × Pair)

/-- The attempt in progress inside a CK_PUT (R40, 42_cuckoo.md R150): the current item, the probe position and
the displacement counter. -/
structure Attempt where
  cur : Pair
  pos : Nat
  n : Nat
  deriving DecidableEq, Repr

/-- The hidden state of a CK_PUT in progress (R40): the worklist, the attempt in progress, and the capacity
and slot contents reached so far. They become the unit's own only at completion (R60). -/
structure PutWork where
  cap : Nat
  slots : SlotStore
  work : List Pair
  attempt : Option Attempt
  deriving DecidableEq, Repr

/-- `LCMD` and `LARG[0..2]`: what acceptance latches (R27). -/
structure Latched where
  cmd : Word
  arg0 : Word
  arg1 : Word
  arg2 : Word
  deriving DecidableEq, Repr

/-- What the engine is doing. `STATUS.BUSY` is 1 in `init` and `command` (R39). The latched command and the
hidden state of R40 exist only while a command is in progress. -/
inductive Phase where
  /-- reset initialisation (70_reset_and_hazards.md R201) -/
  | init
  | idle
  | command (c : Latched) (put : Option PutWork)
  deriving DecidableEq, Repr

/-- What a slot traversal collects (42_cuckoo.md R175). -/
inductive Collect where
  | keys
  | values
  deriving DecidableEq, Repr

/-- A statement of the host's program (30_encoding.md R75, R76). DO, LOADSTR, KEYS and VALUES are expanded into
these by Machine/HostSide.lean. -/
inductive HostStmt where
  /-- `MemWrite(addr, size, v)`; anything but an aligned 32-bit access to the window is refused (R51). -/
  | wr (addr size : Nat) (v : Word)
  /-- `MemRead(addr, size)`; likewise. -/
  | rd (addr size : Nat)
  /-- WAIT: `loop: RD STATUS -> s ; if s[0] = 1 goto loop`. One step is one poll. -/
  | wait
  /-- CHECK: `RD STATUS -> s`; the program fails if `s[15:8] ≠ 0`. -/
  | check
  /-- KEYS and VALUES after CK_CAPACITY: `RD RES0 -> c`, then the loop over the slots. -/
  | slotLoop (what : Collect)
  /-- The loop of KEYS and VALUES at index `i` of `c`. -/
  | slot (what : Collect) (i c : Nat)
  /-- `if STATUS.RESULT = 1`, collect: by a further `RD STATUS` after the WAIT (DESIGN CHOICE, log entry 16). -/
  | collectIf (what : Collect)
  /-- Read the slot's key or value and collect it. -/
  | collect (what : Collect)
  deriving DecidableEq, Repr

/-- Whose move it is. The spec fixes no latency (R216), so the schedule is data of the state (log entry 2). -/
inductive Turn where
  /-- the engine completes what is in progress -/
  | engine
  /-- the engine works on the command in progress without completing it -/
  | work
  /-- the host executes its next statement -/
  | host
  /-- the platform asserts reset (R200) -/
  | reset
  /-- a second agent's access, or one that overlaps in time (R214) -/
  | foreign
  deriving DecidableEq, Repr

/-- The machine. The first groups are the spec's state; the last group is the model's own. -/
structure State where
  /-- the implementation parameters (00_scope.md R6), fixed -/
  cfg : Config.Params
  /-- `ARG0` (R26) -/
  arg0 : Word
  /-- `ARG1` (R26) -/
  arg1 : Word
  /-- `ARG2` (R26) -/
  arg2 : Word
  /-- `RES0` (R28) -/
  res0 : Word
  /-- `RES1` (R28) -/
  res1 : Word
  /-- `STATUS.RESULT` (R37) -/
  result : Bool
  /-- `STATUS.OVR` (R38) -/
  ovr : Bool
  /-- `STATUS.ERR` (R180) -/
  err : Err
  /-- BUSY, LCMD, LARG and the hidden state (R27, R39, R40) -/
  phase : Phase
  /-- the scrambling table (R36) -/
  tab : List DWord
  /-- the string staging buffer (R31) -/
  str : List CodeUnit
  /-- `bf_ready` (R34) -/
  bfReady : Bool
  /-- `log2Bits` (R34) -/
  log2Bits : Nat
  /-- `k` (R34) -/
  k : Nat
  /-- `bits` (R34) -/
  bits : BitStore
  /-- `ck_mode` (R35) -/
  ckMode : CkMode
  /-- `capacity` (R35) -/
  capacity : Nat
  /-- `slots` (R35) -/
  slots : SlotStore
  /-- MODEL's own: how many free values have been drawn (log entry 7) -/
  draws : Nat
  /-- MODEL's own: whose turns come next; empty means the engine while it is busy, else the host (log entry 2) -/
  sched : List Turn
  /-- MODEL's own: the rest of the host's program (log entry 1) -/
  host : List HostStmt
  /-- MODEL's own: the host's reads so far, address and value, oldest first (log entry 1) -/
  reads : List (Nat × Word)
  /-- MODEL's own: what the KEYS or VALUES traversal has collected (log entry 16) -/
  gathered : List Word
  deriving DecidableEq, Repr

/-- Why the machine stops with a fault. No command of the engine raises one (60_exceptions.md R184). -/
inductive Fault where
  /-- Raised by the host's CHECK when `STATUS.ERR` is not 0: "the program fails" (30_encoding.md R76). Safe: the
  host's program has ended, and the spec gives it no further access. -/
  | checkFailed
  deriving DecidableEq, Repr

/-- Why the model has no step. All are safe: the model stops where the spec gives no meaning. -/
inductive Refusal where
  /-- An instruction that has no meaning yet. No arm of `exec` answers so. Safe. -/
  | notModelled (mnemonic : String)
  /-- Raised by every step of a machine whose parameters are not ones of this hardware, for example an even HMULT
  (40_hash_engine.md R106: "a model refuses it"). Safe. -/
  | notAConfiguration
  /-- Raised by a host access that is not an aligned 32-bit access to the window (20_memory.md R51: "A model
  **refuses** it"). Safe. -/
  | accessOutsideInterface
  /-- Raised when a second agent accesses the window or accesses overlap (70_reset_and_hazards.md R214: "a model
  refuses them"). Safe. -/
  | secondAgent
  deriving DecidableEq, Repr

/-- The engine at the end of reset, with parameters `p` (R202), and nothing for the host to do. `bits`, `slots`
and, until initialisation ends, `tab` have no reset value in the spec and cannot be observed: empty is a DESIGN
CHOICE (log entries 9 and 10). -/
def State.resetWith (p : Config.Params) : State where
  cfg := p
  arg0 := 0
  arg1 := 0
  arg2 := 0
  res0 := 0
  res1 := 0
  result := false
  ovr := false
  err := .ok
  phase := .init
  tab := []
  str := []
  bfReady := false
  log2Bits := 0
  k := 0
  bits := []
  ckMode := .uninit
  capacity := 0
  slots := []
  draws := 0
  sched := []
  host := []
  reads := []
  gathered := []

/-- The machine right after reset, with the default parameters (log entries 3 and 4). -/
def State.reset : State := State.resetWith Config.Params.default

/-- What a step answers. -/
abbrev Result := Host.Outcome State Fault Refusal

end Sys2Proof.Machine
end

