-- ==== Sys2Proof/Machine/Flags.lean ====
section
/-! DEFINITION. The fields of STATUS, and the other registers that are views of unit state (spec 10_state.md). -/

namespace Sys2Proof.Machine

/-- The code of an error in `STATUS.ERR` (60_exceptions.md R180). -/
def Err.code : Err → Byte
  | .ok => 0x00#8
  | .illegal => 0x01#8
  | .invalidParam => 0x02#8
  | .notConfigured => 0x03#8
  | .strFull => 0x04#8
  | .resource => 0x05#8
  | .capExhausted => 0x06#8
  | .unitFailed => 0x07#8

/-- `STATUS.BUSY` (R39). -/
def State.busy (s : State) : Bool :=
  match s.phase with
  | .idle => false
  | .init => true
  | .command _ _ => true

/-- `STATUS.CK_FAILED` (R35). -/
def State.ckFailed (s : State) : Bool := decide (s.ckMode = .failed)

/-- `STATUS.CK_READY` (R35). -/
def State.ckReady (s : State) : Bool := decide (s.ckMode = .ready)

/-- The STATUS word from its fields (R25). Bits 7:6 and 31:16 are reserved and read 0 (R33). -/
def statusOf (busy result ovr ckFailed bfReady ckReady : Bool) (err : Byte) : Word :=
  0#16 ++ err ++ 0#2 ++ BitVec.ofBool ckReady ++ BitVec.ofBool bfReady ++ BitVec.ofBool ckFailed ++
    BitVec.ofBool ovr ++ BitVec.ofBool result ++ BitVec.ofBool busy

/-- `STATUS` while the engine is idle (R25). -/
def State.statusWord (s : State) : Word :=
  statusOf s.busy s.result s.ovr s.ckFailed s.bfReady s.ckReady s.err.code

/-- `STATUS` while BUSY is 1, from a free value `f`: BUSY reads 1, OVR its value, reserved bits 0, and RESULT, ERR,
CK_FAILED, BF_READY and CK_READY are open (70_reset_and_hazards.md R211). -/
def State.busyStatusWord (s : State) (f : Word) : Word :=
  statusOf true (f.getLsbD 1) s.ovr (f.getLsbD 3) (f.getLsbD 4) (f.getLsbD 5) (f.extractLsb' 8 8)

/-- `STATUS.ERR` of a STATUS word (R25). -/
def errField (v : Word) : Byte := v.extractLsb' 8 8

/-- `BF_CFG` (R29): log2Bits in bits 4:0, k in bits 11:8. Both are 0 while the unit is unconfigured. -/
def State.bfCfgWord (s : State) : Word :=
  if s.bfReady then (BitVec.ofNat 32 s.k <<< 8) ||| BitVec.ofNat 32 s.log2Bits else 0

/-- `CK_CAP` (R30). -/
def State.ckCapWord (s : State) : Word := BitVec.ofNat 32 s.capacity

/-- `STR_LEN` (R31). -/
def State.strLenWord (s : State) : Word := BitVec.ofNat 32 s.str.length

end Sys2Proof.Machine
end

