-- ==== Sys2Proof/Machine/Operands.lean ====
section
/-! DEFINITION. How operands are read: the latched registers and their signedness (spec 30_encoding.md R77), the
candidate slots of a key (42_cuckoo.md R140 to R142), and which register an access names (20_memory.md R50, R51). -/

namespace Sys2Proof.Machine

/-- `s32(w)`: the two's-complement value (00_scope.md R9). -/
def s32 (w : Word) : Int := w.toInt

/-- The unsigned value of a word (R77). -/
def u32 (w : Word) : Nat := w.toNat

/-- `LCMD` and `LARG` (R27). Outside a command there are none (R40); `exec` is then given what an acceptance would
latch, the ARG registers (log entry 14; `step` never does this). -/
def State.latched (s : State) : Latched :=
  match s.phase with
  | .command c _ => c
  | .init | .idle => ⟨0, s.arg0, s.arg1, s.arg2⟩

/-- `ARG[0]` of a command rule, which means LARG[0] (R10). -/
def State.larg0 (s : State) : Word := s.latched.arg0
/-- `ARG[1]` of a command rule (R10). -/
def State.larg1 (s : State) : Word := s.latched.arg1
/-- `ARG[2]` of a command rule (R10). -/
def State.larg2 (s : State) : Word := s.latched.arg2

/-- `H(x) = KHASH(x)` (42_cuckoo.md R140). -/
def keyHash (p : Config.Params) (x : Word) : Int :=
  match p.khash with
  | .sext => (x.signExtend 64).toInt
  | .other n => (Config.otherKeyHash n x).toInt

/-- `M(x) = abs(H(x))`, exact (R141). -/
def mag (p : Config.Params) (x : Word) : Nat := (keyHash p x).natAbs

/-- `h1(x) = M(x) mod c` (R142). -/
def h1 (p : Config.Params) (c : Nat) (x : Word) : Nat := mag p x % c

/-- `h2(x) = (CK_A * CK_B + M(x)) mod c` (R142). -/
def h2 (p : Config.Params) (c : Nat) (x : Word) : Nat := (Config.ckA * Config.ckB + mag p x) % c

/-- `ALT(x, pos)`: the alternate location of an item evicted from `pos` (R151). -/
def alt (p : Config.Params) (c : Nat) (x : Word) (pos : Nat) : Nat :=
  if pos = h1 p c x then h2 p c x else h1 p c x

/-- The registers of the window (R22). -/
inductive Reg where
  | id | cmd | status | arg0 | arg1 | arg2 | res0 | res1
  | bfCfg | ckCap | strLen | cfgCapMax | cfgStrMax | cfgBfMaxLog2 | reserved38 | reserved3C
  deriving DecidableEq, Repr

/-- The byte offset of a register (R22). -/
def Reg.offset : Reg → Nat
  | .id => 0x00
  | .cmd => 0x04
  | .status => 0x08
  | .arg0 => 0x0C
  | .arg1 => 0x10
  | .arg2 => 0x14
  | .res0 => 0x18
  | .res1 => 0x1C
  | .bfCfg => 0x20
  | .ckCap => 0x24
  | .strLen => 0x28
  | .cfgCapMax => 0x2C
  | .cfgStrMax => 0x30
  | .cfgBfMaxLog2 => 0x34
  | .reserved38 => 0x38
  | .reserved3C => 0x3C

/-- The register at a byte offset (R22). -/
def regAt (off : Nat) : Option Reg :=
  match off with
  | 0x00 => some .id
  | 0x04 => some .cmd
  | 0x08 => some .status
  | 0x0C => some .arg0
  | 0x10 => some .arg1
  | 0x14 => some .arg2
  | 0x18 => some .res0
  | 0x1C => some .res1
  | 0x20 => some .bfCfg
  | 0x24 => some .ckCap
  | 0x28 => some .strLen
  | 0x2C => some .cfgCapMax
  | 0x30 => some .cfgStrMax
  | 0x34 => some .cfgBfMaxLog2
  | 0x38 => some .reserved38
  | 0x3C => some .reserved3C
  | _ => none

/-- The register an access of `size` bytes at `addr` names, if it is one of the interface: 32 bits, in the window at
`base`, at an offset that is a multiple of 4 (R50, R51). -/
def windowReg (base addr size : Nat) : Option Reg :=
  if size = 4 ∧ base ≤ addr then regAt (addr - base) else none

end Sys2Proof.Machine
end

