-- ==== Sys2Proof/Machine/Ops.lean ====
section
/-! DEFINITION. The operations the commands share: completing, raising an error, the unit gates, the internal stores,
and the register window as the host reads and writes it. -/

namespace Sys2Proof.Machine

/-- Completion: the last effects of a command, `STATUS` fields and then `BUSY <- 0` (20_memory.md R60). The latched
command and the hidden state end with it (R40). -/
def State.complete (s : State) (e : Err) (r : Bool) : State :=
  { s with err := e, result := r, phase := .idle }

/-- Completion without error, with `RESULT` = `r` (R37, R180). -/
def State.done (s : State) (r : Bool) : Result := .next (s.complete .ok r)

/-- `raise E`, the engine's whole exception mechanism (00_scope.md R11, 60_exceptions.md R181): the command completes
with the error code, RESULT 0, and no other effect. There is no handler and no return (R184, R185): the next
acceptance clears the code. -/
def State.raise (s : State) (e : Err) : Result := .next (s.complete e false)

/-- Acceptance of a command word (R27). -/
def State.accept (s : State) (w : Word) : State :=
  { s with phase := .command ⟨w, s.arg0, s.arg1, s.arg2⟩ none, err := .ok, result := false }

/-- `RES0 <- a ; RES1 <- b` (R10). -/
def State.setRes (s : State) (a b : Word) : State := { s with res0 := a, res1 := b }

/-- One more free value has been drawn (log entry 7). -/
def State.drawn (s : State) : State := { s with draws := s.draws + 1 }

/-- The Bloom unit's gate: NOT_CONFIGURED before the first successful configuration (41_bloom.md R124, R125, R126). -/
def bfGate (s : State) (body : Result) : Result :=
  if s.bfReady then body else s.raise .notConfigured

/-- The Cuckoo unit's mode gate (42_cuckoo.md R144). -/
def ckGate (s : State) (body : Result) : Result :=
  match s.ckMode with
  | .uninit => s.raise .notConfigured
  | .failed => s.raise .unitFailed
  | .ready => body

/-- The canonical form of a bit store: indices strictly rising, so that equal arrays are equal lists. -/
abbrev BitStore.wf (b : BitStore) : Prop := b.Pairwise (· < ·)

/-- `BitRead(i)` (20_memory.md R55). -/
def bitRead (b : BitStore) (i : Nat) : Bool := decide (i ∈ b)

/-- `BitSet(i)` (R55). -/
def bitSet : BitStore → Nat → BitStore
  | [], i => [i]
  | j :: t, i => if i < j then i :: j :: t else if i = j then j :: t else j :: bitSet t i

/-- The canonical form of a slot store: indices strictly rising. An Empty slot has no entry. -/
abbrev SlotStore.wf (m : SlotStore) : Prop := m.Pairwise (fun a b => a.1 < b.1)

/-- `SlotRead(i)` (20_memory.md R56): `none` is Empty. -/
def slotRead : SlotStore → Nat → Option Pair
  | [], _ => none
  | (j, q) :: t, i => if i = j then some q else slotRead t i

/-- The entry of slot `i` with contents `e`: none for Empty. -/
def slotCell (i : Nat) (e : Option Pair) : SlotStore :=
  match e with
  | none => []
  | some q => [(i, q)]

/-- `SlotWrite(i, e)` (R56): `none` is Empty. -/
def slotWrite : SlotStore → Nat → Option Pair → SlotStore
  | [], i, e => slotCell i e
  | (j, q) :: t, i, e =>
    if i < j then slotCell i e ++ (j, q) :: t
    else if i = j then slotCell i e ++ t
    else (j, q) :: slotWrite t i e

/-- The canonical form of the internal stores of a state. There is no byte-addressed memory (R50). -/
abbrev Memory.wf (s : State) : Prop := BitStore.wf s.bits ∧ SlotStore.wf s.slots

/-- A read of a register that is open while BUSY is 1: a free value then, its value otherwise (R211). -/
def openRead (s : State) (v : Word) : Word × State :=
  if s.busy then (Config.freeWord s.draws, s.drawn) else (v, s)

/-- A host read of a register: the value and the state after it (R22, R211). No read has a side effect (20_memory.md
R53); only the count of free values moves. -/
def readReg (r : Reg) (s : State) : Word × State :=
  match r with
  | .id => (Config.idWord, s)
  | .cmd => (0, s)
  | .status =>
    if s.busy then (s.busyStatusWord (Config.freeWord s.draws), s.drawn) else (s.statusWord, s)
  | .arg0 => (s.arg0, s)
  | .arg1 => (s.arg1, s)
  | .arg2 => (s.arg2, s)
  | .res0 => openRead s s.res0
  | .res1 => openRead s s.res1
  | .bfCfg => openRead s s.bfCfgWord
  | .ckCap => openRead s s.ckCapWord
  | .strLen => openRead s s.strLenWord
  | .cfgCapMax => (BitVec.ofNat 32 s.cfg.capMax, s)
  | .cfgStrMax => (BitVec.ofNat 32 s.cfg.strMax, s)
  | .cfgBfMaxLog2 => (BitVec.ofNat 32 s.cfg.bfMaxLog2, s)
  | .reserved38 => (0, s)
  | .reserved3C => (0, s)

/-- A host write of a register (R22, R53): CMD accepts a command or, while busy, is dropped and sets OVR (R24, R210);
STATUS clears OVR when bit 2 is written 1 (R25); ARG stores (R26); every other write is ignored. -/
def writeReg (r : Reg) (v : Word) (s : State) : State :=
  match r with
  | .cmd => if s.busy then { s with ovr := true } else s.accept v
  | .status => if v.getLsbD 2 then { s with ovr := false } else s
  | .arg0 => { s with arg0 := v }
  | .arg1 => { s with arg1 := v }
  | .arg2 => { s with arg2 := v }
  | .id | .res0 | .res1 | .bfCfg | .ckCap | .strLen => s
  | .cfgCapMax | .cfgStrMax | .cfgBfMaxLog2 | .reserved38 | .reserved3C => s

end Sys2Proof.Machine
end

