-- ==== Sys2Proof/Machine/HashEngine.lean ====
section
/-! DEFINITION. The HashEngine function and the commands NOP, STR_CLEAR, STR_PUSH and HE_HASH (spec 40_hash_engine.md). -/

namespace Sys2Proof.Machine

/-- One step of the shift-xor recurrence: `h <- (h shifted) ⊕ h` (R100). -/
def shiftXor (st : Config.ShiftStep) (h : DWord) : DWord :=
  match st.dir with
  | .right => (h >>> st.amount) ^^^ h
  | .left => (h <<< st.amount) ^^^ h

/-- One round: the three steps of TSHIFT in order (R100). -/
def scrambleRound (p : Config.Params) (h : DWord) : DWord :=
  shiftXor p.tshift3 (shiftXor p.tshift2 (shiftXor p.tshift1 h))

/-- `n` rounds (R100). -/
def scrambleRounds (p : Config.Params) : Nat → DWord → DWord
  | 0, h => h
  | n + 1, h => scrambleRounds p n (scrambleRound p h)

/-- The next `n` table entries from the running seed `h`, which is not reset between entries (R100). -/
def tableFrom (p : Config.Params) : Nat → DWord → List DWord
  | 0, _ => []
  | n + 1, h =>
    scrambleRounds p Config.trounds h :: tableFrom p n (scrambleRounds p Config.trounds h)

/-- The scrambling table of an engine (R100). -/
def scrambleTable (p : Config.Params) : List DWord := tableFrom p Config.tsize p.tseed

/-- `Tab(i)`, defined for `i < 2048` (20_memory.md R54). Beyond a stored table it reads 0; no index of a reachable state
is (log entry 17). -/
def tabRead (tab : List DWord) (i : Nat) : DWord := tab.getD i 0

/-- Fold one byte into the accumulator: multiply, then XOR with the table entry (R101). -/
def foldByte (p : Config.Params) (tab : List DWord) (ch : Nat) (h : DWord) (b : Byte) : DWord :=
  (h * p.hmult) ^^^ tabRead tab (ch * 256 + b.toNat)

/-- Fold one code unit: the low byte first, then the high byte (R101, 20_memory.md R58). -/
def foldUnit (p : Config.Params) (tab : List DWord) (ch : Nat) (h : DWord) (u : CodeUnit) : DWord :=
  foldByte p tab ch (foldByte p tab ch h (u.extractLsb' 0 8)) (u.extractLsb' 8 8)

/-- `HASH(S, ch)` over the table `tab` (R101). -/
def hashOf (p : Config.Params) (tab : List DWord) (S : List CodeUnit) (ch : Nat) : DWord :=
  S.foldl (foldUnit p tab ch) p.hstart

/-- `HASH(Str, ch)`, with the engine's own table (R101). -/
def State.hash (s : State) (ch : Nat) : DWord := hashOf s.cfg s.tab s.str ch

/-- The end of reset initialisation: the table holds the constant of R100, and BUSY becomes 0 (70_reset_and_hazards.md
R201). -/
def State.endInit (s : State) : State := { s with tab := scrambleTable s.cfg, phase := .idle }

/-- NOP (R103). -/
def execNop (s : State) : Result := s.done false

/-- STR_CLEAR (R102). -/
def execStrClear (s : State) : Result := State.done { s with str := [] } false

/-- STR_PUSH (R104). -/
def execStrPush (u : CodeUnit) (s : State) : Result :=
  if s.str.length = s.cfg.strMax then s.raise .strFull
  else State.done { s with str := s.str ++ [u] } false

/-- HE_HASH (R105). -/
def execHeHash (ch : BitVec 3) (s : State) : Result :=
  (s.setRes ((s.hash ch.toNat).extractLsb' 0 32) ((s.hash ch.toNat).extractLsb' 32 32)).done false

end Sys2Proof.Machine
end

