-- ==== Sys2Proof/Machine/Bloom.lean ====
section
/-! DEFINITION. The Bloom filter probe engine: BF_CONFIG, BF_CONFIG_SIZED, BF_ADD, BF_CONTAINS and BF_READ_WORD (spec
41_bloom.md). -/

namespace Sys2Proof.Machine

/-- `mask = 2^log2Bits - 1`, as a 64-bit value (10_state.md R34). -/
def State.mask (s : State) : DWord := BitVec.ofNat 64 (2 ^ s.log2Bits - 1)

/-- `probe(n) = HASH(Str, n) & mask` (R123). -/
def State.probe (s : State) (n : Nat) : Nat := (s.hash n &&& s.mask).toNat

/-- The probes of channels 0..k-1, in order (R123). -/
def State.probes (s : State) : List Nat := (List.range s.k).map s.probe

/-- `CONFIGURE(L, K)`: a new, empty filter (R121). BF_CFG and mask are views of the fields. -/
def State.configure (s : State) (L K : Nat) : State :=
  { s with bfReady := true, log2Bits := L, k := K, bits := [] }

/-- The checks of BF_CONFIG and their order, on the integers `L` and `K` (R120). -/
def State.tryConfigure (s : State) (L K : Int) : Result :=
  if L < 1 ∨ L > Config.log2Max ∨ K < 1 ∨ K > Config.kMax then s.raise .invalidParam
  else if L > s.cfg.bfMaxLog2 then s.raise .resource
  else (s.configure L.toNat K.toNat).done false

/-- BF_CONFIG (R120), on the signed operands. -/
def execBfConfig (s : State) : Result := s.tryConfigure (s32 s.larg0) (s32 s.larg1)

/-- The least `L ≥ 4` such that `2^L ≥ req`, which is at most 31 when `req ≤ 2^31 - 1` (R122). -/
def sizedLog2 (req : Int) : Nat :=
  (((List.range (Config.log2Max + 1)).filter (Config.log2SizedMin ≤ ·)).find? (fun L => req ≤ 2 ^ L)).getD
    Config.log2Max

/-- The checks of BF_CONFIG_SIZED and their order, on the required size `req` and `K` (R122). -/
def State.tryConfigureSized (s : State) (req K : Int) : Result :=
  if req > 2 ^ 31 - 1 ∨ K < 1 ∨ K > Config.kMax then s.raise .invalidParam
  else if sizedLog2 req > s.cfg.bfMaxLog2 then s.raise .resource
  else (s.configure (sizedLog2 req) K.toNat).done false

/-- BF_CONFIG_SIZED (R122), on the signed operands: the product is exact. -/
def execBfConfigSized (s : State) : Result := s.tryConfigureSized (s32 s.larg0 * s32 s.larg1) (s32 s.larg2)

/-- BF_ADD (R124). -/
def execBfAdd (s : State) : Result :=
  bfGate s (State.done { s with bits := s.probes.foldl bitSet s.bits } false)

/-- BF_CONTAINS (R125): RESULT is the answer; nothing is written. -/
def execBfContains (s : State) : Result :=
  bfGate s (s.done (s.probes.all (bitRead s.bits)))

/-- The number of 32-bit words of the bit array (R126). -/
def State.bfWords (s : State) : Nat := 2 ^ (s.log2Bits - 5)

/-- Word `w` of the bit array: cell `32w + j` in bit `j`, cells at and above `2^log2Bits` reading 0 (R126, 20_memory.md
R55). -/
def State.bfWord (s : State) (w : Nat) : Word :=
  (List.range 32).foldl
    (fun v j =>
      if 32 * w + j < 2 ^ s.log2Bits ∧ bitRead s.bits (32 * w + j) then v ||| (1#32 <<< j) else v)
    0

/-- BF_READ_WORD (R126). -/
def execBfReadWord (s : State) : Result :=
  bfGate s
    (if u32 s.larg0 ≥ s.bfWords then s.raise .invalidParam
     else (s.setRes (s.bfWord (u32 s.larg0)) 0).done false)

end Sys2Proof.Machine
end

