-- ==== Sys2Proof/Machine/Cuckoo.lean ====
section
/-! DEFINITION. The Cuckoo hash table collision resolver: the displacement loop, the growth controller and the commands
CK_INIT to CK_READ_SLOT (spec 42_cuckoo.md). -/

namespace Sys2Proof.Machine

/-- How one attempt ends (R150): the item is seated, or the bound is reached with `u` unseated. -/
inductive AttemptEnd where
  | seated (m : SlotStore)
  | unseated (m : SlotStore) (u : Pair)
  deriving DecidableEq, Repr

/-- ATTEMPT at capacity `c`, with `fuel` displacements left before the bound (R150): `cur` is tried at `pos`. -/
def attempt (p : Config.Params) (c : Nat) : Nat → SlotStore → Pair → Nat → AttemptEnd
  | 0, m, cur, _ => .unseated m cur
  | fuel + 1, m, cur, pos =>
    match slotRead m pos with
    | none => .seated (slotWrite m pos (some cur))
    | some e =>
      if e = cur then .seated m
      else attempt p c fuel (slotWrite m pos (some cur)) e (alt p c e.key pos)

/-- `PRESENT(p)`: the duplicate pre-check at both candidate slots; never with DUP_PRECHECK = false (R149). -/
def present (p : Config.Params) (c : Nat) (m : SlotStore) (q : Pair) : Bool :=
  p.dupPrecheck && (decide (slotRead m (h1 p c q.key) = some q) || decide (slotRead m (h2 p c q.key) = some q))

/-- How seating a worklist at one capacity ends: all are seated, or an attempt ended with `u` unseated and `rest` still
in the worklist (R146). -/
inductive DrainEnd where
  | all (m : SlotStore)
  | stuck (m : SlotStore) (u : Pair) (rest : List Pair)
  deriving DecidableEq, Repr

/-- Seat the worklist in order at capacity `c` until it is empty or an attempt ends unseated (R146). -/
def drain (p : Config.Params) (c : Nat) : List Pair → SlotStore → DrainEnd
  | [], m => .all m
  | cur :: rest, m =>
    if present p c m cur then drain p c rest m
    else
      match attempt p c c m cur (h1 p c cur.key) with
      | .seated m' => drain p c rest m'
      | .unseated m' u => .stuck m' u rest

/-- The pairs of the Occupied slots in ascending slot order: the snapshot `P` of GROW (R152). -/
def snapshot (c : Nat) (m : SlotStore) : List Pair :=
  (m.filter (fun e => decide (e.1 < c))).map (·.2)

/-- The capacity after one grow (R152). -/
def grownCap (c : Nat) : Nat := 2 * c + 1

/-- GROW's new state: the next capacity, all slots Empty, and the worklist `P ++ [u] ++ W` (R152). -/
def grown (c : Nat) (m : SlotStore) (u : Pair) (rest : List Pair) : PutWork where
  cap := grownCap c
  slots := []
  work := snapshot c m ++ [u] ++ rest
  attempt := none

/-- A CK_PUT in progress run to the next grow: the attempt in progress, if any, then the worklist (R146, R150). -/
def settle (p : Config.Params) (w : PutWork) : DrainEnd :=
  match w.attempt with
  | none => drain p w.cap w.work w.slots
  | some a =>
    match attempt p w.cap (w.cap - a.n) w.slots a.cur a.pos with
    | .seated m => drain p w.cap w.work m
    | .unseated m u => .stuck m u w.work

/-- How a CK_PUT ends: at capacity `c` with slots `m`, or by FAIL at the capacity of the failing attempt (R146, R153). -/
inductive PutEnd where
  | seated (c : Nat) (m : SlotStore)
  | exhausted (c : Nat)
  deriving DecidableEq, Repr

/-- A CK_PUT in progress run to its end, growing as often as it must but at most `fuel` times (R146, R152, R153). -/
def runPut (p : Config.Params) : Nat → PutWork → PutEnd
  | fuel, w =>
    match settle p w with
    | .all m => .seated w.cap m
    | .stuck m u rest =>
      if grownCap w.cap > p.capMax then .exhausted w.cap
      else
        match fuel with
        | 0 => .exhausted w.cap
        | n + 1 => runPut p n (grown w.cap m u rest)

/-- A CK_PUT in progress run to its end. Every grow raises the capacity, so `CAP_MAX - capacity` grows are enough and
the fuel is never what ends the run (R154; Laws/Cuckoo.lean `runPut_fuel`, `finishPut_of_stuck`). -/
def finishPut (p : Config.Params) (w : PutWork) : PutEnd := runPut p (p.capMax - w.cap) w

/-- One piece of internal work on a CK_PUT in progress (R146, R150, R152): take the next item from the worklist, probe
one slot, or grow. `none`: nothing is left to do but to complete. -/
def putStep (p : Config.Params) (w : PutWork) : Option PutWork :=
  match w.attempt with
  | none =>
    match w.work with
    | [] => none
    | cur :: rest =>
      if present p w.cap w.slots cur then some { w with work := rest }
      else some { w with work := rest, attempt := some ⟨cur, h1 p w.cap cur.key, 0⟩ }
  | some a =>
    if a.n < w.cap then
      match slotRead w.slots a.pos with
      | none => some { w with slots := slotWrite w.slots a.pos (some a.cur), attempt := none }
      | some e =>
        if e = a.cur then some { w with attempt := none }
        else
          some { w with
            slots := slotWrite w.slots a.pos (some a.cur)
            attempt := some ⟨e, alt p w.cap e.key a.pos, a.n + 1⟩ }
    else if grownCap w.cap > p.capMax then none
    else some (grown w.cap w.slots a.cur w.work)

/-- The start of CK_PUT: the worklist holds the pair of the operands (R146). -/
def State.putStart (s : State) : PutWork :=
  { cap := s.capacity, slots := s.slots, work := [⟨s.larg0, s.larg1⟩], attempt := none }

/-- How far the CK_PUT in progress is (R40): where the engine's internal work has brought it, or its start. -/
def State.putWork (s : State) : PutWork :=
  match s.phase with
  | .command _ (some w) => w
  | .command _ none => s.putStart
  | .init | .idle => s.putStart

/-- Slot contents of a unit that goes to FAILED: unspecified, so every slot below the capacity is a free value (R153,
log entry 8). -/
def failedSlots (draw c : Nat) : SlotStore :=
  (List.range c).filterMap (fun i => (Config.freeSlot draw i).map (fun kv => (i, ⟨kv.1, kv.2⟩)))

/-- FAIL, capacity exhaustion (R153). -/
def State.failPut (s : State) (c : Nat) : Result :=
  .next (State.complete
    { s with ckMode := .failed, capacity := c, slots := failedSlots s.draws c, draws := s.draws + 1 }
    .capExhausted false)

/-- The checks of CK_INIT and their order, on the integer `C` (R145): no mode gate. -/
def State.tryInit (s : State) (C : Int) : Result :=
  if C ≤ 0 then s.raise .invalidParam
  else if C > s.cfg.capMax then s.raise .resource
  else State.done { s with ckMode := .ready, capacity := C.toNat, slots := [] } false

/-- CK_INIT (R145), on the signed operand. -/
def execCkInit (s : State) : Result := s.tryInit (s32 s.larg0)

/-- CK_PUT (R146). -/
def execCkPut (s : State) : Result :=
  ckGate s
    (match finishPut s.cfg s.putWork with
     | .seated c m => State.done { s with capacity := c, slots := m } false
     | .exhausted c => s.failPut c)

/-- The value of a slot that matches key `x` (R143). -/
def keyedValue (e : Option Pair) (x : Word) : Option Word :=
  match e with
  | none => none
  | some q => if q.key = x then some q.value else none

/-- What CK_GET finds under key `x`: `h1` first, then `h2` (R155). -/
def State.lookup (s : State) (x : Word) : Option Word :=
  match keyedValue (slotRead s.slots (h1 s.cfg s.capacity x)) x with
  | some v => some v
  | none => keyedValue (slotRead s.slots (h2 s.cfg s.capacity x)) x

/-- CK_GET (R155). -/
def execCkGet (s : State) : Result :=
  ckGate s
    (match s.lookup s.larg0 with
     | some v => (s.setRes v 0).done true
     | none => (s.setRes 0 0).done false)

/-- The slot CK_REMOVE clears for the pair `q`, if any: `h1` first, then `h2` (R156). -/
def State.removeAt (s : State) (q : Pair) : Option Nat :=
  if slotRead s.slots (h1 s.cfg s.capacity q.key) = some q then some (h1 s.cfg s.capacity q.key)
  else if slotRead s.slots (h2 s.cfg s.capacity q.key) = some q then some (h2 s.cfg s.capacity q.key)
  else none

/-- CK_REMOVE (R156). -/
def execCkRemove (s : State) : Result :=
  ckGate s
    (match s.removeAt ⟨s.larg0, s.larg1⟩ with
     | some i => State.done { s with slots := slotWrite s.slots i none } true
     | none => s.done false)

/-- The number of Occupied slots in `0..c-1` (R157). -/
def occupied (c : Nat) (m : SlotStore) : Nat := (snapshot c m).length

/-- CK_SIZE (R157). -/
def execCkSize (s : State) : Result :=
  ckGate s ((s.setRes (BitVec.ofNat 32 (occupied s.capacity s.slots)) 0).done false)

/-- CK_CLEAR (R158): every slot Empty, the capacity unchanged. -/
def execCkClear (s : State) : Result := ckGate s (State.done { s with slots := [] } false)

/-- CK_CAPACITY (R159). -/
def execCkCapacity (s : State) : Result := ckGate s ((s.setRes s.ckCapWord 0).done false)

/-- CK_READ_SLOT (R160): an unsigned index. -/
def execCkReadSlot (s : State) : Result :=
  ckGate s
    (if u32 s.larg0 ≥ s.capacity then s.raise .invalidParam
     else
       match slotRead s.slots (u32 s.larg0) with
       | some q => (s.setRes q.key q.value).done true
       | none => (s.setRes 0 0).done false)

end Sys2Proof.Machine
end

