-- ==== Sys2Proof/Machine/Dispatch.lean ====
section
/-! DEFINITION. One arm per command: its meaning at completion (spec 30_encoding.md R72). -/

namespace Sys2Proof.Machine

def exec (i : Instr) (s : State) : Host.Outcome State Fault Refusal :=
  match i with
  | .nop => Sys2Proof.Machine.execNop s
  | .strClear => Sys2Proof.Machine.execStrClear s
  | .strPush u => Sys2Proof.Machine.execStrPush u s
  | .heHash ch => Sys2Proof.Machine.execHeHash ch s
  | .bfConfig => Sys2Proof.Machine.execBfConfig s
  | .bfConfigSized => Sys2Proof.Machine.execBfConfigSized s
  | .bfAdd => Sys2Proof.Machine.execBfAdd s
  | .bfContains => Sys2Proof.Machine.execBfContains s
  | .bfReadWord => Sys2Proof.Machine.execBfReadWord s
  | .ckInit => Sys2Proof.Machine.execCkInit s
  | .ckPut => Sys2Proof.Machine.execCkPut s
  | .ckGet => Sys2Proof.Machine.execCkGet s
  | .ckRemove => Sys2Proof.Machine.execCkRemove s
  | .ckSize => Sys2Proof.Machine.execCkSize s
  | .ckClear => Sys2Proof.Machine.execCkClear s
  | .ckCapacity => Sys2Proof.Machine.execCkCapacity s
  | .ckReadSlot => Sys2Proof.Machine.execCkReadSlot s

end Sys2Proof.Machine
end

