-- ==== Sys2Proof/WellFormed.lean ====
section
/-! DEFINITION. Which instructions and which configurations are ones of this hardware. -/

namespace Sys2Proof

/-- A command term is well formed when its operands are in the ranges of R71. The types of the two operands
(16 and 3 bits) already say so: every term is well formed, and statements about well-formed commands are
about all of them. The matching checks on raw words, where a reserved bit can be set, are the decoder's. -/
def Instr.wellFormed : Instr → Bool
  | .nop | .strClear => true
  | .strPush u => u.toNat < 0x10000
  | .heHash ch => ch.toNat < Config.nchan
  | .bfConfig | .bfConfigSized | .bfAdd | .bfContains | .bfReadWord => true
  | .ckInit | .ckPut | .ckGet | .ckRemove | .ckSize | .ckClear | .ckCapacity | .ckReadSlot => true

namespace Config

/-- `HMULT` must be odd (40_hash_engine.md R106). -/
def Params.hmultOdd (p : Params) : Bool := p.hmult.getLsbD 0

/-- `BF_MAX_LOG2` is in 1..31 (R6). -/
def Params.bfMaxLog2Ok (p : Params) : Bool := decide (1 ≤ p.bfMaxLog2 ∧ p.bfMaxLog2 ≤ log2Max)

/-- `CAP_MAX` is in 1..2^31-1 (R6). -/
def Params.capMaxOk (p : Params) : Bool := decide (1 ≤ p.capMax ∧ p.capMax ≤ 2 ^ 31 - 1)

/-- `STR_MAX` is at least 1 (R6), and below 2^32 because CFG_STRMAX reads it as a 32-bit word (R32; DEDUCED,
log entry 6). -/
def Params.strMaxOk (p : Params) : Bool := decide (1 ≤ p.strMax ∧ p.strMax < 2 ^ 32)

/-- The configurations of this hardware (R6, R106). A model refuses any other (R106). -/
def Params.wellFormed (p : Params) : Bool :=
  p.hmultOdd && p.bfMaxLog2Ok && p.capMaxOk && p.strMaxOk

end Config

end Sys2Proof
end

