-- ==== Sys2Proof/Decode.lean ====
section
/-! DEFINITION. The command word: decoding, total on any word and any bytes, and the encoder (spec 30_encoding.md). -/

namespace Sys2Proof

/-- Why a word or a byte sequence is no command. -/
inductive DecodeError where
  /-- The opcode is not listed in R72 (R73). -/
  | reservedOpcode
  /-- A reserved immediate bit is set (R71, R73). -/
  | reservedImmediate
  /-- Fewer than the four bytes every command has (R74). -/
  | truncated
  deriving DecidableEq, Repr

/-- `opc`, bits 31:24 of the command word (R70). -/
def opcodeOf (w : Word) : Byte := w.extractLsb' 24 8

/-- `imm24`, bits 23:0 of the command word (R70). -/
def imm24Of (w : Word) : BitVec 24 := w.extractLsb' 0 24

/-- `ALLOWED(opc)`: the immediate bits a command may set (R72). -/
def allowedImm (opc : Byte) : BitVec 24 :=
  if opc = 0x02#8 then 0x00FFFF#24 else if opc = 0x08#8 then 0x000007#24 else 0#24

/-- The commands by opcode, given the immediate (R71, R72). `none`: the opcode is reserved (R73). -/
def commandOf (opc : Byte) (imm : BitVec 24) : Option Instr :=
  match opc.toNat with
  | 0x00 => some .nop
  | 0x01 => some .strClear
  | 0x02 => some (.strPush (imm.extractLsb' 0 16))
  | 0x08 => some (.heHash (imm.extractLsb' 0 3))
  | 0x10 => some .bfConfig
  | 0x11 => some .bfConfigSized
  | 0x12 => some .bfAdd
  | 0x13 => some .bfContains
  | 0x14 => some .bfReadWord
  | 0x20 => some .ckInit
  | 0x21 => some .ckPut
  | 0x22 => some .ckGet
  | 0x23 => some .ckRemove
  | 0x24 => some .ckSize
  | 0x25 => some .ckClear
  | 0x26 => some .ckCapacity
  | 0x27 => some .ckReadSlot
  | _ => none

/-- The full decode of a word (R72): legal when the opcode is listed and no reserved immediate bit is set. -/
def decode (w : Word) : Except DecodeError Instr :=
  match commandOf (opcodeOf w) (imm24Of w) with
  | none => .error .reservedOpcode
  | some i =>
    if imm24Of w &&& ~~~(allowedImm (opcodeOf w)) = 0#24 then .ok i else .error .reservedImmediate

/-- A word from its bytes on the bus, the one at the lowest address first: little-endian (20_memory.md R52). -/
def wordOfBytes (b0 b1 b2 b3 : Byte) : Word := b3 ++ b2 ++ b1 ++ b0

/-- Byte `i` of a word on the bus, byte 0 at the lowest address (R52). -/
def byteOfWord (w : Word) (i : Nat) : Byte := w.extractLsb' (8 * i) 8

/-- Decoding from bytes, total: the command and the bytes after it. Every command is exactly four bytes (R74). -/
def decodeBytes : List Byte → Except DecodeError (Instr × List Byte)
  | b0 :: b1 :: b2 :: b3 :: rest =>
    match decode (wordOfBytes b0 b1 b2 b3) with
    | .ok i => .ok (i, rest)
    | .error e => .error e
  | _ => .error .truncated

/-- The command word with a given opcode and immediate (R70). -/
def commandWord (opc : Byte) (imm : BitVec 24) : Word := opc ++ imm

/-- The opcode of a command (R72). -/
def Instr.opcode : Instr → Byte
  | .nop => 0x00#8
  | .strClear => 0x01#8
  | .strPush _ => 0x02#8
  | .heHash _ => 0x08#8
  | .bfConfig => 0x10#8
  | .bfConfigSized => 0x11#8
  | .bfAdd => 0x12#8
  | .bfContains => 0x13#8
  | .bfReadWord => 0x14#8
  | .ckInit => 0x20#8
  | .ckPut => 0x21#8
  | .ckGet => 0x22#8
  | .ckRemove => 0x23#8
  | .ckSize => 0x24#8
  | .ckClear => 0x25#8
  | .ckCapacity => 0x26#8
  | .ckReadSlot => 0x27#8

/-- The immediate of a command (R71): zero-extended, the reserved bits 0. -/
def Instr.imm24 : Instr → BitVec 24
  | .strPush u => u.setWidth 24
  | .heHash ch => ch.setWidth 24
  | .nop | .strClear | .bfConfig | .bfConfigSized | .bfAdd | .bfContains | .bfReadWord => 0#24
  | .ckInit | .ckPut | .ckGet | .ckRemove | .ckSize | .ckClear | .ckCapacity | .ckReadSlot => 0#24

/-- The command word of a command (R70 to R72). -/
def encode (i : Instr) : Word := commandWord i.opcode i.imm24

/-- The bytes of a command on the bus (R52). -/
def encodeBytes (i : Instr) : List Byte :=
  [byteOfWord (encode i) 0, byteOfWord (encode i) 1, byteOfWord (encode i) 2, byteOfWord (encode i) 3]

/-- What the decoder reads from a word numbered as the opcode table numbers it: one 32-bit word (R74), laid
out little-endian. -/
def decodeTableWord (nbits w : Nat) : Option Instr :=
  if w % 2 ^ nbits < 2 ^ 32 then
    let v := BitVec.ofNat 32 (w % 2 ^ nbits)
    match decodeBytes [byteOfWord v 0, byteOfWord v 1, byteOfWord v 2, byteOfWord v 3] with
    | .ok (i, _) => some i
    | .error _ => none
  else none

end Sys2Proof
end

