-- ==== Sys2Proof/Machine/HostSide.lean ====
section
/-! DEFINITION. The host: its pseudo-instructions (spec 30_encoding.md R75, R76) and what one of its statements does. -/

namespace Sys2Proof.Machine

/-- `WR <reg>, v` (R75). -/
def hostWr (base : Nat) (r : Reg) (v : Word) : HostStmt := .wr (base + r.offset) 4 v

/-- `RD <reg>` (R75). -/
def hostRd (base : Nat) (r : Reg) : HostStmt := .rd (base + r.offset) 4

/-- The argument writes of `DO`: ARG0, ARG1, ARG2 as given (R76). -/
def hostArgs (base : Nat) : List Word → List Reg → List HostStmt
  | a :: as, r :: rs => hostWr base r a :: hostArgs base as rs
  | _, _ => []

/-- `DO <MNEMONIC> [<imm>] [, a0 [, a1 [, a2]]]` (R76): the arguments, the command word, WAIT. -/
def hostDo (base : Nat) (i : Instr) (args : List Word) : List HostStmt :=
  hostArgs base args [.arg0, .arg1, .arg2] ++ [hostWr base .cmd (encode i), .wait]

/-- `LOADSTR` of a text given by its code units (R76). -/
def hostLoadStr (base : Nat) (units : List CodeUnit) : List HostStmt :=
  hostDo base .strClear [] ++ units.flatMap (fun u => hostDo base (.strPush u) [])

/-- The UTF-16 code units of a character (R76; PRESUMED, the spec's own general knowledge G7, log entry 16). -/
def utf16OfChar (c : Char) : List CodeUnit :=
  if c.toNat < 0x10000 then [BitVec.ofNat 16 c.toNat]
  else
    [BitVec.ofNat 16 (0xD800 + (c.toNat - 0x10000) / 0x400), BitVec.ofNat 16 (0xDC00 + (c.toNat - 0x10000) % 0x400)]

/-- The UTF-16 code units of a text, in order (R76; PRESUMED, log entry 16). -/
def utf16Units (text : List Char) : List CodeUnit := text.flatMap utf16OfChar

/-- `KEYS` and `VALUES` (R76): DO CK_CAPACITY, RD RES0, then the loop. -/
def hostTraverse (base : Nat) (what : Collect) : List HostStmt :=
  hostDo base .ckCapacity [] ++ [.slotLoop what]

/-- What collecting one more word makes of the collection: keys() is a set, so duplicates collapse; values() is a
sequence, in slot order (42_cuckoo.md R175). -/
def collectWord (what : Collect) (acc : List Word) (v : Word) : List Word :=
  match what with
  | .keys => if v ∈ acc then acc else acc ++ [v]
  | .values => acc ++ [v]

/-- The register that holds what is collected of the slot just read (R76, 42_cuckoo.md R160). -/
def collectReg (what : Collect) : Reg :=
  match what with
  | .keys => .res0
  | .values => .res1

/-- What collecting takes from a pair (R175). -/
def collectOf (what : Collect) (q : Pair) : Word :=
  match what with
  | .keys => q.key
  | .values => q.value

/-- keys() and values() of a table: slots in ascending order, as a set or as a sequence (R175). -/
def traversal (what : Collect) (c : Nat) (m : SlotStore) : List Word :=
  (List.range c).foldl
    (fun acc i =>
      match slotRead m i with
      | some q => collectWord what acc (collectOf what q)
      | none => acc)
    []

/-- A host read of a register, kept in the host's list of reads (R50). -/
def hostReadReg (r : Reg) (s : State) : Word × State :=
  let v := (readReg r s).1
  let t := (readReg r s).2
  (v, { t with reads := t.reads ++ [(t.cfg.engineBase + r.offset, v)] })

/-- The rest of the host's program. -/
def State.setHost (s : State) (rest : List HostStmt) : State := { s with host := rest }

/-- The host's turn: its next statement, if it has one (R61: in program order, one at a time). R76 names no read for the
test of STATUS.RESULT in KEYS and VALUES: the model makes one further `RD STATUS` for each slot, after the WAIT, and keeps
it in the host's reads (`collectIf`; DESIGN CHOICE, log entry 16). -/
def hostTurn (s : State) : Result :=
  match s.host with
  | [] => .next s
  | .wr addr size v :: rest =>
    match windowReg s.cfg.engineBase addr size with
    | some r => .next (writeReg r v (s.setHost rest))
    | none => .refused .accessOutsideInterface
  | .rd addr size :: rest =>
    match windowReg s.cfg.engineBase addr size with
    | some r => .next (hostReadReg r (s.setHost rest)).2
    | none => .refused .accessOutsideInterface
  | .wait :: rest =>
    let v := (hostReadReg .status s).1
    let t := (hostReadReg .status s).2
    .next (if v.getLsbD 0 then t else t.setHost rest)
  | .check :: rest =>
    let v := (hostReadReg .status s).1
    let t := (hostReadReg .status s).2
    if errField v = 0#8 then .next (t.setHost rest) else .fault .checkFailed
  | .slotLoop what :: rest =>
    let v := (hostReadReg .res0 s).1
    let t := (hostReadReg .res0 s).2
    .next { t with gathered := [], host := .slot what 0 v.toNat :: rest }
  | .slot what i c :: rest =>
    if i < c then
      .next (s.setHost
        (hostDo s.cfg.engineBase .ckReadSlot [BitVec.ofNat 32 i] ++
          .collectIf what :: .slot what (i + 1) c :: rest))
    else .next (s.setHost rest)
  | .collectIf what :: rest =>
    let v := (hostReadReg .status s).1
    let t := (hostReadReg .status s).2
    .next (t.setHost (if v.getLsbD 1 then .collect what :: rest else rest))
  | .collect what :: rest =>
    let v := (hostReadReg (collectReg what) s).1
    let t := (hostReadReg (collectReg what) s).2
    .next { t with gathered := collectWord what t.gathered v, host := rest }

/-- A run is over (70_reset_and_hazards.md R218): the host has executed its last statement and BUSY is 0. -/
def State.runOver (s : State) : Bool := s.host.isEmpty && !s.busy

end Sys2Proof.Machine
end

