-- ==== Sys2Proof/Machine/Agents.lean ====
section
/-! DEFINITION. Whose turn it is, and what the turns of the engine and of the platform do (spec 10_state.md R20,
70_reset_and_hazards.md R200, R216). -/

namespace Sys2Proof.Machine

/-- Whose turn comes next: the schedule's, and where it says nothing, the engine's while it is busy (weak fairness,
R216), else the host's. -/
def State.nextTurn (s : State) : Turn :=
  match s.sched with
  | t :: _ => t
  | [] => if s.busy then .engine else .host

/-- The turn is taken. -/
def State.popTurn (s : State) : State := { s with sched := s.sched.tail }

/-- The engine completes what is in progress: initialisation (R201), or the command, which it decodes from LCMD (R27).
An illegal word completes with ILLEGAL and no other effect (30_encoding.md R73). An idle engine does nothing. -/
def engineTurn (s : State) : Result :=
  match s.phase with
  | .idle => .next s
  | .init => .next s.endInit
  | .command c _ =>
    match decode c.cmd with
    | .ok i => exec i s
    | .error _ => s.raise .illegal

/-- The engine works without completing (R216). Only CK_PUT has hidden state that this moves (R40). During initialisation
it moves nothing: the turn that ends the phase stores the whole table, where R201 lets the engine build it on the way
(DESIGN CHOICE, log entry 10). -/
def workTurn (s : State) : State :=
  match s.phase with
  | .idle | .init => s
  | .command c _ =>
    if decode c.cmd = .ok .ckPut ∧ s.ckMode = .ready then
      match putStep s.cfg s.putWork with
      | some w => { s with phase := .command c (some w) }
      | none => s
    else s

/-- The platform asserts reset (R200, R202): every state of the engine takes its reset value and a command in progress
is abandoned. The parameters stay; so do the model's own fields, which stand outside the engine (log entry 15). -/
def resetTurn (s : State) : State :=
  { State.resetWith s.cfg with
    draws := s.draws, sched := s.sched, host := s.host, reads := s.reads, gathered := s.gathered }

/-- The engine made ready to accept: initialisation over, and any other command gone. -/
def State.readyToAccept (s : State) : State :=
  match s.phase with
  | .init => s.endInit
  | .idle | .command _ _ => { s with phase := .idle }

/-- The command word of `nbits` bits `w` issued, and the engine's turn next (log entry 1). -/
def State.issue (s : State) (nbits w : Nat) : State :=
  { s.readyToAccept.accept (BitVec.ofNat 32 (w % 2 ^ nbits)) with sched := .engine :: s.sched }

end Sys2Proof.Machine
end

