-- ==== Sys2Proof/Machine/Step.lean ====
section
/-! DEFINITION. One step of the machine: one turn of one agent. -/

namespace Sys2Proof.Machine

/-- One step. A configuration that is not one of this hardware has none (40_hash_engine.md R106); neither has a second
agent (70_reset_and_hazards.md R214). -/
def step (s : State) : Host.Outcome State Fault Refusal :=
  if s.cfg.wellFormed then
    match s.nextTurn with
    | .engine => engineTurn s.popTurn
    | .work => .next (workTurn s.popTurn)
    | .host => hostTurn s.popTurn
    | .reset => .next (resetTurn s.popTurn)
    | .foreign => .refused .secondAgent
  else .refused .notAConfiguration

/-- The state in which the very next step runs the command word `w`: initialisation has ended, the word has been written
to CMD and accepted (R27), and the engine is next (log entry 1). -/
def State.withFetchWord (s : State) (nbits w : Nat) : State := s.issue nbits w

end Sys2Proof.Machine
end

