-- ==== Sys2Proof/Safety.lean ====
section
/-! DEFINITION. What holds of every state of a run, what a safe run is, and the runs that claims speak of. -/

namespace Sys2Proof.Machine

/-- The engine is one of this hardware, and no pair has been lost: the Cuckoo unit is not in FAILED, the state that no
claim about the table's contents passes through (42_cuckoo.md R153). -/
def State.safe (s : State) : Bool := s.cfg.wellFormed && !s.ckFailed

/-- The pairs of the table, in slot order. -/
def SlotStore.pairs (m : SlotStore) : List Pair := m.map (·.2)

/-- Every Occupied slot is a candidate slot of its key at capacity `c` (10_state.md R41, Cuckoo reachability). -/
def Reachable (p : Config.Params) (c : Nat) (m : SlotStore) : Prop :=
  ∀ i q, (i, q) ∈ m → i = h1 p c q.key ∨ i = h2 p c q.key

/-- The Bloom unit's fields are in the ranges of 10_state.md R34. -/
structure BloomInv (s : State) : Prop where
  unconfigured : s.bfReady = false → s.log2Bits = 0 ∧ s.k = 0
  log2Bits_range : s.bfReady = true → 1 ≤ s.log2Bits ∧ s.log2Bits ≤ s.cfg.bfMaxLog2
  k_range : s.bfReady = true → 1 ≤ s.k ∧ s.k ≤ Config.kMax
  bits_range : s.bfReady = true → ∀ i ∈ s.bits, i < 2 ^ s.log2Bits
  canonical : BitStore.wf s.bits

/-- The Cuckoo unit's fields are in the ranges of 10_state.md R35, and the table is as R41 says. -/
structure CuckooInv (s : State) : Prop where
  uninit : s.ckMode = .uninit → s.capacity = 0
  capacity_range : s.ckMode ≠ .uninit → 1 ≤ s.capacity ∧ s.capacity ≤ s.cfg.capMax
  slots_range : s.ckMode ≠ .uninit → ∀ i q, (i, q) ∈ s.slots → i < s.capacity
  canonical : SlotStore.wf s.slots
  reachable : s.ckMode = .ready → Reachable s.cfg s.capacity s.slots
  distinct : s.ckMode = .ready → s.cfg.dupPrecheck = true → (SlotStore.pairs s.slots).Nodup

/-- What holds of the engine between any two steps of a run. -/
structure Inv (s : State) : Prop where
  /-- the parameters are ones of this hardware (R6, R106) -/
  cfg : s.cfg.wellFormed = true
  /-- the staged string fits (R31) -/
  str : s.str.length ≤ s.cfg.strMax
  bloom : BloomInv s
  cuckoo : CuckooInv s
  /-- the table is the constant of R100 once initialisation has ended (R36, R202) -/
  tab : s.phase ≠ .init → s.tab = scrambleTable s.cfg
  /-- hidden state exists for a CK_PUT in mode READY only, and leads where the command leads from its start (R40) -/
  hidden : ∀ c w, s.phase = .command c (some w) →
    decode c.cmd = .ok .ckPut ∧ s.ckMode = .ready ∧ finishPut s.cfg w = finishPut s.cfg s.putStart

/-- The command that completes in the step from `s`, if one does: the engine's turn, with a legal command in progress. -/
def State.completing (s : State) : Option Instr :=
  match s.nextTurn, s.phase with
  | .engine, .command c _ => (decode c.cmd).toOption
  | _, _ => none

/-- The step from `s` begins a new Bloom filter or resets the unit: a configuration command completes without error
(41_bloom.md R121), or reset is asserted. -/
def State.renewsBloom (s : State) : Prop :=
  s.nextTurn = .reset ∨
  (s.completing = some .bfConfig ∨ s.completing = some .bfConfigSized) ∧ ∃ t, step s = .next t ∧ t.err = .ok

/-- A command in progress whose word is `w` completes with ILLEGAL and no other effect (30_encoding.md R73). -/
def CompletesIllegal (w : Word) : Prop :=
  ∀ (s : State) (c : Latched) (pw : Option PutWork), s.phase = .command c pw → c.cmd = w →
    engineTurn s = .next { s with err := .illegal, result := false, phase := .idle }

/-- The encoding of a command without an immediate: its opcode with `imm24 = 0`, and ILLEGAL with any other immediate
(30_encoding.md R71, R73). -/
def EncodedOnlyAs (opc : Byte) (i : Instr) : Prop :=
  decode (commandWord opc 0) = .ok i ∧ ∀ m : BitVec 24, m ≠ 0 → CompletesIllegal (commandWord opc m)

/-- The command is gated: on a Cuckoo unit that is not READY it raises the error of the mode (42_cuckoo.md R144). -/
def GatedOut (i : Instr) : Prop :=
  ∀ s : State,
    (s.ckMode = .uninit → exec i s = .next { s with err := .notConfigured, result := false, phase := .idle }) ∧
    (s.ckMode = .failed → exec i s = .next { s with err := .unitFailed, result := false, phase := .idle })

/-- A run from `s` to `t` in which no step does `bad`. -/
inductive RunWithout (bad : State → Prop) : State → State → Prop where
  | refl (s : State) : RunWithout bad s s
  | step {s t u : State} : RunWithout bad s t → ¬ bad t → Machine.step t = .next u → RunWithout bad s u

end Sys2Proof.Machine
end

