-- ==== Sys2Proof/Certificates/Slice0/Obligations.lean ====
section
/-! DEFINITION. The statements about the machine, from the numbered rules of the spec. -/

open Sys2Proof Sys2Proof.Machine

/-! ## The command word -/

/-- Some words of 30_encoding.md R72, written out from the table: the command or the reason each is illegal. -/
def Obligations.SelectedWordsDecode : Prop :=
  decode 0x00000000#32 = .ok .nop ∧ decode 0x01000000#32 = .ok .strClear ∧
  decode 0x02000041#32 = .ok (.strPush 0x0041#16) ∧ decode 0x08000007#32 = .ok (.heHash 7#3) ∧
  decode 0x10000000#32 = .ok .bfConfig ∧ decode 0x14000000#32 = .ok .bfReadWord ∧
  decode 0x21000000#32 = .ok .ckPut ∧ decode 0x27000000#32 = .ok .ckReadSlot ∧
  decode 0x02010041#32 = .error .reservedImmediate ∧ decode 0x08000008#32 = .error .reservedImmediate ∧
  decode 0x03000000#32 = .error .reservedOpcode ∧ decode 0xFFFFFFFF#32 = .error .reservedOpcode ∧
  decodeBytes [0x41#8, 0x00#8, 0x00#8, 0x02#8] = .ok (.strPush 0x0041#16, [])

/-- Every command at every operand value decodes from its own word, and from its four bytes on the bus whatever
follows them. -/
def Obligations.DecodeOfEncodeIsTheCommand : Prop :=
  ∀ (i : Instr) (rest : List Byte), i.wellFormed = true →
    decode (encode i) = .ok i ∧ decodeBytes (encodeBytes i ++ rest) = .ok (i, rest)

/-- A word has at most one meaning and is the only word with it: whatever decodes is the encoding of what it decodes to. -/
def Obligations.EncodeOfDecodeIsTheWord : Prop :=
  ∀ (w : Word) (i : Instr), decode w = .ok i → encode i = w

/-- The legal words are exactly those of the decode formula of 30_encoding.md R72: the opcode is listed, and no immediate
bit outside ALLOWED(opc) is set. -/
def Obligations.LegalWordsAreThoseOfTheOpcodeMap : Prop :=
  ∀ w : Word,
    (∃ i, decode w = .ok i) ↔
      (w.extractLsb' 24 8 ∈
          [0x00#8, 0x01#8, 0x02#8, 0x08#8, 0x10#8, 0x11#8, 0x12#8, 0x13#8, 0x14#8,
           0x20#8, 0x21#8, 0x22#8, 0x23#8, 0x24#8, 0x25#8, 0x26#8, 0x27#8] ∧
       w.extractLsb' 0 24 &&&
          ~~~(if w.extractLsb' 24 8 = 0x02#8 then 0x00FFFF#24
              else if w.extractLsb' 24 8 = 0x08#8 then 0x000007#24 else 0#24) = 0#24)

/-- 30_encoding.md R73: which words are illegal (the reserved opcodes; the reserved immediate bits), that an illegal word
is accepted as any other is, and that it completes with ILLEGAL and no other effect. -/
def Obligations.IllegalWordsCompleteWithIllegal : Prop :=
  (∀ w : Word,
    (0x03 ≤ (opcodeOf w).toNat ∧ (opcodeOf w).toNat ≤ 0x07 ∨ 0x09 ≤ (opcodeOf w).toNat ∧ (opcodeOf w).toNat ≤ 0x0F ∨
      0x15 ≤ (opcodeOf w).toNat ∧ (opcodeOf w).toNat ≤ 0x1F ∨ 0x28 ≤ (opcodeOf w).toNat) →
    decode w = .error .reservedOpcode) ∧
  (∀ w : Word,
    (opcodeOf w = 0x02#8 ∧ (imm24Of w).extractLsb' 16 8 ≠ 0#8 ∨ opcodeOf w = 0x08#8 ∧ (imm24Of w).extractLsb' 3 21 ≠ 0#21 ∨
      opcodeOf w ≠ 0x02#8 ∧ opcodeOf w ≠ 0x08#8 ∧ imm24Of w ≠ 0#24) →
    ∃ e, decode w = .error e) ∧
  (∀ (s : State) (w : Word), s.busy = false → (writeReg .cmd w s).phase = .command ⟨w, s.arg0, s.arg1, s.arg2⟩ none) ∧
  (∀ (s : State) (c : Latched) (pw : Option PutWork) (e : DecodeError),
    s.phase = .command c pw → decode c.cmd = .error e →
    engineTurn s = .next { s with err := .illegal, result := false, phase := .idle })

/-! ## The step -/

/-- The step that completes a legal command is the command's meaning, with the turn taken. -/
def Obligations.StepRunsTheDecodedCommand : Prop :=
  ∀ (s : State) (c : Latched) (pw : Option PutWork) (i : Instr),
    s.cfg.wellFormed = true → s.nextTurn = .engine → s.phase = .command c pw → decode c.cmd = .ok i →
    step s = exec i { s with sched := s.sched.tail }

/-- A word of the opcode table, issued (withFetchWord stands for its acceptance: the model's, log entry 1), is what the
very next step runs, on the operands in ARG0 to ARG2. -/
def Obligations.IssuedWordRunsNext : Prop :=
  ∀ (s : State) (w : Nat) (i : Instr), s.cfg.wellFormed = true → decodeTableWord 32 w = some i →
    ∃ t : State, step (s.withFetchWord 32 w) = exec i t ∧
      t = { s.withFetchWord 32 w with sched := s.sched } ∧
      t.latched = ⟨BitVec.ofNat 32 w, s.arg0, s.arg1, s.arg2⟩ ∧
      t.str = s.str ∧ t.bits = s.bits ∧ t.slots = s.slots ∧ t.ckMode = s.ckMode ∧ t.capacity = s.capacity

/-- 70_reset_and_hazards.md R216, weak fairness: where the schedule says nothing, a busy engine completes in one step,
whatever it is doing. The schedule and its default are the model's (log entry 2). -/
def Obligations.BusyEngineCompletes : Prop :=
  ∀ s : State, s.cfg.wellFormed = true → s.busy = true → s.sched = [] →
    ∃ t, step s = .next t ∧ t.busy = false

/-- 10_state.md R27: acceptance, that the command then executes from LCMD and LARG, and that completion is one later
engine step that leaves BUSY 0. -/
def Obligations.AcceptanceLatchesTheCommand : Prop :=
  ∀ (s : State) (w : Word), s.busy = false →
    (writeReg .cmd w s = { s with
      phase := .command ⟨w, s.arg0, s.arg1, s.arg2⟩ none, err := .ok, result := false }) ∧
    (writeReg .cmd w s).busy = true ∧
    (writeReg .cmd w s).latched = ⟨w, s.arg0, s.arg1, s.arg2⟩ ∧
    (∀ i, decode w = .ok i → engineTurn (writeReg .cmd w s) = exec i (writeReg .cmd w s)) ∧
    (∃ u, engineTurn (writeReg .cmd w s) = .next u ∧ u.busy = false)

/-- 70_reset_and_hazards.md R210: a CMD write while BUSY is 1 is dropped and only sets OVR, which the host can read.
10_state.md R25: in every state, busy or idle, a STATUS write with bit 2 set clears OVR and nothing else; one with bit 2
clear changes nothing. -/
def Obligations.CommandWriteWhileBusyIsDropped : Prop :=
  (∀ (s : State) (w : Word), s.busy = true →
    writeReg .cmd w s = { s with ovr := true } ∧ (readReg .status (writeReg .cmd w s)).1.getLsbD 2 = true) ∧
  (∀ (s : State) (v : Word),
    (v.getLsbD 2 = true →
      writeReg .status v s = { s with ovr := false } ∧
      (readReg .status (writeReg .status v s)).1.getLsbD 2 = false) ∧
    (v.getLsbD 2 = false → writeReg .status v s = s))

/-- 10_state.md R26 and 20_memory.md R53: in every state, idle, busy or in initialisation, ARG0 to ARG2 store what is
written, read it back, and nothing else changes. 70_reset_and_hazards.md R212: a write of one of them while a command is in
progress changes nothing of what the command does; the register holds the value for the next command. -/
def Obligations.OperandWritesDoNotDisturbTheCommand : Prop :=
  (∀ (s : State) (v : Word),
    writeReg .arg0 v s = { s with arg0 := v } ∧ writeReg .arg1 v s = { s with arg1 := v } ∧
    writeReg .arg2 v s = { s with arg2 := v } ∧
    ∀ r ∈ [Reg.arg0, Reg.arg1, Reg.arg2], (readReg r (writeReg r v s)).1 = v) ∧
  (∀ (s t : State) (c : Latched) (pw : Option PutWork) (i : Instr) (r : Reg) (v : Word),
    s.phase = .command c pw → r ∈ [Reg.arg0, Reg.arg1, Reg.arg2] → exec i s = .next t →
    exec i (writeReg r v s) = .next (writeReg r v t) ∧ (readReg r (writeReg r v t)).1 = v)

/-- 70_reset_and_hazards.md R211: what each read returns while BUSY is 1. An open read is a free value, a new one each
time; that the draws are counted, and that the five open fields of one STATUS read are bits of one free value, is the
model's choice (log entry 7). -/
def Obligations.ReadsWhileBusy : Prop :=
  ∀ s : State, s.busy = true →
    readReg .id s = (0x48573501#32, s) ∧
    readReg .cfgCapMax s = (BitVec.ofNat 32 s.cfg.capMax, s) ∧
    readReg .cfgStrMax s = (BitVec.ofNat 32 s.cfg.strMax, s) ∧
    readReg .cfgBfMaxLog2 s = (BitVec.ofNat 32 s.cfg.bfMaxLog2, s) ∧
    readReg .arg0 s = (s.arg0, s) ∧ readReg .arg1 s = (s.arg1, s) ∧ readReg .arg2 s = (s.arg2, s) ∧
    readReg .cmd s = (0, s) ∧ readReg .reserved38 s = (0, s) ∧ readReg .reserved3C s = (0, s) ∧
    (∀ r ∈ [Reg.res0, Reg.res1, Reg.bfCfg, Reg.ckCap, Reg.strLen],
      readReg r s = (Config.freeWord s.draws, { s with draws := s.draws + 1 })) ∧
    (readReg .status s).2 = { s with draws := s.draws + 1 } ∧
    (readReg .status s).1.getLsbD 0 = true ∧ (readReg .status s).1.getLsbD 2 = s.ovr ∧
    (readReg .status s).1.getLsbD 1 = (Config.freeWord s.draws).getLsbD 1 ∧
    (readReg .status s).1.extractLsb' 3 3 = (Config.freeWord s.draws).extractLsb' 3 3 ∧
    (readReg .status s).1.extractLsb' 8 8 = (Config.freeWord s.draws).extractLsb' 8 8 ∧
    (readReg .status s).1.extractLsb' 6 2 = 0#2 ∧ (readReg .status s).1.extractLsb' 16 16 = 0#16

/-- 10_state.md R22, R25 to R33: what each read returns while the engine is idle, STATUS and BF_CFG field
by field, ERR by the code table of 60_exceptions.md R180. -/
def Obligations.ReadsWhileIdle : Prop :=
  [Err.ok, .illegal, .invalidParam, .notConfigured, .strFull, .resource, .capExhausted, .unitFailed].map Err.code =
    [0x00#8, 0x01#8, 0x02#8, 0x03#8, 0x04#8, 0x05#8, 0x06#8, 0x07#8] ∧
  ∀ s : State, s.busy = false →
    readReg .id s = (0x48573501#32, s) ∧ readReg .cmd s = (0, s) ∧
    readReg .arg0 s = (s.arg0, s) ∧ readReg .arg1 s = (s.arg1, s) ∧ readReg .arg2 s = (s.arg2, s) ∧
    readReg .res0 s = (s.res0, s) ∧ readReg .res1 s = (s.res1, s) ∧
    readReg .ckCap s = (BitVec.ofNat 32 s.capacity, s) ∧
    readReg .strLen s = (BitVec.ofNat 32 s.str.length, s) ∧
    readReg .cfgCapMax s = (BitVec.ofNat 32 s.cfg.capMax, s) ∧
    readReg .cfgStrMax s = (BitVec.ofNat 32 s.cfg.strMax, s) ∧
    readReg .cfgBfMaxLog2 s = (BitVec.ofNat 32 s.cfg.bfMaxLog2, s) ∧
    readReg .reserved38 s = (0, s) ∧ readReg .reserved3C s = (0, s) ∧
    (readReg .status s).2 = s ∧
    (readReg .status s).1.getLsbD 0 = false ∧ (readReg .status s).1.getLsbD 1 = s.result ∧
    (readReg .status s).1.getLsbD 2 = s.ovr ∧
    (readReg .status s).1.getLsbD 3 = decide (s.ckMode = .failed) ∧
    (readReg .status s).1.getLsbD 4 = s.bfReady ∧
    (readReg .status s).1.getLsbD 5 = decide (s.ckMode = .ready) ∧
    (readReg .status s).1.extractLsb' 6 2 = 0#2 ∧ (readReg .status s).1.extractLsb' 8 8 = s.err.code ∧
    (readReg .status s).1.extractLsb' 16 16 = 0#16 ∧
    (readReg .bfCfg s).2 = s ∧
    (Inv s → ((readReg .bfCfg s).1.extractLsb' 0 5).toNat = s.log2Bits ∧
      ((readReg .bfCfg s).1.extractLsb' 8 4).toNat = s.k ∧
      (readReg .bfCfg s).1.extractLsb' 5 3 = 0#3 ∧ (readReg .bfCfg s).1.extractLsb' 12 20 = 0#20 ∧
      (s.bfReady = false → (readReg .bfCfg s).1 = 0))

/-- 10_state.md R22, R23, R33: ID and its bytes, and that a write to ID, to any other read-only register or to a reserved
offset is ignored. -/
def Obligations.ReadOnlyRegistersIgnoreWrites : Prop :=
  (∀ s : State, readReg .id s = (0x48573501#32, s)) ∧
  (0x48573501#32).extractLsb' 24 8 = 0x48#8 ∧ (0x48573501#32).extractLsb' 16 8 = 0x57#8 ∧
  (0x48573501#32).extractLsb' 8 8 = 0x35#8 ∧ (0x48573501#32).extractLsb' 0 8 = 1#8 ∧
  (∀ (r : Reg) (v : Word) (s : State), r ∉ [Reg.cmd, .status, .arg0, .arg1, .arg2] → writeReg r v s = s)

/-- 10_state.md R32: the parameter registers read the parameters, and no step changes a parameter. -/
def Obligations.ParametersNeverChange : Prop :=
  (∀ s : State, readReg .cfgCapMax s = (BitVec.ofNat 32 s.cfg.capMax, s) ∧
    readReg .cfgStrMax s = (BitVec.ofNat 32 s.cfg.strMax, s) ∧
    readReg .cfgBfMaxLog2 s = (BitVec.ofNat 32 s.cfg.bfMaxLog2, s)) ∧
  (∀ s t : State, step s = .next t → t.cfg = s.cfg)

/-- 10_state.md R22, 20_memory.md R50 and R51: the offsets of the registers are the multiples of 4 from 0x00 to 0x3C; an
access names a register exactly when it is 4 bytes wide at the register's offset from ENGINE_BASE; and the host has no step
for any other access. -/
def Obligations.OnlyAlignedWordAccessesExist : Prop :=
  ([Reg.id, .cmd, .status, .arg0, .arg1, .arg2, .res0, .res1].map Reg.offset =
      [0x00, 0x04, 0x08, 0x0C, 0x10, 0x14, 0x18, 0x1C] ∧
    [Reg.bfCfg, .ckCap, .strLen, .cfgCapMax, .cfgStrMax, .cfgBfMaxLog2, .reserved38, .reserved3C].map Reg.offset =
      [0x20, 0x24, 0x28, 0x2C, 0x30, 0x34, 0x38, 0x3C]) ∧
  (∀ n : Nat, (∃ r : Reg, r.offset = n) ↔ n % 4 = 0 ∧ n ≤ 0x3C) ∧
  (∀ (base addr size : Nat) (r : Reg), windowReg base addr size = some r ↔ size = 4 ∧ addr = base + r.offset) ∧
  (∀ (s : State) (addr size : Nat) (v : Word) (rest : List HostStmt),
    (∀ r : Reg, ¬ (size = 4 ∧ addr = s.cfg.engineBase + r.offset)) →
    (s.host = .wr addr size v :: rest ∨ s.host = .rd addr size :: rest) →
    hostTurn s = .refused .accessOutsideInterface)

/-- 40_hash_engine.md R106: a machine whose HMULT is even is refused at every step; the default HMULT is odd. -/
def Obligations.EvenMultiplierIsRefused : Prop :=
  (∀ s : State, s.cfg.hmult.toNat % 2 = 0 → step s = .refused .notAConfiguration) ∧
  Config.Params.default.hmult = 0x6A5D39EAE116586D#64 ∧ Config.Params.default.hmult.toNat % 2 = 1

/-- 10_state.md R38: OVR is set by a dropped CMD write, and by nothing else; it is cleared by a STATUS write with bit 2 or
by reset only; and no command reads or writes it. -/
def Obligations.OverrunFlagChangesOnlyAsStated : Prop :=
  (∀ (s : State) (w : Word), s.busy = true → (writeReg .cmd w s).ovr = true) ∧
  (∀ (i : Instr) (s t : State) (b : Bool), exec i s = .next t → exec i { s with ovr := b } = .next { t with ovr := b }) ∧
  (∀ s t : State, step s = .next t →
    (s.ovr = false → t.ovr = true →
      s.nextTurn = .host ∧ s.busy = true ∧
      ∃ v rest, s.host = .wr (s.cfg.engineBase + Reg.cmd.offset) 4 v :: rest) ∧
    (s.ovr = true → t.ovr = false →
      s.nextTurn = .reset ∨
      s.nextTurn = .host ∧
        ∃ v rest, s.host = .wr (s.cfg.engineBase + Reg.status.offset) 4 v :: rest ∧ v.getLsbD 2 = true))

/-! ## Reset -/

/-- 70_reset_and_hazards.md R202: the reset values, and what the host reads of them once initialisation has ended. Nothing
is said of `bits`, `slots` and the table before then, which the spec leaves open. -/
def Obligations.ResetValues : Prop :=
  ∀ p : Config.Params,
    (State.resetWith p).busy = true ∧ (State.resetWith p).result = false ∧ (State.resetWith p).ovr = false ∧
    (State.resetWith p).err = .ok ∧ (State.resetWith p).arg0 = 0 ∧ (State.resetWith p).arg1 = 0 ∧
    (State.resetWith p).arg2 = 0 ∧ (State.resetWith p).res0 = 0 ∧ (State.resetWith p).res1 = 0 ∧
    (State.resetWith p).str = [] ∧ (State.resetWith p).bfReady = false ∧ (State.resetWith p).log2Bits = 0 ∧
    (State.resetWith p).k = 0 ∧ (State.resetWith p).ckMode = .uninit ∧ (State.resetWith p).capacity = 0 ∧
    (State.resetWith p).phase = .init ∧
    (∃ t, engineTurn (State.resetWith p) = .next t ∧ t.busy = false ∧ t.tab = scrambleTable p ∧
      (readReg .id t).1 = 0x48573501#32 ∧ (readReg .cmd t).1 = 0 ∧ (readReg .status t).1 = 0 ∧
      (readReg .arg0 t).1 = 0 ∧ (readReg .arg1 t).1 = 0 ∧ (readReg .arg2 t).1 = 0 ∧
      (readReg .res0 t).1 = 0 ∧ (readReg .res1 t).1 = 0 ∧ (readReg .bfCfg t).1 = 0 ∧
      (readReg .ckCap t).1 = 0 ∧ (readReg .strLen t).1 = 0 ∧
      (readReg .cfgCapMax t).1 = BitVec.ofNat 32 p.capMax ∧ (readReg .cfgStrMax t).1 = BitVec.ofNat 32 p.strMax ∧
      (readReg .cfgBfMaxLog2 t).1 = BitVec.ofNat 32 p.bfMaxLog2)

/-- 70_reset_and_hazards.md R200 and R201: reset at any time, also inside a command, gives the reset state, and nothing of
the command takes effect; during initialisation the engine is busy, a CMD write is dropped and sets OVR, and the phase
ends with the table built and BUSY 0. The model's own choices in it: that `bits` and `slots` are empty after reset, which
R202 leaves open (log entry 9); that the table is then empty and that working changes nothing until the turn that ends the
phase stores it whole, where R201 lets the engine build it during the phase (log entry 10); that the host's program, its
reads, its collection, the schedule and the counter of free values go on (log entry 15). -/
def Obligations.ResetAbandonsTheCommandAndInitialises : Prop :=
  (∀ s : State, s.cfg.wellFormed = true → s.nextTurn = .reset →
    step s = .next { State.resetWith s.cfg with
      draws := s.draws, sched := s.sched.tail, host := s.host, reads := s.reads, gathered := s.gathered }) ∧
  (∀ s : State, s.phase = .init →
    s.busy = true ∧ (∀ w, writeReg .cmd w s = { s with ovr := true }) ∧ workTurn s = s ∧
    engineTurn s = .next { s with tab := scrambleTable s.cfg, phase := .idle })

/-! ## HashEngine and string commands -/

/-- 40_hash_engine.md R100: 2048 entries; the first is TROUNDS rounds from TSEED, each further one TROUNDS rounds from the
entry before it; zero rounds give the value back, and a round is the three steps of TSHIFT in order; a step XORs the value
with the value shifted, in its direction and by its amount. The default TSHIFT is the spec's own and not the source's (log
entry 3). -/
def Obligations.ScramblingTableRecurrence : Prop :=
  (∀ p : Config.Params,
    (scrambleTable p).length = 2048 ∧
    tabRead (scrambleTable p) 0 = scrambleRounds p 31 p.tseed ∧
    (∀ i, i + 1 < 2048 → tabRead (scrambleTable p) (i + 1) = scrambleRounds p 31 (tabRead (scrambleTable p) i)) ∧
    (∀ h, scrambleRounds p 0 h = h) ∧
    (∀ n h, scrambleRounds p (n + 1) h =
      shiftXor p.tshift3 (shiftXor p.tshift2 (shiftXor p.tshift1 (scrambleRounds p n h))))) ∧
  (∀ (n : Nat) (h : DWord), shiftXor ⟨.right, n⟩ h = (h >>> n) ^^^ h ∧ shiftXor ⟨.left, n⟩ h = (h <<< n) ^^^ h) ∧
  Config.Params.default.tshift1 = ⟨.right, 7⟩ ∧ Config.Params.default.tshift2 = ⟨.left, 11⟩ ∧
  Config.Params.default.tshift3 = ⟨.right, 10⟩

/-- 40_hash_engine.md R101: HASH of the empty string, and of a string with one more code unit: multiply and fold with the
low byte's entry, then with the high byte's. Every index is below 2048. The rule's example: HASH("A", 0) under the default
constants, which are the spec's own defaults and not the source's (log entry 3). -/
def Obligations.HashFoldsLowByteThenHighByte : Prop :=
  (∀ (p : Config.Params) (tab : List DWord) (S : List CodeUnit) (u : CodeUnit) (ch : Nat), ch < 8 →
    hashOf p tab [] ch = p.hstart ∧
    hashOf p tab (S ++ [u]) ch =
      (((hashOf p tab S ch * p.hmult) ^^^ tabRead tab (ch * 256 + (u.extractLsb' 0 8).toNat)) * p.hmult) ^^^
        tabRead tab (ch * 256 + (u.extractLsb' 8 8).toNat) ∧
    ch * 256 + (u.extractLsb' 0 8).toNat < 2048 ∧ ch * 256 + (u.extractLsb' 8 8).toNat < 2048) ∧
  hashOf Config.Params.default (scrambleTable Config.Params.default) [0x0041#16] 0 = 0xD6A14E842A204A7E#64

/-- 40_hash_engine.md R103 and R102: NOP and STR_CLEAR, their encodings and their effects: NOP changes nothing but the
status of the completion, STR_CLEAR also empties Str, so that STR_LEN reads 0. -/
def Obligations.NopAndStrClearComplete : Prop :=
  EncodedOnlyAs 0x00#8 .nop ∧ EncodedOnlyAs 0x01#8 .strClear ∧
  (∀ s : State, exec .nop s = .next { s with err := .ok, result := false, phase := .idle }) ∧
  (∀ s : State,
    exec .strClear s = .next { s with str := [], err := .ok, result := false, phase := .idle } ∧
    (readReg .strLen { s with str := [], err := .ok, result := false, phase := .idle }).1 = 0)

/-- 40_hash_engine.md R104: STR_PUSH, its encoding, its effect, and STR_FULL when the buffer holds STR_MAX units. -/
def Obligations.StrPushCompletes : Prop :=
  (∀ u : CodeUnit, decode (0x02#8 ++ 0x00#8 ++ u) = .ok (.strPush u)) ∧
  (∀ m : BitVec 24, m.extractLsb' 16 8 ≠ 0#8 → CompletesIllegal (commandWord 0x02#8 m)) ∧
  (∀ (u : CodeUnit) (s : State), s.str.length ≠ s.cfg.strMax →
    exec (.strPush u) s = .next { s with str := s.str ++ [u], err := .ok, result := false, phase := .idle }) ∧
  (∀ (u : CodeUnit) (s : State), s.str.length = s.cfg.strMax →
    exec (.strPush u) s = .next { s with err := .strFull, result := false, phase := .idle })

/-- 40_hash_engine.md R105: HE_HASH, its encoding and its effect, in every state: the hash of Str in RES1:RES0. -/
def Obligations.HeHashCompletes : Prop :=
  (∀ ch : BitVec 3, decode (0x08#8 ++ 0#21 ++ ch) = .ok (.heHash ch)) ∧
  (∀ m : BitVec 24, m.extractLsb' 3 21 ≠ 0#21 → CompletesIllegal (commandWord 0x08#8 m)) ∧
  (∀ (ch : BitVec 3) (s : State),
    exec (.heHash ch) s = .next { s with
      res0 := (hashOf s.cfg s.tab s.str ch.toNat).extractLsb' 0 32
      res1 := (hashOf s.cfg s.tab s.str ch.toNat).extractLsb' 32 32
      err := .ok, result := false, phase := .idle })

/-! ## Bloom unit -/

/-- 41_bloom.md R120: BF_CONFIG, its encoding, and its effect on the signed operands: the range error first, then
RESOURCE, then the new filter. -/
def Obligations.BfConfigCompletes : Prop :=
  EncodedOnlyAs 0x10#8 .bfConfig ∧
  (∀ s : State,
      (1 ≤ s.larg0.toInt ∧ s.larg0.toInt ≤ 31 → 1 ≤ s.larg1.toInt ∧ s.larg1.toInt ≤ 8 →
        s.larg0.toInt ≤ s.cfg.bfMaxLog2 →
        exec .bfConfig s = .next { s with
          bfReady := true, log2Bits := s.larg0.toInt.toNat, k := s.larg1.toInt.toNat, bits := []
          err := .ok, result := false, phase := .idle }) ∧
      (¬ (1 ≤ s.larg0.toInt ∧ s.larg0.toInt ≤ 31 ∧ 1 ≤ s.larg1.toInt ∧ s.larg1.toInt ≤ 8) →
        exec .bfConfig s = .next { s with err := .invalidParam, result := false, phase := .idle }) ∧
      (1 ≤ s.larg0.toInt ∧ s.larg0.toInt ≤ 31 → 1 ≤ s.larg1.toInt ∧ s.larg1.toInt ≤ 8 →
        s.cfg.bfMaxLog2 < s.larg0.toInt →
        exec .bfConfig s = .next { s with err := .resource, result := false, phase := .idle }))

/-- 41_bloom.md R122: BF_CONFIG_SIZED, its encoding and its effect. The product is the exact integer product; `L` is
the least integer at least 4 with `2^L` at least the product. -/
def Obligations.BfConfigSizedCompletes : Prop :=
  EncodedOnlyAs 0x11#8 .bfConfigSized ∧
  (∀ (s : State) (L : Nat),
      (s.larg0.toInt * s.larg1.toInt ≤ 2 ^ 31 - 1 → 1 ≤ s.larg2.toInt ∧ s.larg2.toInt ≤ 8 →
        4 ≤ L → s.larg0.toInt * s.larg1.toInt ≤ 2 ^ L →
        (∀ L', 4 ≤ L' → s.larg0.toInt * s.larg1.toInt ≤ 2 ^ L' → L ≤ L') →
        L ≤ 31 ∧
        (L ≤ s.cfg.bfMaxLog2 →
          exec .bfConfigSized s = .next { s with
            bfReady := true, log2Bits := L, k := s.larg2.toInt.toNat, bits := []
            err := .ok, result := false, phase := .idle }) ∧
        (s.cfg.bfMaxLog2 < L →
          exec .bfConfigSized s = .next { s with err := .resource, result := false, phase := .idle })) ∧
      (¬ (s.larg0.toInt * s.larg1.toInt ≤ 2 ^ 31 - 1 ∧ 1 ≤ s.larg2.toInt ∧ s.larg2.toInt ≤ 8) →
        exec .bfConfigSized s = .next { s with err := .invalidParam, result := false, phase := .idle }))

/-- 41_bloom.md R121: a configuration that completes without error makes a new filter whose every cell reads 0 and BF_CFG
show it; one that raises an error changes nothing of the unit; no other command changes log2Bits or k. -/
def Obligations.ConfigurationMakesAnEmptyFilter : Prop :=
  (∀ (i : Instr) (s t : State), i = .bfConfig ∨ i = .bfConfigSized → exec i s = .next t →
    (t.err = .ok → t.bfReady = true ∧ (∀ j, bitRead t.bits j = false) ∧ t.mask = BitVec.ofNat 64 (2 ^ t.log2Bits - 1) ∧
      t.bfCfgWord = (BitVec.ofNat 32 t.k <<< 8) ||| BitVec.ofNat 32 t.log2Bits) ∧
    (t.err ≠ .ok → t.bfReady = s.bfReady ∧ t.log2Bits = s.log2Bits ∧ t.k = s.k ∧ t.bits = s.bits ∧
      t.bfCfgWord = s.bfCfgWord)) ∧
  (∀ (i : Instr) (s t : State), i ≠ .bfConfig → i ≠ .bfConfigSized → exec i s = .next t →
    t.bfReady = s.bfReady ∧ t.log2Bits = s.log2Bits ∧ t.k = s.k)

/-- 41_bloom.md R123: the probes are the low log2Bits bits of the hash, one for each channel 0 to k-1, each in range; for
the empty string every one is the low bits of HSTART. -/
def Obligations.ProbesAreInRange : Prop :=
  ∀ s : State, s.log2Bits ≤ 31 →
    s.probes.length = s.k ∧
    ∀ n, n < s.k → s.probes[n]? = some (s.probe n) ∧
      s.probe n = (hashOf s.cfg s.tab s.str n).toNat % 2 ^ s.log2Bits ∧ s.probe n < 2 ^ s.log2Bits ∧
      (s.str = [] → s.probe n = s.cfg.hstart.toNat % 2 ^ s.log2Bits)

/-- 41_bloom.md R124: BF_ADD, its encoding; it sets exactly the probed cells: every other cell, and every other field
but the status, is as before. Adding again changes no cell. Unconfigured: NOT_CONFIGURED. -/
def Obligations.BfAddSetsTheProbes : Prop :=
  EncodedOnlyAs 0x12#8 .bfAdd ∧
  (∀ s : State,
      (s.bfReady = true → ∃ t, exec .bfAdd s = .next t ∧
        t = { s with bits := t.bits, err := .ok, result := false, phase := .idle } ∧
        (∀ j, bitRead t.bits j = (bitRead s.bits j || decide (∃ n, n < s.k ∧ s.probe n = j))) ∧
        (BitStore.wf s.bits → BitStore.wf t.bits ∧ ∀ u, exec .bfAdd t = .next u → u.bits = t.bits)) ∧
      (s.bfReady = false → exec .bfAdd s = .next { s with err := .notConfigured, result := false, phase := .idle }))

/-- 41_bloom.md R125: BF_CONTAINS, its encoding; RESULT says whether every probed cell reads 1; nothing is written.
Unconfigured: NOT_CONFIGURED. -/
def Obligations.BfContainsCompletes : Prop :=
  EncodedOnlyAs 0x13#8 .bfContains ∧
  (∀ s : State,
      (s.bfReady = true →
        exec .bfContains s = .next { s with
          err := .ok, result := decide (∀ n, n < s.k → bitRead s.bits (s.probe n) = true), phase := .idle }) ∧
      (s.bfReady = false → exec .bfContains s = .next { s with err := .notConfigured, result := false, phase := .idle }))

/-- 41_bloom.md R126: BF_READ_WORD, its encoding; bit j of RES0 is cell 32w + j, and 0 above the array; an index beyond
the words of the array is INVALID_PARAM, after the gate. -/
def Obligations.BfReadWordCompletes : Prop :=
  EncodedOnlyAs 0x14#8 .bfReadWord ∧
  (∀ s : State,
      (s.bfReady = true → s.larg0.toNat < 2 ^ (s.log2Bits - 5) →
        ∃ v : Word, exec .bfReadWord s = .next { s with res0 := v, res1 := 0, err := .ok, result := false, phase := .idle } ∧
          ∀ j, j < 32 →
            v.getLsbD j = (decide (32 * s.larg0.toNat + j < 2 ^ s.log2Bits) && bitRead s.bits (32 * s.larg0.toNat + j))) ∧
      (s.bfReady = true → 2 ^ (s.log2Bits - 5) ≤ s.larg0.toNat →
        exec .bfReadWord s = .next { s with err := .invalidParam, result := false, phase := .idle }) ∧
      (s.bfReady = false → exec .bfReadWord s = .next { s with err := .notConfigured, result := false, phase := .idle }))

/-- 10_state.md R41, Bloom monotonicity: over one step that is neither a configuration nor a reset, no cell that reads 1
becomes 0. -/
def Obligations.BloomBitsAreNeverCleared : Prop :=
  ∀ s t : State, step s = .next t → ¬ s.renewsBloom → ∀ j, bitRead s.bits j = true → bitRead t.bits j = true

/-- 41_bloom.md R127, no false negatives: after BF_ADD of a staged string completed without error, and over any run in
which no configuration completes without error and no reset is asserted, BF_CONTAINS of the same staged string answers 1. -/
def Obligations.NoFalseNegatives : Prop :=
  ∀ s t u v : State, exec .bfAdd s = .next t → t.err = .ok → RunWithout State.renewsBloom t u → u.str = s.str →
    exec .bfContains u = .next v → v.err = .ok ∧ v.result = true

/-! ## Cuckoo unit -/

/-- 42_cuckoo.md R140 to R142: the key hash under the default KHASH and its exact magnitude; the candidate slots under any
KHASH, their ranges, and the consequences R142 draws. -/
def Obligations.CandidateSlots : Prop :=
  ∀ (p : Config.Params) (c : Nat) (x y : Word), 1 ≤ c →
    h1 p c x = (keyHash p x).natAbs % c ∧ h2 p c x = (629 + (keyHash p x).natAbs) % c ∧
    h1 p c x < c ∧ h2 p c x < c ∧
    h2 p c x = (h1 p c x + 629) % c ∧
    (h1 p c x = h1 p c y → h2 p c x = h2 p c y) ∧
    (c ∣ 629 → h1 p c x = h2 p c x) ∧
    (p.khash = .sext →
      keyHash p x = x.toInt ∧ mag p 0x80000000#32 = 2 ^ 31 ∧ h1 p 10 0x41#32 = 5 ∧ h2 p 10 0x41#32 = 4)

/-- 42_cuckoo.md R144: the mode gate of every Cuckoo command but CK_INIT, before every other check of the command; an
illegal word is ILLEGAL in every mode, before the gate. -/
def Obligations.CuckooModeGate : Prop :=
  (∀ i ∈ [Instr.ckPut, .ckGet, .ckRemove, .ckSize, .ckClear, .ckCapacity, .ckReadSlot], GatedOut i) ∧
  (∀ (w : Word) (e : DecodeError), decode w = .error e → CompletesIllegal w)

/-- 42_cuckoo.md R145: CK_INIT, its encoding, and in every mode: an empty table of the given capacity, or an error that
changes nothing. No other command leaves FAILED. -/
def Obligations.CkInitCompletes : Prop :=
  EncodedOnlyAs 0x20#8 .ckInit ∧
  (∀ (i : Instr) (s t : State), exec i s = .next t → s.ckMode = .failed → t.ckMode ≠ .failed → i = .ckInit) ∧
  (∀ s : State,
      (1 ≤ s.larg0.toInt → s.larg0.toInt ≤ s.cfg.capMax →
        exec .ckInit s = .next { s with
          ckMode := .ready, capacity := s.larg0.toInt.toNat, slots := [], err := .ok, result := false, phase := .idle } ∧
        ∀ i, slotRead ([] : SlotStore) i = none) ∧
      (s.larg0.toInt ≤ 0 → exec .ckInit s = .next { s with err := .invalidParam, result := false, phase := .idle }) ∧
      (1 ≤ s.larg0.toInt → s.cfg.capMax < s.larg0.toInt →
        exec .ckInit s = .next { s with err := .resource, result := false, phase := .idle }))

/-- 42_cuckoo.md R146 and R153: CK_PUT, its encoding, its gate, and in mode READY it always completes: with the table
the worklist loop ends in, or, when a grow would pass CAP_MAX, in FAILED at the capacity of the failing attempt with
CAP_EXHAUSTED. What the slots then hold is free, so nothing is said of it. -/
def Obligations.CkPutCompletes : Prop :=
  EncodedOnlyAs 0x21#8 .ckPut ∧ GatedOut .ckPut ∧
  (∀ s : State, s.ckMode = .ready →
      (∀ c m, finishPut s.cfg s.putWork = .seated c m →
        exec .ckPut s = .next { s with capacity := c, slots := m, err := .ok, result := false, phase := .idle }) ∧
      (∀ c, finishPut s.cfg s.putWork = .exhausted c →
        ∃ t, exec .ckPut s = .next t ∧
          t = { s with ckMode := .failed, capacity := c, slots := t.slots, draws := t.draws
                       err := .capExhausted, result := false, phase := .idle } ∧
          s.cfg.capMax < 2 * c + 1) ∧
      (∃ t, exec .ckPut s = .next t))

/-- 42_cuckoo.md R146, R150: a put of a pair not yet present whose primary slot is Empty writes that one slot. -/
def Obligations.CkPutSeatsInEmptyPrimarySlot : Prop :=
  ∀ (s : State) (c : Latched), s.phase = .command c none → s.ckMode = .ready → 1 ≤ s.capacity →
    slotRead s.slots (h1 s.cfg s.capacity c.arg0) = none →
    (s.cfg.dupPrecheck = true → slotRead s.slots (h2 s.cfg s.capacity c.arg0) ≠ some ⟨c.arg0, c.arg1⟩) →
    exec .ckPut s = .next { s with
      slots := slotWrite s.slots (h1 s.cfg s.capacity c.arg0) (some ⟨c.arg0, c.arg1⟩)
      err := .ok, result := false, phase := .idle } ∧
    ∀ j, slotRead (slotWrite s.slots (h1 s.cfg s.capacity c.arg0) (some ⟨c.arg0, c.arg1⟩)) j =
      if j = h1 s.cfg s.capacity c.arg0 then some ⟨c.arg0, c.arg1⟩ else slotRead s.slots j

/-- 42_cuckoo.md R150, R151: a put whose primary slot holds another pair evicts it, and seats the evicted pair at its
alternate slot if that is Empty. The alternate slot is h2 of its key when it was evicted from h1, else h1. -/
def Obligations.CkPutDisplacesToTheAlternateSlot : Prop :=
  (∀ (p : Config.Params) (c : Nat) (x : Word) (pos : Nat),
    alt p c x pos = if pos = h1 p c x then h2 p c x else h1 p c x) ∧
  ∀ (s : State) (c : Latched) (e : Pair), s.phase = .command c none → s.ckMode = .ready → 2 ≤ s.capacity →
    slotRead s.slots (h1 s.cfg s.capacity c.arg0) = some e → e ≠ ⟨c.arg0, c.arg1⟩ →
    (s.cfg.dupPrecheck = true → slotRead s.slots (h2 s.cfg s.capacity c.arg0) ≠ some ⟨c.arg0, c.arg1⟩) →
    alt s.cfg s.capacity e.key (h1 s.cfg s.capacity c.arg0) ≠ h1 s.cfg s.capacity c.arg0 →
    slotRead s.slots (alt s.cfg s.capacity e.key (h1 s.cfg s.capacity c.arg0)) = none →
    ∃ t, exec .ckPut s = .next t ∧
      t = { s with slots := t.slots, err := .ok, result := false, phase := .idle } ∧
      ∀ j, slotRead t.slots j =
        if j = h1 s.cfg s.capacity c.arg0 then some ⟨c.arg0, c.arg1⟩
        else if j = alt s.cfg s.capacity e.key (h1 s.cfg s.capacity c.arg0) then some e
        else slotRead s.slots j

/-- 42_cuckoo.md R149: with DUP_PRECHECK, a put of a pair that one of its candidate slots holds changes nothing: no slot,
no capacity. R150 step 2: the same under either value of DUP_PRECHECK when the slot at h1, the first one probed, holds the
pair. -/
def Obligations.CkPutOfPresentPairChangesNothing : Prop :=
  ∀ (s : State) (c : Latched), s.phase = .command c none → s.ckMode = .ready →
    (s.cfg.dupPrecheck = true →
      (slotRead s.slots (h1 s.cfg s.capacity c.arg0) = some ⟨c.arg0, c.arg1⟩ ∨
        slotRead s.slots (h2 s.cfg s.capacity c.arg0) = some ⟨c.arg0, c.arg1⟩) →
      exec .ckPut s = .next { s with err := .ok, result := false, phase := .idle }) ∧
    (1 ≤ s.capacity → slotRead s.slots (h1 s.cfg s.capacity c.arg0) = some ⟨c.arg0, c.arg1⟩ →
      exec .ckPut s = .next { s with err := .ok, result := false, phase := .idle })

/-- 42_cuckoo.md R146, R149, R150, R152, R153 and R154: the run of a CK_PUT. It starts from the worklist of the one pair.
An attempt with n evictions left: none left, the item is unseated; an Empty slot seats it; an identical pair ends it with
no write; any other pair is evicted and tried at its alternate slot with one less. The worklist: an item that is PRESENT is
dropped, any other is attempted from h1 with exactly the capacity as bound. Then GROW: the model's bound on the number of
grows never ends the run; an attempt that ends unseated grows whenever the new capacity is within CAP_MAX. -/
def Obligations.WorklistLoopGrowsWithinCapMax : Prop :=
  (∀ (s : State) (c : Latched), s.phase = .command c none →
    s.putWork = { cap := s.capacity, slots := s.slots, work := [⟨c.arg0, c.arg1⟩], attempt := none }) ∧
  (∀ (p : Config.Params) (c n : Nat) (m : SlotStore) (cur : Pair) (pos : Nat),
    attempt p c 0 m cur pos = .unseated m cur ∧
    (slotRead m pos = none → attempt p c (n + 1) m cur pos = .seated (slotWrite m pos (some cur))) ∧
    (slotRead m pos = some cur → attempt p c (n + 1) m cur pos = .seated m) ∧
    (∀ e, slotRead m pos = some e → e ≠ cur →
      attempt p c (n + 1) m cur pos = attempt p c n (slotWrite m pos (some cur)) e (alt p c e.key pos))) ∧
  (∀ (p : Config.Params) (c : Nat) (m : SlotStore) (q : Pair) (rest : List Pair),
    (present p c m q = true ↔ p.dupPrecheck = true ∧
      (slotRead m (h1 p c q.key) = some q ∨ slotRead m (h2 p c q.key) = some q)) ∧
    drain p c [] m = .all m ∧
    (present p c m q = true → drain p c (q :: rest) m = drain p c rest m) ∧
    (present p c m q = false →
      (∀ m', attempt p c c m q (h1 p c q.key) = .seated m' → drain p c (q :: rest) m = drain p c rest m') ∧
      (∀ m' u, attempt p c c m q (h1 p c q.key) = .unseated m' u → drain p c (q :: rest) m = .stuck m' u rest)) ∧
    settle p { cap := c, slots := m, work := rest, attempt := none } = drain p c rest m) ∧
  (∀ (p : Config.Params) (w : PutWork),
    (∀ m, settle p w = .all m → finishPut p w = .seated w.cap m) ∧
    (∀ m u rest, settle p w = .stuck m u rest →
      (2 * w.cap + 1 > p.capMax → finishPut p w = .exhausted w.cap) ∧
      (2 * w.cap + 1 ≤ p.capMax →
        finishPut p w = finishPut p
          { cap := 2 * w.cap + 1, slots := []
            work := (m.filter (fun e => decide (e.1 < w.cap))).map (·.2) ++ [u] ++ rest, attempt := none })))

/-- 10_state.md R40, 20_memory.md R60: the hidden state of a CK_PUT is unobservable. Internal work changes no register read,
in any state. While a command is in progress a host's turn and a piece of work may come in either order, whichever way the turn ends.
However host accesses and pieces of work come before the completion, the run ends as the one without the work; without host
accesses, as the completion alone. That the hidden state is a tentative copy is DEDUCED (log entry 13); that the engine
completes where the schedule is empty is the model's choice (log entry 2). -/
def Obligations.HiddenWorkIsUnobservable : Prop :=
  (∀ (s : State) (r : Reg), (readReg r (workTurn s)).1 = (readReg r s).1) ∧
  (∀ (s : State) (c : Latched) (pw : Option PutWork), s.phase = .command c pw →
    hostTurn (workTurn s) =
      match hostTurn s with
      | .next t => .next (workTurn t)
      | .fault f => .fault f
      | .refused f => .refused f) ∧
  (∀ (s : State) (c : Latched) (pw : Option PutWork) (ts : List Turn),
    s.phase = .command c pw → (∀ x ∈ ts, x = .work ∨ x = .host) → s.sched = ts ++ [.engine] →
    Host.Core.run Sys2Proof.core (ts.length + 1) s =
      Host.Core.run Sys2Proof.core ((ts.filter (fun x => decide (x = .host))).length + 1)
        { s with sched := ts.filter (fun x => decide (x = .host)) ++ [.engine] }) ∧
  (∀ (s : State) (c : Latched) (pw : Option PutWork) (n : Nat),
    s.phase = .command c pw → s.sched = List.replicate n Turn.work →
    Host.Core.run Sys2Proof.core (n + 1) s = step { s with sched := [] })

/-- 42_cuckoo.md R146 to R152, the multimap: a CK_PUT that completes without error loses no pair, adds the one put, and
adds no other. With DUP_PRECHECK the number of pairs grows by one exactly when the pair was not present. -/
def Obligations.CkPutAddsThePairAndLosesNone : Prop :=
  ∀ s t : State, Inv s → s.ckMode = .ready → exec .ckPut s = .next t → t.err = .ok →
    (∀ q : Pair, (∃ i, slotRead t.slots i = some q) ↔ (∃ i, slotRead s.slots i = some q) ∨ q = ⟨s.larg0, s.larg1⟩) ∧
    (s.cfg.dupPrecheck = true →
      ((∃ i, slotRead s.slots i = some ⟨s.larg0, s.larg1⟩) → t.slots.length = s.slots.length) ∧
      ((∀ i, slotRead s.slots i ≠ some ⟨s.larg0, s.larg1⟩) → t.slots.length = s.slots.length + 1))

/-- 42_cuckoo.md R152 and 10_state.md R35: the capacity grows only by the growth rule and never shrinks: over every command
but CK_INIT it is the old capacity or `2^n * (c0 + 1) - 1` for some n, and a CK_PUT leaves it within CAP_MAX. -/
def Obligations.CapacityOnlyGrowsByTheGrowthRule : Prop :=
  ∀ (i : Instr) (s t : State), Inv s → i ≠ .ckInit → exec i s = .next t →
    ∃ n : Nat, t.capacity + 1 = 2 ^ n * (s.capacity + 1) ∧ (s.ckMode = .ready → t.capacity ≤ s.cfg.capMax) ∧
      (i ≠ .ckPut → n = 0)

/-- 42_cuckoo.md R155: CK_GET, its encoding, its gate, and in mode READY: the value of the slot at h1 that matches the
key, else of the one at h2, else absent with zeros. -/
def Obligations.CkGetCompletes : Prop :=
  EncodedOnlyAs 0x22#8 .ckGet ∧ GatedOut .ckGet ∧
  (∀ s : State, s.ckMode = .ready →
      (∀ v, slotRead s.slots (h1 s.cfg s.capacity s.larg0) = some ⟨s.larg0, v⟩ →
        exec .ckGet s = .next { s with res0 := v, res1 := 0, err := .ok, result := true, phase := .idle }) ∧
      (∀ v, (∀ v', slotRead s.slots (h1 s.cfg s.capacity s.larg0) ≠ some ⟨s.larg0, v'⟩) →
        slotRead s.slots (h2 s.cfg s.capacity s.larg0) = some ⟨s.larg0, v⟩ →
        exec .ckGet s = .next { s with res0 := v, res1 := 0, err := .ok, result := true, phase := .idle }) ∧
      ((∀ v', slotRead s.slots (h1 s.cfg s.capacity s.larg0) ≠ some ⟨s.larg0, v'⟩) →
        (∀ v', slotRead s.slots (h2 s.cfg s.capacity s.larg0) ≠ some ⟨s.larg0, v'⟩) →
        exec .ckGet s = .next { s with res0 := 0, res1 := 0, err := .ok, result := false, phase := .idle }))

/-- 42_cuckoo.md R162, first half: whenever the table holds a pair under the key, CK_GET answers 1 with the value of a pair
the table holds under that key. -/
def Obligations.CkGetFindsEveryHeldKey : Prop :=
  ∀ (s : State) (i : Nat) (v : Word), Inv s → s.ckMode = .ready → slotRead s.slots i = some ⟨s.larg0, v⟩ →
    ∃ t, exec .ckGet s = .next t ∧ t.result = true ∧ t.res1 = 0 ∧ ∃ j, slotRead s.slots j = some ⟨s.larg0, t.res0⟩

/-- 42_cuckoo.md R156: CK_REMOVE, its encoding, its gate, and in mode READY: it clears the one slot that holds the
exact pair, h1 first, then h2; every other slot reads as before; without a match nothing but the status changes. -/
def Obligations.CkRemoveCompletes : Prop :=
  EncodedOnlyAs 0x23#8 .ckRemove ∧ GatedOut .ckRemove ∧
  (∀ s : State, s.ckMode = .ready → SlotStore.wf s.slots →
      (∀ i, (slotRead s.slots (h1 s.cfg s.capacity s.larg0) = some ⟨s.larg0, s.larg1⟩ ∧ i = h1 s.cfg s.capacity s.larg0 ∨
          slotRead s.slots (h1 s.cfg s.capacity s.larg0) ≠ some ⟨s.larg0, s.larg1⟩ ∧
            slotRead s.slots (h2 s.cfg s.capacity s.larg0) = some ⟨s.larg0, s.larg1⟩ ∧ i = h2 s.cfg s.capacity s.larg0) →
        ∃ t, exec .ckRemove s = .next t ∧ t = { s with slots := t.slots, err := .ok, result := true, phase := .idle } ∧
          ∀ j, slotRead t.slots j = if j = i then none else slotRead s.slots j) ∧
      (slotRead s.slots (h1 s.cfg s.capacity s.larg0) ≠ some ⟨s.larg0, s.larg1⟩ →
        slotRead s.slots (h2 s.cfg s.capacity s.larg0) ≠ some ⟨s.larg0, s.larg1⟩ →
        exec .ckRemove s = .next { s with err := .ok, result := false, phase := .idle }))

/-- 42_cuckoo.md R162, second half: with DUP_PRECHECK, after a CK_REMOVE that answered 1 the table no longer holds the pair,
and a CK_GET of the key does not return its value. -/
def Obligations.RemovedPairIsGone : Prop :=
  ∀ s t : State, Inv s → s.ckMode = .ready → s.cfg.dupPrecheck = true → exec .ckRemove s = .next t → t.result = true →
    (∀ i, slotRead t.slots i ≠ some ⟨s.larg0, s.larg1⟩) ∧
    (∀ (c : Latched) (u : State), c.arg0 = s.larg0 → exec .ckGet { t with phase := .command c none } = .next u →
      ¬ (u.result = true ∧ u.res0 = s.larg1))

/-- 42_cuckoo.md R157, R159, R160: the read-outs, their encodings, their gates, and in mode READY: CK_SIZE: RES0 is the
number of Occupied slots below the capacity. CK_CAPACITY: RES0 is the capacity, which CK_CAP then reads too.
CK_READ_SLOT at an unsigned index: the pair, or zeros with RESULT 0 for an Empty slot, and INVALID_PARAM at or beyond
the capacity. -/
def Obligations.CkReadOutsComplete : Prop :=
  EncodedOnlyAs 0x24#8 .ckSize ∧ EncodedOnlyAs 0x26#8 .ckCapacity ∧ EncodedOnlyAs 0x27#8 .ckReadSlot ∧
  GatedOut .ckSize ∧ GatedOut .ckCapacity ∧ GatedOut .ckReadSlot ∧
  (∀ s : State, s.ckMode = .ready →
      (SlotStore.wf s.slots →
        exec .ckSize s = .next { s with
          res0 := BitVec.ofNat 32 ((List.range s.capacity).filter (fun i => (slotRead s.slots i).isSome)).length
          res1 := 0, err := .ok, result := false, phase := .idle }) ∧
      exec .ckCapacity s = .next { s with
        res0 := BitVec.ofNat 32 s.capacity, res1 := 0, err := .ok, result := false, phase := .idle } ∧
      (readReg .ckCap { s with res0 := BitVec.ofNat 32 s.capacity, res1 := 0, err := .ok, result := false, phase := .idle }).1 =
        BitVec.ofNat 32 s.capacity ∧
      (s.capacity ≤ s.larg0.toNat →
        exec .ckReadSlot s = .next { s with err := .invalidParam, result := false, phase := .idle }) ∧
      (s.larg0.toNat < s.capacity → ∀ q, slotRead s.slots s.larg0.toNat = some q →
        exec .ckReadSlot s = .next { s with res0 := q.key, res1 := q.value, err := .ok, result := true, phase := .idle }) ∧
      (s.larg0.toNat < s.capacity → slotRead s.slots s.larg0.toNat = none →
        exec .ckReadSlot s = .next { s with res0 := 0, res1 := 0, err := .ok, result := false, phase := .idle }))

/-- 42_cuckoo.md R158: CK_CLEAR, its encoding, its gate, and in mode READY: every slot Empty, the capacity unchanged; a
CK_SIZE then gives 0. -/
def Obligations.CkClearCompletes : Prop :=
  EncodedOnlyAs 0x25#8 .ckClear ∧ GatedOut .ckClear ∧
  (∀ s : State, s.ckMode = .ready →
      ∃ t, exec .ckClear s = .next t ∧ t = { s with slots := t.slots, err := .ok, result := false, phase := .idle } ∧
        (∀ i, slotRead t.slots i = none) ∧ t.capacity = s.capacity ∧
        ∀ u, exec .ckSize t = .next u → u.res0 = 0)

/-- 41_bloom.md R128 and the frame of every command on every path, errors too. No Bloom command changes the Cuckoo unit or
Str, no Cuckoo or string command changes the Bloom unit, and no command changes the table, OVR, ARG0 to ARG2 or the
parameters. Each command changes only the fields named for it and the status of the completion. Nor is the other unit
read: a command that is no Bloom command runs alike whatever the Bloom unit holds, and one that is no Cuckoo command runs
alike whatever the Cuckoo unit holds. -/
def Obligations.UnitsAreIndependent : Prop :=
  ∀ (i : Instr) (s t : State), exec i s = .next t →
    (i = .nop ∨ i = .bfContains → t = { s with result := t.result, err := t.err, phase := .idle }) ∧
    (i = .strClear ∨ (∃ u, i = .strPush u) →
      t = { s with str := t.str, result := t.result, err := t.err, phase := .idle }) ∧
    ((∃ ch, i = .heHash ch) ∨ i = .bfReadWord ∨ i = .ckGet ∨ i = .ckSize ∨ i = .ckCapacity ∨ i = .ckReadSlot →
      t = { s with res0 := t.res0, res1 := t.res1, result := t.result, err := t.err, phase := .idle }) ∧
    (i = .bfConfig ∨ i = .bfConfigSized →
      t = { s with bfReady := t.bfReady, log2Bits := t.log2Bits, k := t.k, bits := t.bits
                   result := t.result, err := t.err, phase := .idle }) ∧
    (i = .bfAdd → t = { s with bits := t.bits, result := t.result, err := t.err, phase := .idle }) ∧
    (i = .ckInit →
      t = { s with ckMode := t.ckMode, capacity := t.capacity, slots := t.slots
                   result := t.result, err := t.err, phase := .idle }) ∧
    (i = .ckPut →
      t = { s with ckMode := t.ckMode, capacity := t.capacity, slots := t.slots, draws := t.draws
                   result := t.result, err := t.err, phase := .idle }) ∧
    (i = .ckRemove ∨ i = .ckClear → t = { s with slots := t.slots, result := t.result, err := t.err, phase := .idle }) ∧
    (i ∉ [Instr.bfConfig, .bfConfigSized, .bfAdd, .bfContains, .bfReadWord] →
      ∀ (ready : Bool) (l k : Nat) (m : BitStore),
        exec i { s with bfReady := ready, log2Bits := l, k := k, bits := m } =
          .next { t with bfReady := ready, log2Bits := l, k := k, bits := m }) ∧
    (i ∉ [Instr.ckInit, .ckPut, .ckGet, .ckRemove, .ckSize, .ckClear, .ckCapacity, .ckReadSlot] →
      ∀ (mode : CkMode) (c : Nat) (m : SlotStore),
        exec i { s with ckMode := mode, capacity := c, slots := m } =
          .next { t with ckMode := mode, capacity := c, slots := m })

/-- 70_reset_and_hazards.md R202 with 10_state.md R35 and 42_cuckoo.md R144, R145: what the slots of a unit that is not READY
hold reaches nothing: two states that differ only there run every command alike, and CK_INIT forgets the difference.
10_state.md R34 with 41_bloom.md R121: the same of the bits of a Bloom unit that is not configured, and a configuration
forgets the difference. -/
def Obligations.SlotsOutsideReadyAreUnobservable : Prop :=
  ∀ (i : Instr) (s t : State), exec i s = .next t →
    (∀ m : SlotStore, s.ckMode ≠ .ready →
      exec i { s with slots := m } = .next { t with slots := if t.ckMode = .ready then t.slots else m } ∧
      ∀ r : Reg, (readReg r { s with slots := m }).1 = (readReg r s).1) ∧
    (∀ b : BitStore, s.bfReady = false →
      exec i { s with bits := b } = .next { t with bits := if t.bfReady = true then t.bits else b } ∧
      ∀ r : Reg, (readReg r { s with bits := b }).1 = (readReg r s).1)

/-! ## Errors and whole-machine rules -/

/-- 60_exceptions.md R181: an illegal word completes with ILLEGAL and no other effect; a command that completes with an
error other than CAP_EXHAUSTED has exactly the effects of `raise`; CAP_EXHAUSTED, which only CK_PUT gives, also puts the
Cuckoo unit in FAILED and leaves its slots unspecified. -/
def Obligations.ErrorsHaveNoOtherEffect : Prop :=
  (∀ (w : Word) (e : DecodeError), decode w = .error e → CompletesIllegal w) ∧
  (∀ (i : Instr) (s t : State), exec i s = .next t →
    (t.err ≠ .ok → t.err ≠ .capExhausted → t = { s with err := t.err, result := false, phase := .idle }) ∧
    (t.err = .capExhausted → i = .ckPut ∧
      t = { s with err := .capExhausted, result := false, phase := .idle
                   ckMode := .failed, capacity := t.capacity, slots := t.slots, draws := t.draws }))

/-- 10_state.md R28 and R37: which commands write RES0 or RES1, and which may leave RESULT 1; a command that ends in an
error does neither. -/
def Obligations.ResultsAreWrittenByTheNamedCommands : Prop :=
  ∀ (i : Instr) (s t : State), exec i s = .next t →
    (t.res0 ≠ s.res0 ∨ t.res1 ≠ s.res1 →
      t.err = .ok ∧ ((∃ ch, i = .heHash ch) ∨ i = .bfReadWord ∨ i = .ckGet ∨ i = .ckSize ∨ i = .ckCapacity ∨
        i = .ckReadSlot)) ∧
    (t.result = true →
      t.err = .ok ∧ (i = .bfContains ∨ i = .ckGet ∨ i = .ckRemove ∨ i = .ckReadSlot))

/-- 60_exceptions.md R186 with 42_cuckoo.md R153: in FAILED every Cuckoo command but CK_INIT answers UNIT_FAILED; CK_INIT
gives READY with an empty table or, on an error, leaves FAILED; in one step only that and reset leave FAILED, and only a
CK_PUT that completes with CAP_EXHAUSTED enters it. The commands of the other units run alike in every mode. -/
def Obligations.FailedIsEnteredAndLeftAsStated : Prop :=
  (∀ (i : Instr) (s : State), s.ckMode = .failed →
    i ∈ [Instr.ckPut, .ckGet, .ckRemove, .ckSize, .ckClear, .ckCapacity, .ckReadSlot] →
    exec i s = .next { s with err := .unitFailed, result := false, phase := .idle }) ∧
  (∀ s t : State, s.ckMode = .failed → exec .ckInit s = .next t →
    (t.err = .ok → t.ckMode = .ready ∧ ∀ i, slotRead t.slots i = none) ∧ (t.err ≠ .ok → t.ckMode = .failed)) ∧
  (∀ s : State, (resetTurn s).ckMode = .uninit) ∧
  (∀ (i : Instr) (s t : State) (m : CkMode),
    i ∈ [Instr.nop, .strClear, .bfConfig, .bfConfigSized, .bfAdd, .bfContains, .bfReadWord] ∨
      (∃ u, i = .strPush u) ∨ (∃ ch, i = .heHash ch) →
    exec i s = .next t → exec i { s with ckMode := m } = .next { t with ckMode := m }) ∧
  (∀ s t : State, step s = .next t → s.ckMode = .failed →
    t.ckMode = .failed ∨
    s.completing = some .ckInit ∧ t.ckMode = .ready ∧ t.err = .ok ∧ (∀ i, slotRead t.slots i = none) ∨
    s.nextTurn = .reset ∧ t.ckMode = .uninit) ∧
  (∀ s t : State, step s = .next t → s.ckMode ≠ .failed → t.ckMode = .failed →
    s.completing = some .ckPut ∧ s.ckMode = .ready ∧ t.err = .capExhausted ∧ s.cfg.capMax < 2 * t.capacity + 1)

/-- The machine just after reset, with any parameters of this hardware, meets the invariant. That `bits` and `slots` are
then empty is the model's choice (log entry 9). -/
def Obligations.ResetMeetsTheInvariant : Prop :=
  Inv State.reset ∧ ∀ p : Config.Params, p.wellFormed = true → Inv (State.resetWith p)

/-- 10_state.md R41 with R31, R34, R35, R36: every step from a state that meets the invariant leads to one that does: the
stores stay canonical and in range, every pair is at a candidate slot, no two slots hold identical pairs under
DUP_PRECHECK, the staged string fits, and the table is the constant of R100. -/
def Obligations.StepKeepsTheInvariant : Prop :=
  ∀ s t : State, Inv s → step s = .next t → Inv t

/-- 42_cuckoo.md R175: KEYS and VALUES, run from an idle READY engine with nothing scheduled (the default turns are the
model's, log entry 2), end with the keys of the table as a set, each once, or with its values in slot order, and leave the
table as it was. That they end in the field gathered, and the order of the keys there, first met first, are the model's
choices (log entry 16). -/
def Obligations.TraversalCollectsTheTable : Prop :=
  ∀ (s : State) (what : Collect), Inv s → s.phase = .idle → s.ckMode = .ready → s.sched = [] →
    s.host = hostTraverse s.cfg.engineBase what →
    ∃ (n : Nat) (t : State), Host.Core.run Sys2Proof.core n s = .next t ∧ t.runOver = true ∧
      (what = .keys →
        (∀ x, x ∈ t.gathered ↔ ∃ i q, i < s.capacity ∧ slotRead s.slots i = some q ∧ q.key = x) ∧ t.gathered.Nodup) ∧
      (what = .values →
        t.gathered = (List.range s.capacity).filterMap (fun i => (slotRead s.slots i).map (·.value))) ∧
      t.gathered = traversal what s.capacity s.slots ∧ t.slots = s.slots ∧ t.capacity = s.capacity

/-- 70_reset_and_hazards.md R210 with 20_memory.md R61 (95_test_vectors.md P4): two CMD writes in a row. If the engine has
not completed the first, the second is dropped and sets OVR; if it has, the second is accepted. Schedules of the model
(log entry 2) give both. -/
def Obligations.SecondCommandIsDroppedOrAccepted : Prop :=
  ∀ (s : State) (w1 w2 : Word), s.cfg.wellFormed = true → s.phase = .idle →
    s.host = [hostWr s.cfg.engineBase .cmd w1, hostWr s.cfg.engineBase .cmd w2] →
    (s.sched = [.host, .host] → ∃ t, Host.Core.run Sys2Proof.core 2 s = .next t ∧
      t.ovr = true ∧ t.latched = ⟨w1, s.arg0, s.arg1, s.arg2⟩ ∧ t.host = []) ∧
    (s.sched = [.host, .engine, .host] → ∃ t, Host.Core.run Sys2Proof.core 3 s = .next t ∧
      t.ovr = s.ovr ∧ t.latched = ⟨w2, s.arg0, s.arg1, s.arg2⟩ ∧ t.host = [])
end

