-- ==== Sys2Proof/Laws/State.lean ====
section
/-! SUPPORT. What each named update of the state does to each field. -/

namespace Sys2Proof.Machine

variable (s : State)

@[simp] theorem State.complete_cfg (e : Err) (r : Bool) : (s.complete e r).cfg = s.cfg := rfl
@[simp] theorem State.complete_arg0 (e : Err) (r : Bool) : (s.complete e r).arg0 = s.arg0 := rfl
@[simp] theorem State.complete_arg1 (e : Err) (r : Bool) : (s.complete e r).arg1 = s.arg1 := rfl
@[simp] theorem State.complete_arg2 (e : Err) (r : Bool) : (s.complete e r).arg2 = s.arg2 := rfl
@[simp] theorem State.complete_res0 (e : Err) (r : Bool) : (s.complete e r).res0 = s.res0 := rfl
@[simp] theorem State.complete_res1 (e : Err) (r : Bool) : (s.complete e r).res1 = s.res1 := rfl
@[simp] theorem State.complete_result (e : Err) (r : Bool) : (s.complete e r).result = r := rfl
@[simp] theorem State.complete_ovr (e : Err) (r : Bool) : (s.complete e r).ovr = s.ovr := rfl
@[simp] theorem State.complete_err (e : Err) (r : Bool) : (s.complete e r).err = e := rfl
@[simp] theorem State.complete_phase (e : Err) (r : Bool) : (s.complete e r).phase = .idle := rfl
@[simp] theorem State.complete_tab (e : Err) (r : Bool) : (s.complete e r).tab = s.tab := rfl
@[simp] theorem State.complete_str (e : Err) (r : Bool) : (s.complete e r).str = s.str := rfl
@[simp] theorem State.complete_bfReady (e : Err) (r : Bool) : (s.complete e r).bfReady = s.bfReady := rfl
@[simp] theorem State.complete_log2Bits (e : Err) (r : Bool) : (s.complete e r).log2Bits = s.log2Bits := rfl
@[simp] theorem State.complete_k (e : Err) (r : Bool) : (s.complete e r).k = s.k := rfl
@[simp] theorem State.complete_bits (e : Err) (r : Bool) : (s.complete e r).bits = s.bits := rfl
@[simp] theorem State.complete_ckMode (e : Err) (r : Bool) : (s.complete e r).ckMode = s.ckMode := rfl
@[simp] theorem State.complete_capacity (e : Err) (r : Bool) : (s.complete e r).capacity = s.capacity := rfl
@[simp] theorem State.complete_slots (e : Err) (r : Bool) : (s.complete e r).slots = s.slots := rfl
@[simp] theorem State.complete_draws (e : Err) (r : Bool) : (s.complete e r).draws = s.draws := rfl
@[simp] theorem State.complete_sched (e : Err) (r : Bool) : (s.complete e r).sched = s.sched := rfl
@[simp] theorem State.complete_host (e : Err) (r : Bool) : (s.complete e r).host = s.host := rfl
@[simp] theorem State.complete_reads (e : Err) (r : Bool) : (s.complete e r).reads = s.reads := rfl
@[simp] theorem State.complete_gathered (e : Err) (r : Bool) : (s.complete e r).gathered = s.gathered := rfl

@[simp] theorem State.setRes_cfg (a b : Word) : (s.setRes a b).cfg = s.cfg := rfl
@[simp] theorem State.setRes_arg0 (a b : Word) : (s.setRes a b).arg0 = s.arg0 := rfl
@[simp] theorem State.setRes_arg1 (a b : Word) : (s.setRes a b).arg1 = s.arg1 := rfl
@[simp] theorem State.setRes_arg2 (a b : Word) : (s.setRes a b).arg2 = s.arg2 := rfl
@[simp] theorem State.setRes_res0 (a b : Word) : (s.setRes a b).res0 = a := rfl
@[simp] theorem State.setRes_res1 (a b : Word) : (s.setRes a b).res1 = b := rfl
@[simp] theorem State.setRes_result (a b : Word) : (s.setRes a b).result = s.result := rfl
@[simp] theorem State.setRes_ovr (a b : Word) : (s.setRes a b).ovr = s.ovr := rfl
@[simp] theorem State.setRes_err (a b : Word) : (s.setRes a b).err = s.err := rfl
@[simp] theorem State.setRes_phase (a b : Word) : (s.setRes a b).phase = s.phase := rfl
@[simp] theorem State.setRes_tab (a b : Word) : (s.setRes a b).tab = s.tab := rfl
@[simp] theorem State.setRes_str (a b : Word) : (s.setRes a b).str = s.str := rfl
@[simp] theorem State.setRes_bfReady (a b : Word) : (s.setRes a b).bfReady = s.bfReady := rfl
@[simp] theorem State.setRes_log2Bits (a b : Word) : (s.setRes a b).log2Bits = s.log2Bits := rfl
@[simp] theorem State.setRes_k (a b : Word) : (s.setRes a b).k = s.k := rfl
@[simp] theorem State.setRes_bits (a b : Word) : (s.setRes a b).bits = s.bits := rfl
@[simp] theorem State.setRes_ckMode (a b : Word) : (s.setRes a b).ckMode = s.ckMode := rfl
@[simp] theorem State.setRes_capacity (a b : Word) : (s.setRes a b).capacity = s.capacity := rfl
@[simp] theorem State.setRes_slots (a b : Word) : (s.setRes a b).slots = s.slots := rfl
@[simp] theorem State.setRes_draws (a b : Word) : (s.setRes a b).draws = s.draws := rfl
@[simp] theorem State.setRes_sched (a b : Word) : (s.setRes a b).sched = s.sched := rfl
@[simp] theorem State.setRes_host (a b : Word) : (s.setRes a b).host = s.host := rfl
@[simp] theorem State.setRes_reads (a b : Word) : (s.setRes a b).reads = s.reads := rfl
@[simp] theorem State.setRes_gathered (a b : Word) : (s.setRes a b).gathered = s.gathered := rfl

@[simp] theorem State.drawn_cfg : (s.drawn).cfg = s.cfg := rfl
@[simp] theorem State.drawn_arg0 : (s.drawn).arg0 = s.arg0 := rfl
@[simp] theorem State.drawn_arg1 : (s.drawn).arg1 = s.arg1 := rfl
@[simp] theorem State.drawn_arg2 : (s.drawn).arg2 = s.arg2 := rfl
@[simp] theorem State.drawn_res0 : (s.drawn).res0 = s.res0 := rfl
@[simp] theorem State.drawn_res1 : (s.drawn).res1 = s.res1 := rfl
@[simp] theorem State.drawn_result : (s.drawn).result = s.result := rfl
@[simp] theorem State.drawn_ovr : (s.drawn).ovr = s.ovr := rfl
@[simp] theorem State.drawn_err : (s.drawn).err = s.err := rfl
@[simp] theorem State.drawn_phase : (s.drawn).phase = s.phase := rfl
@[simp] theorem State.drawn_tab : (s.drawn).tab = s.tab := rfl
@[simp] theorem State.drawn_str : (s.drawn).str = s.str := rfl
@[simp] theorem State.drawn_bfReady : (s.drawn).bfReady = s.bfReady := rfl
@[simp] theorem State.drawn_log2Bits : (s.drawn).log2Bits = s.log2Bits := rfl
@[simp] theorem State.drawn_k : (s.drawn).k = s.k := rfl
@[simp] theorem State.drawn_bits : (s.drawn).bits = s.bits := rfl
@[simp] theorem State.drawn_ckMode : (s.drawn).ckMode = s.ckMode := rfl
@[simp] theorem State.drawn_capacity : (s.drawn).capacity = s.capacity := rfl
@[simp] theorem State.drawn_slots : (s.drawn).slots = s.slots := rfl
@[simp] theorem State.drawn_draws : (s.drawn).draws = s.draws + 1 := rfl
@[simp] theorem State.drawn_sched : (s.drawn).sched = s.sched := rfl
@[simp] theorem State.drawn_host : (s.drawn).host = s.host := rfl
@[simp] theorem State.drawn_reads : (s.drawn).reads = s.reads := rfl
@[simp] theorem State.drawn_gathered : (s.drawn).gathered = s.gathered := rfl

@[simp] theorem State.accept_cfg (w : Word) : (s.accept w).cfg = s.cfg := rfl
@[simp] theorem State.accept_arg0 (w : Word) : (s.accept w).arg0 = s.arg0 := rfl
@[simp] theorem State.accept_arg1 (w : Word) : (s.accept w).arg1 = s.arg1 := rfl
@[simp] theorem State.accept_arg2 (w : Word) : (s.accept w).arg2 = s.arg2 := rfl
@[simp] theorem State.accept_res0 (w : Word) : (s.accept w).res0 = s.res0 := rfl
@[simp] theorem State.accept_res1 (w : Word) : (s.accept w).res1 = s.res1 := rfl
@[simp] theorem State.accept_result (w : Word) : (s.accept w).result = false := rfl
@[simp] theorem State.accept_ovr (w : Word) : (s.accept w).ovr = s.ovr := rfl
@[simp] theorem State.accept_err (w : Word) : (s.accept w).err = .ok := rfl
@[simp] theorem State.accept_phase (w : Word) : (s.accept w).phase = .command ⟨w, s.arg0, s.arg1, s.arg2⟩ none := rfl
@[simp] theorem State.accept_tab (w : Word) : (s.accept w).tab = s.tab := rfl
@[simp] theorem State.accept_str (w : Word) : (s.accept w).str = s.str := rfl
@[simp] theorem State.accept_bfReady (w : Word) : (s.accept w).bfReady = s.bfReady := rfl
@[simp] theorem State.accept_log2Bits (w : Word) : (s.accept w).log2Bits = s.log2Bits := rfl
@[simp] theorem State.accept_k (w : Word) : (s.accept w).k = s.k := rfl
@[simp] theorem State.accept_bits (w : Word) : (s.accept w).bits = s.bits := rfl
@[simp] theorem State.accept_ckMode (w : Word) : (s.accept w).ckMode = s.ckMode := rfl
@[simp] theorem State.accept_capacity (w : Word) : (s.accept w).capacity = s.capacity := rfl
@[simp] theorem State.accept_slots (w : Word) : (s.accept w).slots = s.slots := rfl
@[simp] theorem State.accept_draws (w : Word) : (s.accept w).draws = s.draws := rfl
@[simp] theorem State.accept_sched (w : Word) : (s.accept w).sched = s.sched := rfl
@[simp] theorem State.accept_host (w : Word) : (s.accept w).host = s.host := rfl
@[simp] theorem State.accept_reads (w : Word) : (s.accept w).reads = s.reads := rfl
@[simp] theorem State.accept_gathered (w : Word) : (s.accept w).gathered = s.gathered := rfl

@[simp] theorem State.configure_cfg (L K : Nat) : (s.configure L K).cfg = s.cfg := rfl
@[simp] theorem State.configure_arg0 (L K : Nat) : (s.configure L K).arg0 = s.arg0 := rfl
@[simp] theorem State.configure_arg1 (L K : Nat) : (s.configure L K).arg1 = s.arg1 := rfl
@[simp] theorem State.configure_arg2 (L K : Nat) : (s.configure L K).arg2 = s.arg2 := rfl
@[simp] theorem State.configure_res0 (L K : Nat) : (s.configure L K).res0 = s.res0 := rfl
@[simp] theorem State.configure_res1 (L K : Nat) : (s.configure L K).res1 = s.res1 := rfl
@[simp] theorem State.configure_result (L K : Nat) : (s.configure L K).result = s.result := rfl
@[simp] theorem State.configure_ovr (L K : Nat) : (s.configure L K).ovr = s.ovr := rfl
@[simp] theorem State.configure_err (L K : Nat) : (s.configure L K).err = s.err := rfl
@[simp] theorem State.configure_phase (L K : Nat) : (s.configure L K).phase = s.phase := rfl
@[simp] theorem State.configure_tab (L K : Nat) : (s.configure L K).tab = s.tab := rfl
@[simp] theorem State.configure_str (L K : Nat) : (s.configure L K).str = s.str := rfl
@[simp] theorem State.configure_bfReady (L K : Nat) : (s.configure L K).bfReady = true := rfl
@[simp] theorem State.configure_log2Bits (L K : Nat) : (s.configure L K).log2Bits = L := rfl
@[simp] theorem State.configure_k (L K : Nat) : (s.configure L K).k = K := rfl
@[simp] theorem State.configure_bits (L K : Nat) : (s.configure L K).bits = [] := rfl
@[simp] theorem State.configure_ckMode (L K : Nat) : (s.configure L K).ckMode = s.ckMode := rfl
@[simp] theorem State.configure_capacity (L K : Nat) : (s.configure L K).capacity = s.capacity := rfl
@[simp] theorem State.configure_slots (L K : Nat) : (s.configure L K).slots = s.slots := rfl
@[simp] theorem State.configure_draws (L K : Nat) : (s.configure L K).draws = s.draws := rfl
@[simp] theorem State.configure_sched (L K : Nat) : (s.configure L K).sched = s.sched := rfl
@[simp] theorem State.configure_host (L K : Nat) : (s.configure L K).host = s.host := rfl
@[simp] theorem State.configure_reads (L K : Nat) : (s.configure L K).reads = s.reads := rfl
@[simp] theorem State.configure_gathered (L K : Nat) : (s.configure L K).gathered = s.gathered := rfl

@[simp] theorem State.endInit_cfg : (s.endInit).cfg = s.cfg := rfl
@[simp] theorem State.endInit_arg0 : (s.endInit).arg0 = s.arg0 := rfl
@[simp] theorem State.endInit_arg1 : (s.endInit).arg1 = s.arg1 := rfl
@[simp] theorem State.endInit_arg2 : (s.endInit).arg2 = s.arg2 := rfl
@[simp] theorem State.endInit_res0 : (s.endInit).res0 = s.res0 := rfl
@[simp] theorem State.endInit_res1 : (s.endInit).res1 = s.res1 := rfl
@[simp] theorem State.endInit_result : (s.endInit).result = s.result := rfl
@[simp] theorem State.endInit_ovr : (s.endInit).ovr = s.ovr := rfl
@[simp] theorem State.endInit_err : (s.endInit).err = s.err := rfl
@[simp] theorem State.endInit_phase : (s.endInit).phase = .idle := rfl
@[simp] theorem State.endInit_tab : (s.endInit).tab = scrambleTable s.cfg := rfl
@[simp] theorem State.endInit_str : (s.endInit).str = s.str := rfl
@[simp] theorem State.endInit_bfReady : (s.endInit).bfReady = s.bfReady := rfl
@[simp] theorem State.endInit_log2Bits : (s.endInit).log2Bits = s.log2Bits := rfl
@[simp] theorem State.endInit_k : (s.endInit).k = s.k := rfl
@[simp] theorem State.endInit_bits : (s.endInit).bits = s.bits := rfl
@[simp] theorem State.endInit_ckMode : (s.endInit).ckMode = s.ckMode := rfl
@[simp] theorem State.endInit_capacity : (s.endInit).capacity = s.capacity := rfl
@[simp] theorem State.endInit_slots : (s.endInit).slots = s.slots := rfl
@[simp] theorem State.endInit_draws : (s.endInit).draws = s.draws := rfl
@[simp] theorem State.endInit_sched : (s.endInit).sched = s.sched := rfl
@[simp] theorem State.endInit_host : (s.endInit).host = s.host := rfl
@[simp] theorem State.endInit_reads : (s.endInit).reads = s.reads := rfl
@[simp] theorem State.endInit_gathered : (s.endInit).gathered = s.gathered := rfl

@[simp] theorem State.setHost_cfg (rest : List HostStmt) : (s.setHost rest).cfg = s.cfg := rfl
@[simp] theorem State.setHost_arg0 (rest : List HostStmt) : (s.setHost rest).arg0 = s.arg0 := rfl
@[simp] theorem State.setHost_arg1 (rest : List HostStmt) : (s.setHost rest).arg1 = s.arg1 := rfl
@[simp] theorem State.setHost_arg2 (rest : List HostStmt) : (s.setHost rest).arg2 = s.arg2 := rfl
@[simp] theorem State.setHost_res0 (rest : List HostStmt) : (s.setHost rest).res0 = s.res0 := rfl
@[simp] theorem State.setHost_res1 (rest : List HostStmt) : (s.setHost rest).res1 = s.res1 := rfl
@[simp] theorem State.setHost_result (rest : List HostStmt) : (s.setHost rest).result = s.result := rfl
@[simp] theorem State.setHost_ovr (rest : List HostStmt) : (s.setHost rest).ovr = s.ovr := rfl
@[simp] theorem State.setHost_err (rest : List HostStmt) : (s.setHost rest).err = s.err := rfl
@[simp] theorem State.setHost_phase (rest : List HostStmt) : (s.setHost rest).phase = s.phase := rfl
@[simp] theorem State.setHost_tab (rest : List HostStmt) : (s.setHost rest).tab = s.tab := rfl
@[simp] theorem State.setHost_str (rest : List HostStmt) : (s.setHost rest).str = s.str := rfl
@[simp] theorem State.setHost_bfReady (rest : List HostStmt) : (s.setHost rest).bfReady = s.bfReady := rfl
@[simp] theorem State.setHost_log2Bits (rest : List HostStmt) : (s.setHost rest).log2Bits = s.log2Bits := rfl
@[simp] theorem State.setHost_k (rest : List HostStmt) : (s.setHost rest).k = s.k := rfl
@[simp] theorem State.setHost_bits (rest : List HostStmt) : (s.setHost rest).bits = s.bits := rfl
@[simp] theorem State.setHost_ckMode (rest : List HostStmt) : (s.setHost rest).ckMode = s.ckMode := rfl
@[simp] theorem State.setHost_capacity (rest : List HostStmt) : (s.setHost rest).capacity = s.capacity := rfl
@[simp] theorem State.setHost_slots (rest : List HostStmt) : (s.setHost rest).slots = s.slots := rfl
@[simp] theorem State.setHost_draws (rest : List HostStmt) : (s.setHost rest).draws = s.draws := rfl
@[simp] theorem State.setHost_sched (rest : List HostStmt) : (s.setHost rest).sched = s.sched := rfl
@[simp] theorem State.setHost_host (rest : List HostStmt) : (s.setHost rest).host = rest := rfl
@[simp] theorem State.setHost_reads (rest : List HostStmt) : (s.setHost rest).reads = s.reads := rfl
@[simp] theorem State.setHost_gathered (rest : List HostStmt) : (s.setHost rest).gathered = s.gathered := rfl

@[simp] theorem State.popTurn_cfg : (s.popTurn).cfg = s.cfg := rfl
@[simp] theorem State.popTurn_arg0 : (s.popTurn).arg0 = s.arg0 := rfl
@[simp] theorem State.popTurn_arg1 : (s.popTurn).arg1 = s.arg1 := rfl
@[simp] theorem State.popTurn_arg2 : (s.popTurn).arg2 = s.arg2 := rfl
@[simp] theorem State.popTurn_res0 : (s.popTurn).res0 = s.res0 := rfl
@[simp] theorem State.popTurn_res1 : (s.popTurn).res1 = s.res1 := rfl
@[simp] theorem State.popTurn_result : (s.popTurn).result = s.result := rfl
@[simp] theorem State.popTurn_ovr : (s.popTurn).ovr = s.ovr := rfl
@[simp] theorem State.popTurn_err : (s.popTurn).err = s.err := rfl
@[simp] theorem State.popTurn_phase : (s.popTurn).phase = s.phase := rfl
@[simp] theorem State.popTurn_tab : (s.popTurn).tab = s.tab := rfl
@[simp] theorem State.popTurn_str : (s.popTurn).str = s.str := rfl
@[simp] theorem State.popTurn_bfReady : (s.popTurn).bfReady = s.bfReady := rfl
@[simp] theorem State.popTurn_log2Bits : (s.popTurn).log2Bits = s.log2Bits := rfl
@[simp] theorem State.popTurn_k : (s.popTurn).k = s.k := rfl
@[simp] theorem State.popTurn_bits : (s.popTurn).bits = s.bits := rfl
@[simp] theorem State.popTurn_ckMode : (s.popTurn).ckMode = s.ckMode := rfl
@[simp] theorem State.popTurn_capacity : (s.popTurn).capacity = s.capacity := rfl
@[simp] theorem State.popTurn_slots : (s.popTurn).slots = s.slots := rfl
@[simp] theorem State.popTurn_draws : (s.popTurn).draws = s.draws := rfl
@[simp] theorem State.popTurn_sched : (s.popTurn).sched = s.sched.tail := rfl
@[simp] theorem State.popTurn_host : (s.popTurn).host = s.host := rfl
@[simp] theorem State.popTurn_reads : (s.popTurn).reads = s.reads := rfl
@[simp] theorem State.popTurn_gathered : (s.popTurn).gathered = s.gathered := rfl

end Sys2Proof.Machine
end

