-- ==== Sys2Proof/Laws/Stores.lean ====
section
/-! SUPPORT. The internal stores: what a read gives after a write, and that every operation keeps the canonical form. -/

namespace Sys2Proof.Machine

/-! ## The bit array -/

theorem bitRead_eq_true {b : BitStore} {i : Nat} : bitRead b i = true ↔ i ∈ b := by simp [bitRead]

@[simp] theorem bitRead_nil (i : Nat) : bitRead [] i = false := by simp [bitRead]

theorem mem_bitSet {b : BitStore} {i j : Nat} : j ∈ bitSet b i ↔ j = i ∨ j ∈ b := by
  induction b with
  | nil => simp [bitSet]
  | cons a t ih =>
    simp only [bitSet]
    split
    · simp
    · split
      · subst_vars; simp
      · simp [ih]; tauto

/-- BitSet writes one cell and leaves every other as it was (20_memory.md R55). -/
theorem bitRead_bitSet (b : BitStore) (i j : Nat) : bitRead (bitSet b i) j = (decide (j = i) || bitRead b j) := by
  simp [bitRead, mem_bitSet]

theorem mem_foldl_bitSet {l : List Nat} {b : BitStore} {j : Nat} : j ∈ l.foldl bitSet b ↔ j ∈ b ∨ j ∈ l := by
  induction l generalizing b with
  | nil => simp
  | cons a t ih => simp [ih, mem_bitSet]; tauto

theorem bitSet_wf {b : BitStore} (h : BitStore.wf b) (i : Nat) : BitStore.wf (bitSet b i) := by
  induction b with
  | nil => simp [bitSet, BitStore.wf]
  | cons a t ih =>
    obtain ⟨ha, ht⟩ := List.pairwise_cons.1 h
    simp only [bitSet]
    split
    · refine List.pairwise_cons.2 ⟨?_, h⟩
      intro x hx
      rcases List.mem_cons.1 hx with rfl | hx
      · assumption
      · exact lt_trans (by assumption) (ha x hx)
    · split
      · exact h
      · refine List.pairwise_cons.2 ⟨?_, ih ht⟩
        intro x hx
        rcases mem_bitSet.1 hx with rfl | hx
        · omega
        · exact ha x hx

theorem foldl_bitSet_wf {l : List Nat} {b : BitStore} (h : BitStore.wf b) : BitStore.wf (l.foldl bitSet b) := by
  induction l generalizing b with
  | nil => exact h
  | cons a t ih => exact ih (bitSet_wf h a)

/-- Setting a cell that already holds 1 changes nothing. -/
theorem bitSet_of_mem {b : BitStore} (h : BitStore.wf b) {i : Nat} (hi : i ∈ b) : bitSet b i = b := by
  induction b with
  | nil => simp at hi
  | cons a t ih =>
    obtain ⟨ha, ht⟩ := List.pairwise_cons.1 h
    simp only [bitSet]
    rcases List.mem_cons.1 hi with rfl | hi
    · simp
    · have := ha i hi
      rw [if_neg (by omega), if_neg (by omega), ih ht hi]

theorem foldl_bitSet_of_subset {l : List Nat} {b : BitStore} (h : BitStore.wf b) (hl : ∀ i ∈ l, i ∈ b) :
    l.foldl bitSet b = b := by
  induction l with
  | nil => rfl
  | cons a t ih =>
    rw [List.foldl_cons, bitSet_of_mem h (hl a (by simp))]
    exact ih fun i hi => hl i (by simp [hi])

/-! ## The slot array -/

@[simp] theorem slotRead_nil (i : Nat) : slotRead [] i = none := rfl

theorem mem_of_slotRead {m : SlotStore} {i : Nat} {q : Pair} (h : slotRead m i = some q) : (i, q) ∈ m := by
  induction m with
  | nil => simp at h
  | cons a t ih =>
    obtain ⟨j, r⟩ := a
    simp only [slotRead] at h
    split at h
    · simp_all
    · exact List.mem_cons_of_mem _ (ih h)

theorem slotRead_eq_none_of_lt {m : SlotStore} {i : Nat} (h : ∀ e ∈ m, i < e.1) : slotRead m i = none := by
  induction m with
  | nil => rfl
  | cons a t ih =>
    obtain ⟨j, r⟩ := a
    have hj : i < j := h (j, r) (by simp)
    simp only [slotRead]
    rw [if_neg (by omega)]
    exact ih fun e he => h e (by simp [he])

/-- In canonical form the entries of the store are exactly what reads give. -/
theorem mem_iff_slotRead {m : SlotStore} (h : SlotStore.wf m) {i : Nat} {q : Pair} :
    (i, q) ∈ m ↔ slotRead m i = some q := by
  refine ⟨fun hm => ?_, mem_of_slotRead⟩
  induction m with
  | nil => simp at hm
  | cons a t ih =>
    obtain ⟨j, r⟩ := a
    obtain ⟨ha, ht⟩ := List.pairwise_cons.1 h
    simp only [slotRead]
    rcases List.mem_cons.1 hm with hm | hm
    · cases hm; simp
    · have := ha _ hm
      rw [if_neg (by simp at this; omega)]
      exact ih ht hm

/-- SlotWrite of a pair writes one slot and leaves every other as it was (20_memory.md R56). -/
theorem slotRead_slotWrite_some (m : SlotStore) (i j : Nat) (q : Pair) :
    slotRead (slotWrite m i (some q)) j = if j = i then some q else slotRead m j := by
  induction m with
  | nil => simp [slotWrite, slotCell, slotRead]
  | cons a t ih =>
    obtain ⟨k, r⟩ := a
    simp only [slotWrite]
    split
    · simp [slotCell, slotRead]
    · split
      · subst_vars
        simp only [slotCell, List.cons_append, List.nil_append, slotRead]
        split <;> rfl
      · simp only [slotRead, ih]
        split
        · rw [if_neg (by omega)]
        · rfl

/-- SlotWrite of Empty clears one slot and leaves every other as it was (R56). -/
theorem slotRead_slotWrite_none {m : SlotStore} (h : SlotStore.wf m) (i j : Nat) :
    slotRead (slotWrite m i none) j = if j = i then none else slotRead m j := by
  induction m with
  | nil => simp [slotWrite, slotCell, slotRead]
  | cons a t ih =>
    obtain ⟨k, r⟩ := a
    obtain ⟨ha, ht⟩ := List.pairwise_cons.1 h
    simp only [slotWrite]
    split
    · rename_i hik
      simp only [slotCell, List.nil_append]
      split
      · subst_vars
        refine slotRead_eq_none_of_lt fun e he => ?_
        rcases List.mem_cons.1 he with rfl | he
        · exact hik
        · have := ha e he
          omega
      · rfl
    · split
      · subst_vars
        simp only [slotCell, List.nil_append, slotRead]
        split
        · subst_vars
          exact slotRead_eq_none_of_lt fun e he => ha e he
        · rfl
      · simp only [slotRead, ih ht]
        split
        · rw [if_neg (by omega)]
        · rfl

theorem mem_slotWrite {m : SlotStore} {i : Nat} {o : Option Pair} {e : Nat × Pair} (h : e ∈ slotWrite m i o) :
    (e.1 = i ∧ o = some e.2) ∨ e ∈ m := by
  induction m with
  | nil => cases o <;> simp_all [slotWrite, slotCell]
  | cons a t ih =>
    obtain ⟨k, r⟩ := a
    simp only [slotWrite] at h
    split at h
    · cases o <;> simp_all [slotCell]; rcases h with rfl | h <;> simp_all
    · split at h
      · cases o <;> simp_all [slotCell]; rcases h with rfl | h <;> simp_all
      · rcases List.mem_cons.1 h with rfl | h
        · simp
        · rcases ih h with h | h
          · exact .inl h
          · exact .inr (List.mem_cons_of_mem _ h)

theorem slotWrite_wf {m : SlotStore} (h : SlotStore.wf m) (i : Nat) (o : Option Pair) : SlotStore.wf (slotWrite m i o) := by
  induction m with
  | nil => cases o <;> simp [slotWrite, slotCell, SlotStore.wf]
  | cons a t ih =>
    obtain ⟨k, r⟩ := a
    obtain ⟨ha, ht⟩ := List.pairwise_cons.1 h
    simp only [slotWrite]
    split
    · rename_i hik
      cases o with
      | none => simpa [slotCell] using h
      | some q =>
        refine List.pairwise_cons.2 ⟨?_, h⟩
        intro e he
        rcases List.mem_cons.1 he with rfl | he
        · exact hik
        · exact lt_trans hik (ha e he)
    · split
      · subst_vars
        cases o with
        | none => simpa [slotCell] using ht
        | some q => exact List.pairwise_cons.2 ⟨ha, ht⟩
      · refine List.pairwise_cons.2 ⟨?_, ih ht⟩
        intro e he
        rcases mem_slotWrite he with ⟨h1, -⟩ | he
        · simp only [h1]; omega
        · exact ha e he

/-- Two writes in canonical form: entries of the store after a write. -/
theorem mem_slotWrite_some {m : SlotStore} (h : SlotStore.wf m) {i j : Nat} {q r : Pair} :
    (j, r) ∈ slotWrite m i (some q) ↔ (j = i ∧ r = q) ∨ (j ≠ i ∧ (j, r) ∈ m) := by
  rw [mem_iff_slotRead (slotWrite_wf h i _), slotRead_slotWrite_some, mem_iff_slotRead h]
  by_cases hji : j = i <;> simp [hji, eq_comm]

/-- Entries of the store after a slot is emptied. -/
theorem mem_slotWrite_none {m : SlotStore} (h : SlotStore.wf m) {i j : Nat} {r : Pair} :
    (j, r) ∈ slotWrite m i none ↔ j ≠ i ∧ (j, r) ∈ m := by
  rw [mem_iff_slotRead (slotWrite_wf h i _), slotRead_slotWrite_none h, mem_iff_slotRead h]
  by_cases hji : j = i <;> simp [hji]

/-- Writing an Empty slot adds its pair; writing an Occupied one replaces its pair (as lists up to order). -/
theorem slotWrite_perm {m : SlotStore} (h : SlotStore.wf m) (i : Nat) (q : Pair) :
    (∀ e, slotRead m i = some e → (e :: (slotWrite m i (some q)).map (·.2)).Perm (q :: m.map (·.2))) ∧
    (slotRead m i = none → ((slotWrite m i (some q)).map (·.2)).Perm (q :: m.map (·.2))) := by
  induction m with
  | nil => simp [slotWrite, slotCell]
  | cons a t ih =>
    obtain ⟨k, r⟩ := a
    obtain ⟨ha, ht⟩ := List.pairwise_cons.1 h
    simp only [slotWrite]
    split
    · rename_i hik
      have hn : slotRead ((k, r) :: t) i = none := slotRead_eq_none_of_lt fun e he => by
        rcases List.mem_cons.1 he with rfl | he
        · exact hik
        · exact lt_trans hik (ha e he)
      simp [hn, slotCell]
    · split
      · subst_vars
        simp [slotRead, slotCell, List.Perm.swap]
      · rename_i h1 h2
        obtain ⟨ih1, ih2⟩ := ih ht
        simp only [slotRead, if_neg h2, List.map_cons]
        refine ⟨fun e he => ?_, fun hn => ?_⟩
        · exact (List.Perm.swap _ _ _).trans (((ih1 e he).cons _).trans (List.Perm.swap _ _ _))
        · exact ((ih2 hn).cons _).trans (List.Perm.swap _ _ _)

theorem slotWrite_none_pairs_sublist (m : SlotStore) (i : Nat) :
    ((slotWrite m i none).map (·.2)).Sublist (m.map (·.2)) := by
  induction m with
  | nil => simp [slotWrite, slotCell]
  | cons a t ih =>
    obtain ⟨k, r⟩ := a
    simp only [slotWrite]
    split
    · simp [slotCell]
    · split
      · simp [slotCell]
      · simpa using ih

end Sys2Proof.Machine
end

