-- ==== Sys2Proof/Laws/Cuckoo.lean ====
section
/-! SUPPORT. What the displacement loop, the worklist and the growth controller can do. -/

namespace Sys2Proof.Machine

open Config (Params)

theorem h1_lt (p : Params) {c : Nat} (hc : 1 ≤ c) (x : Word) : h1 p c x < c := Nat.mod_lt _ hc
theorem h2_lt (p : Params) {c : Nat} (hc : 1 ≤ c) (x : Word) : h2 p c x < c := Nat.mod_lt _ hc

/-- ALT names a candidate slot of the evicted key (42_cuckoo.md R151). -/
theorem alt_candidate (p : Params) (c : Nat) (x : Word) (pos : Nat) : alt p c x pos = h1 p c x ∨ alt p c x pos = h2 p c x := by
  unfold alt; split <;> simp

theorem candidate_lt (p : Params) {c : Nat} (hc : 1 ≤ c) {x : Word} {pos : Nat} (h : pos = h1 p c x ∨ pos = h2 p c x) :
    pos < c := by
  rcases h with rfl | rfl
  · exact h1_lt p hc x
  · exact h2_lt p hc x

/-- A table in good order at capacity `c`: canonical, in range, every pair at a candidate slot (10_state.md R41). -/
structure TableOk (p : Params) (c : Nat) (m : SlotStore) : Prop where
  wf : SlotStore.wf m
  range : ∀ i q, (i, q) ∈ m → i < c
  reachable : Reachable p c m

theorem TableOk.nil (p : Params) (c : Nat) : TableOk p c [] :=
  ⟨List.Pairwise.nil, by simp, fun i q h => by simp at h⟩

theorem TableOk.write {p : Params} {c : Nat} {m : SlotStore} (h : TableOk p c m) (hc : 1 ≤ c) {pos : Nat} {q : Pair}
    (hpos : pos = h1 p c q.key ∨ pos = h2 p c q.key) : TableOk p c (slotWrite m pos (some q)) where
  wf := slotWrite_wf h.wf _ _
  range i r hm := by
    rcases (mem_slotWrite_some h.wf).1 hm with ⟨rfl, -⟩ | ⟨-, hm⟩
    · exact candidate_lt p hc hpos
    · exact h.range i r hm
  reachable i r hm := by
    rcases (mem_slotWrite_some h.wf).1 hm with ⟨rfl, rfl⟩ | ⟨-, hm⟩
    · exact hpos
    · exact h.reachable i r hm

theorem TableOk.clear {p : Params} {c : Nat} {m : SlotStore} (h : TableOk p c m) (i : Nat) :
    TableOk p c (slotWrite m i none) where
  wf := slotWrite_wf h.wf _ _
  range j r hm := h.range j r ((mem_slotWrite_none h.wf).1 hm).2
  reachable j r hm := h.reachable j r ((mem_slotWrite_none h.wf).1 hm).2

theorem mem_pairs {m : SlotStore} {q : Pair} : q ∈ SlotStore.pairs m ↔ ∃ i, (i, q) ∈ m := by
  simp [SlotStore.pairs]

/-- The slots an attempt leaves. -/
def AttemptEnd.slots : AttemptEnd → SlotStore
  | .seated m => m
  | .unseated m _ => m

/-- The item an attempt leaves unseated, if any. -/
def AttemptEnd.left : AttemptEnd → List Pair
  | .seated _ => []
  | .unseated _ u => [u]

/-- What an attempt does (42_cuckoo.md R150): the table stays in good order; the pairs of the table and the item left over
are those of the table before and the item; and where all of these are distinct, each is there exactly once. -/
theorem attempt_spec (p : Params) {c : Nat} (hc : 1 ≤ c) :
    ∀ (fuel : Nat) (m : SlotStore) (cur : Pair) (pos : Nat), TableOk p c m →
      (pos = h1 p c cur.key ∨ pos = h2 p c cur.key) →
      TableOk p c (attempt p c fuel m cur pos).slots ∧
      (∀ q, q ∈ SlotStore.pairs (attempt p c fuel m cur pos).slots ∨ q ∈ (attempt p c fuel m cur pos).left ↔
        q ∈ SlotStore.pairs m ∨ q = cur) ∧
      ((cur :: SlotStore.pairs m).Nodup →
        ((attempt p c fuel m cur pos).left ++ SlotStore.pairs (attempt p c fuel m cur pos).slots).Perm
          (cur :: SlotStore.pairs m)) := by
  intro fuel
  induction fuel with
  | zero =>
    intro m cur pos hm _
    refine ⟨hm, fun q => ?_, fun _ => ?_⟩ <;> simp [attempt, AttemptEnd.slots, AttemptEnd.left]
  | succ n ih =>
    intro m cur pos hm hpos
    have hw := hm.write hc hpos
    obtain ⟨hp1, hp2⟩ := slotWrite_perm hm.wf pos cur
    cases hr : slotRead m pos with
    | none =>
      have hperm := hp2 hr
      have hat : attempt p c (n + 1) m cur pos = .seated (slotWrite m pos (some cur)) := by
        simp [attempt, hr]
      rw [hat]
      refine ⟨hw, fun q => ?_, fun _ => by simpa [AttemptEnd.slots, AttemptEnd.left, SlotStore.pairs] using hperm⟩
      have := hperm.mem_iff (a := q)
      simp only [AttemptEnd.slots, AttemptEnd.left, SlotStore.pairs, List.not_mem_nil, or_false, this,
        List.mem_cons]
      tauto
    | some e =>
      have hperm := hp1 e hr
      have hmem : e ∈ SlotStore.pairs m := mem_pairs.2 ⟨pos, mem_of_slotRead hr⟩
      by_cases he : e = cur
      · have hat : attempt p c (n + 1) m cur pos = .seated m := by simp [attempt, hr, he]
        rw [hat]
        subst he
        refine ⟨hm, fun q => ?_, fun hnd => ?_⟩
        · simp only [AttemptEnd.slots, AttemptEnd.left, List.not_mem_nil, or_false]
          exact ⟨.inl, fun h => h.elim id (fun h => h ▸ hmem)⟩
        · exact absurd hmem (List.nodup_cons.1 hnd).1
      · have hat : attempt p c (n + 1) m cur pos =
            attempt p c n (slotWrite m pos (some cur)) e (alt p c e.key pos) := by
          simp [attempt, hr, he]
        rw [hat]
        obtain ⟨i1, i2, i3⟩ := ih _ e _ hw (alt_candidate p c e.key pos)
        refine ⟨i1, fun q => ?_, fun hnd => ?_⟩
        · rw [i2]
          have := hperm.mem_iff (a := q)
          simp only [List.mem_cons, SlotStore.pairs] at this ⊢
          tauto
        · exact (i3 (hperm.nodup_iff.2 hnd)).trans hperm

/-- The slots a drained worklist leaves. -/
def DrainEnd.slots : DrainEnd → SlotStore
  | .all m => m
  | .stuck m _ _ => m

/-- The pairs a drained worklist leaves to seat. -/
def DrainEnd.left : DrainEnd → List Pair
  | .all _ => []
  | .stuck _ u rest => u :: rest

theorem present_mem {p : Params} {c : Nat} {m : SlotStore} {q : Pair} (h : present p c m q = true) :
    q ∈ SlotStore.pairs m := by
  simp only [present, Bool.and_eq_true, Bool.or_eq_true, decide_eq_true_eq] at h
  obtain ⟨-, h | h⟩ := h <;> exact mem_pairs.2 ⟨_, mem_of_slotRead h⟩

/-- What seating a worklist does (42_cuckoo.md R146): as an attempt does, for every item. -/
theorem drain_spec (p : Params) {c : Nat} (hc : 1 ≤ c) :
    ∀ (W : List Pair) (m : SlotStore), TableOk p c m →
      TableOk p c (drain p c W m).slots ∧
      (∀ q, q ∈ SlotStore.pairs (drain p c W m).slots ∨ q ∈ (drain p c W m).left ↔ q ∈ SlotStore.pairs m ∨ q ∈ W) ∧
      ((W ++ SlotStore.pairs m).Nodup →
        ((drain p c W m).left ++ SlotStore.pairs (drain p c W m).slots).Perm (W ++ SlotStore.pairs m)) := by
  intro W
  induction W with
  | nil => intro m hm; refine ⟨hm, fun q => ?_, fun _ => ?_⟩ <;> simp [drain, DrainEnd.slots, DrainEnd.left]
  | cons cur rest ih =>
    intro m hm
    by_cases hpres : present p c m cur = true
    · have hd : drain p c (cur :: rest) m = drain p c rest m := by simp [drain, hpres]
      rw [hd]
      obtain ⟨i1, i2, i3⟩ := ih m hm
      have hcur := present_mem hpres
      refine ⟨i1, fun q => ?_, fun hnd => ?_⟩
      · rw [i2, List.mem_cons]
        constructor
        · tauto
        · rintro (h | rfl | h)
          · exact .inl h
          · exact .inl hcur
          · exact .inr h
      · exact absurd (List.mem_append_right _ hcur) (List.nodup_cons.1 hnd).1
    · obtain ⟨a1, a2, a3⟩ := attempt_spec p hc c m cur (h1 p c cur.key) hm (.inl rfl)
      cases ha : attempt p c c m cur (h1 p c cur.key) with
      | seated m' =>
        have hd : drain p c (cur :: rest) m = drain p c rest m' := by simp [drain, hpres, ha]
        rw [ha] at a1 a2 a3
        rw [hd]
        simp only [AttemptEnd.slots, AttemptEnd.left, List.not_mem_nil, or_false, List.nil_append] at a1 a2 a3
        obtain ⟨i1, i2, i3⟩ := ih m' a1
        refine ⟨i1, fun q => ?_, fun hnd => ?_⟩
        · rw [i2, a2, List.mem_cons]; tauto
        · have hcm : (cur :: SlotStore.pairs m).Nodup := by
            have h2 := List.perm_middle.nodup_iff.2 hnd
            exact (List.nodup_append.1 h2).2.1
          have hp := a3 hcm
          have hp2 : (rest ++ SlotStore.pairs m').Perm (cur :: rest ++ SlotStore.pairs m) :=
            (hp.append_left rest).trans List.perm_middle
          exact (i3 (hp2.nodup_iff.2 hnd)).trans hp2
      | unseated m' u =>
        have hd : drain p c (cur :: rest) m = .stuck m' u rest := by simp [drain, hpres, ha]
        rw [ha] at a1 a2 a3
        rw [hd]
        simp only [AttemptEnd.slots, AttemptEnd.left, List.mem_singleton, DrainEnd.slots, DrainEnd.left] at a1 a2 a3 ⊢
        refine ⟨a1, fun q => ?_, fun hnd => ?_⟩
        · have := a2 q
          simp only [List.mem_cons]; tauto
        · have hcm : (cur :: SlotStore.pairs m).Nodup := by
            have h2 := List.perm_middle.nodup_iff.2 hnd
            exact (List.nodup_append.1 h2).2.1
          have hp := a3 hcm
          exact (List.perm_middle.symm).trans ((hp.append_left rest).trans List.perm_middle)

/-- The snapshot of a table in range is all of its pairs (42_cuckoo.md R152). -/
theorem snapshot_eq {c : Nat} {m : SlotStore} (h : ∀ i q, (i, q) ∈ m → i < c) : snapshot c m = SlotStore.pairs m := by
  unfold snapshot SlotStore.pairs
  rw [List.filter_eq_self.2]
  rintro ⟨i, q⟩ hm
  simpa using h i q hm

/-- More fuel than `CAP_MAX - capacity` changes nothing (42_cuckoo.md R154): each grow raises the capacity. -/
theorem runPut_fuel (p : Params) :
    ∀ (n k : Nat) (w : PutWork), p.capMax - w.cap ≤ n → p.capMax - w.cap ≤ k → runPut p n w = runPut p k w := by
  intro n
  induction n with
  | zero =>
    intro k w hn hk
    unfold runPut
    cases settle p w with
    | all m => cases k <;> rfl
    | stuck m u rest =>
      have : grownCap w.cap > p.capMax := by unfold grownCap; omega
      cases k <;> simp [this]
  | succ n ih =>
    intro k w hn hk
    unfold runPut
    cases settle p w with
    | all m => cases k <;> rfl
    | stuck m u rest =>
      by_cases hg : grownCap w.cap > p.capMax
      · cases k <;> simp [hg]
      · cases k with
        | zero => unfold grownCap at hg; omega
        | succ k =>
          simp only [hg, if_false]
          refine ih k _ ?_ ?_ <;> simp only [grown, grownCap] at * <;> omega

theorem finishPut_of_all {p : Params} {w : PutWork} {m : SlotStore} (h : settle p w = .all m) :
    finishPut p w = .seated w.cap m := by
  unfold finishPut runPut
  rw [h]

theorem finishPut_of_stuck {p : Params} {w : PutWork} {m : SlotStore} {u : Pair} {rest : List Pair}
    (h : settle p w = .stuck m u rest) :
    finishPut p w = if grownCap w.cap > p.capMax then .exhausted w.cap else finishPut p (grown w.cap m u rest) := by
  unfold finishPut
  by_cases hg : grownCap w.cap > p.capMax
  · rw [runPut, h]
    cases p.capMax - w.cap <;> simp [hg]
  · obtain ⟨k, hk⟩ : ∃ k, p.capMax - w.cap = k + 1 :=
      ⟨p.capMax - w.cap - 1, by unfold grownCap at hg; omega⟩
    rw [hk, runPut, h]
    simp only [hg, if_false]
    refine runPut_fuel p _ _ _ ?_ (le_refl _)
    simp only [grown, grownCap] at *
    omega

/-- One piece of internal work leads a CK_PUT where it was leading (10_state.md R40). -/
theorem finishPut_putStep {p : Params} {w w' : PutWork} (h : putStep p w = some w') :
    finishPut p w' = finishPut p w := by
  have key : settle p w' = settle p w → w'.cap = w.cap → finishPut p w' = finishPut p w := by
    intro hs hc
    unfold finishPut
    rw [hc]
    generalize p.capMax - w.cap = n
    unfold runPut
    rw [hs, hc]
  obtain ⟨cap, slots, work, att⟩ := w
  cases att with
  | none =>
    cases work with
    | nil => simp [putStep] at h
    | cons cur rest =>
      simp only [putStep] at h
      split at h
      · rename_i hp
        cases h
        exact key (by simp [settle, drain, hp]) rfl
      · rename_i hp
        cases h
        refine key ?_ rfl
        simp only [settle, drain, hp, Nat.sub_zero]
        rfl
  | some a =>
    simp only [putStep] at h
    split at h
    · rename_i hlt
      obtain ⟨k, hk⟩ : ∃ k, cap - a.n = k + 1 := ⟨cap - a.n - 1, by omega⟩
      cases hr : slotRead slots a.pos with
      | none =>
        simp only [hr] at h
        cases h
        refine key ?_ rfl
        simp [settle, hk, attempt, hr]
      | some e =>
        simp only [hr] at h
        split at h
        · rename_i he
          cases h
          refine key ?_ rfl
          simp [settle, hk, attempt, hr, he]
        · rename_i he
          cases h
          refine key ?_ rfl
          have : cap - (a.n + 1) = k := by omega
          simp [settle, hk, attempt, hr, he, this]
    · rename_i hlt
      have h0 : cap - a.n = 0 := by omega
      split at h
      · simp at h
      · rename_i hg
        cases h
        have hs : settle p ⟨cap, slots, work, some a⟩ = .stuck slots a.cur work := by
          simp [settle, h0, attempt]
        rw [finishPut_of_stuck hs, if_neg hg]

/-- What a CK_PUT run does from a worklist (42_cuckoo.md R146, R152, R153): the capacity grows by the growth rule within
CAP_MAX; a run that ends seated has a table in good order with exactly the pairs of the table and the worklist, each once
where they were distinct; one that ends by FAIL does so because the next capacity passes CAP_MAX. -/
theorem finishPut_spec (p : Params) :
    ∀ (n : Nat) (w : PutWork), p.capMax - w.cap ≤ n → w.attempt = none → 1 ≤ w.cap → TableOk p w.cap w.slots →
      match finishPut p w with
      | .seated c m =>
        (∃ k, c + 1 = 2 ^ k * (w.cap + 1)) ∧ (w.cap ≤ p.capMax → c ≤ p.capMax) ∧ 1 ≤ c ∧ TableOk p c m ∧
        (∀ q, q ∈ SlotStore.pairs m ↔ q ∈ SlotStore.pairs w.slots ∨ q ∈ w.work) ∧
        ((w.work ++ SlotStore.pairs w.slots).Nodup →
          (SlotStore.pairs m).Perm (w.work ++ SlotStore.pairs w.slots))
      | .exhausted c =>
        (∃ k, c + 1 = 2 ^ k * (w.cap + 1)) ∧ (w.cap ≤ p.capMax → c ≤ p.capMax) ∧ 1 ≤ c ∧ p.capMax < grownCap c := by
  intro n
  induction n with
  | zero =>
    intro w hn ha hc hm
    have hs : settle p w = drain p w.cap w.work w.slots := by simp [settle, ha]
    obtain ⟨d1, d2, d3⟩ := drain_spec p hc w.work w.slots hm
    cases hd : drain p w.cap w.work w.slots with
    | all m =>
      rw [finishPut_of_all (hs.trans hd)]
      rw [hd] at d1 d2 d3
      simp only [DrainEnd.slots, DrainEnd.left, List.not_mem_nil, or_false, List.nil_append] at d1 d2 d3
      exact ⟨⟨0, by simp⟩, id, hc, d1, d2, d3⟩
    | stuck m u rest =>
      have hg : grownCap w.cap > p.capMax := by unfold grownCap; omega
      rw [finishPut_of_stuck (hs.trans hd), if_pos hg]
      exact ⟨⟨0, by simp⟩, id, hc, hg⟩
  | succ n ih =>
    intro w hn ha hc hm
    have hs : settle p w = drain p w.cap w.work w.slots := by simp [settle, ha]
    obtain ⟨d1, d2, d3⟩ := drain_spec p hc w.work w.slots hm
    cases hd : drain p w.cap w.work w.slots with
    | all m =>
      rw [finishPut_of_all (hs.trans hd)]
      rw [hd] at d1 d2 d3
      simp only [DrainEnd.slots, DrainEnd.left, List.not_mem_nil, or_false, List.nil_append] at d1 d2 d3
      exact ⟨⟨0, by simp⟩, id, hc, d1, d2, d3⟩
    | stuck m u rest =>
      rw [finishPut_of_stuck (hs.trans hd)]
      by_cases hg : grownCap w.cap > p.capMax
      · rw [if_pos hg]
        exact ⟨⟨0, by simp⟩, id, hc, hg⟩
      · rw [if_neg hg]
        rw [hd] at d1 d2 d3
        simp only [DrainEnd.slots, DrainEnd.left] at d1 d2 d3
        have hgc : (grown w.cap m u rest).cap = 2 * w.cap + 1 := rfl
        have hwork : (grown w.cap m u rest).work = SlotStore.pairs m ++ [u] ++ rest := by
          simp [grown, snapshot_eq d1.range]
        have hle : 2 * w.cap + 1 ≤ p.capMax := by unfold grownCap at hg; omega
        have hi := ih (grown w.cap m u rest) (by rw [hgc]; omega) rfl (by rw [hgc]; omega) (TableOk.nil p _)
        have hpow : ∀ k c, c + 1 = 2 ^ k * ((grown w.cap m u rest).cap + 1) → ∃ k, c + 1 = 2 ^ k * (w.cap + 1) := by
          intro k c h
          refine ⟨k + 1, ?_⟩
          rw [h, hgc, pow_succ]; ring
        cases hf : finishPut p (grown w.cap m u rest) with
        | exhausted c =>
          rw [hf] at hi
          obtain ⟨⟨k, hk⟩, h2, h3, h4⟩ := hi
          exact ⟨hpow k c hk, fun _ => h2 (hgc ▸ hle), h3, h4⟩
        | seated c m' =>
          rw [hf] at hi
          obtain ⟨⟨k, hk⟩, h2, h3, h4, h5, h6⟩ := hi
          have hperm0 : (SlotStore.pairs m ++ [u] ++ rest).Perm (u :: rest ++ SlotStore.pairs m) := by
            rw [List.append_assoc]
            exact List.perm_append_comm
          refine ⟨hpow k c hk, fun _ => h2 (hgc ▸ hle), h3, h4, fun q => ?_, fun hnd => ?_⟩
          · rw [h5, hwork, ← d2 q]
            simp [SlotStore.pairs, grown]
          · have hp := d3 hnd
            have hp2 := hperm0.trans hp
            rw [hwork] at h6
            have h7 := h6 (by simpa [grown, SlotStore.pairs] using hp2.nodup_iff.2 hnd)
            refine h7.trans ?_
            simpa [grown, SlotStore.pairs] using hp2

end Sys2Proof.Machine
end

