-- ==== Sys2Proof/Laws/Exec.lean ====
section
/-! SUPPORT. Gates, errors, the invariant's parts over the stores, and what every command has in common. -/

namespace Sys2Proof.Machine

theorem bfGate_true {s : State} (h : s.bfReady = true) (body : Result) : bfGate s body = body := by simp [bfGate, h]
theorem bfGate_false {s : State} (h : s.bfReady = false) (body : Result) : bfGate s body = s.raise .notConfigured := by
  simp [bfGate, h]
theorem ckGate_ready {s : State} (h : s.ckMode = .ready) (body : Result) : ckGate s body = body := by simp [ckGate, h]
theorem ckGate_uninit {s : State} (h : s.ckMode = .uninit) (body : Result) : ckGate s body = s.raise .notConfigured := by
  simp [ckGate, h]
theorem ckGate_failed {s : State} (h : s.ckMode = .failed) (body : Result) : ckGate s body = s.raise .unitFailed := by
  simp [ckGate, h]

/-- What a Bloom command answers: the gate's error on an unconfigured unit, else its own answer. -/
theorem bfGate_next {s t : State} {body : Result} (h : bfGate s body = .next t) :
    (s.bfReady = false ∧ t = s.complete .notConfigured false) ∨ (s.bfReady = true ∧ body = .next t) := by
  unfold bfGate at h
  split at h
  · exact .inr ⟨by assumption, h⟩
  · refine .inl ⟨by simp_all, ?_⟩
    simpa [State.raise, eq_comm] using h

/-- What a gated Cuckoo command answers: the gate's error, or in mode READY its own answer (42_cuckoo.md R144). -/
theorem ckGate_next {s t : State} {body : Result} (h : ckGate s body = .next t) :
    (s.ckMode = .uninit ∧ t = s.complete .notConfigured false) ∨
    (s.ckMode = .failed ∧ t = s.complete .unitFailed false) ∨ (s.ckMode = .ready ∧ body = .next t) := by
  unfold ckGate at h
  split at h
  · exact .inl ⟨by assumption, by simpa [State.raise, eq_comm] using h⟩
  · exact .inr (.inl ⟨by assumption, by simpa [State.raise, eq_comm] using h⟩)
  · exact .inr (.inr ⟨by assumption, h⟩)

/-- What every command leaves alone, whatever it does. -/
structure Untouched (s t : State) : Prop where
  cfg : t.cfg = s.cfg
  arg0 : t.arg0 = s.arg0
  arg1 : t.arg1 = s.arg1
  arg2 : t.arg2 = s.arg2
  ovr : t.ovr = s.ovr
  tab : t.tab = s.tab
  sched : t.sched = s.sched
  host : t.host = s.host
  reads : t.reads = s.reads
  gathered : t.gathered = s.gathered

/-- Every command completes, in every state: there is a next state, the engine is idle in it, and the parameters, the
operand registers, OVR, the table and everything outside the engine are as before (60_exceptions.md R184). -/
theorem exec_next (i : Instr) (s : State) : ∃ t, exec i s = .next t ∧ t.phase = .idle ∧ Untouched s t := by
  cases i
  case ckPut =>
    simp only [exec, execCkPut, ckGate]
    cases s.ckMode
    · exact ⟨_, rfl, rfl, by constructor <;> rfl⟩
    · dsimp only
      cases finishPut s.cfg s.putWork <;> exact ⟨_, rfl, rfl, by constructor <;> rfl⟩
    · exact ⟨_, rfl, rfl, by constructor <;> rfl⟩
  case ckGet =>
    simp only [exec, execCkGet, ckGate]
    cases s.ckMode
    · exact ⟨_, rfl, rfl, by constructor <;> rfl⟩
    · dsimp only
      cases s.lookup s.larg0 <;> exact ⟨_, rfl, rfl, by constructor <;> rfl⟩
    · exact ⟨_, rfl, rfl, by constructor <;> rfl⟩
  case ckRemove =>
    simp only [exec, execCkRemove, ckGate]
    cases s.ckMode
    · exact ⟨_, rfl, rfl, by constructor <;> rfl⟩
    · dsimp only
      cases s.removeAt ⟨s.larg0, s.larg1⟩ <;> exact ⟨_, rfl, rfl, by constructor <;> rfl⟩
    · exact ⟨_, rfl, rfl, by constructor <;> rfl⟩
  case ckReadSlot =>
    simp only [exec, execCkReadSlot, ckGate]
    cases s.ckMode
    · exact ⟨_, rfl, rfl, by constructor <;> rfl⟩
    · dsimp only
      split
      · exact ⟨_, rfl, rfl, by constructor <;> rfl⟩
      · cases slotRead s.slots (u32 s.larg0) <;> exact ⟨_, rfl, rfl, by constructor <;> rfl⟩
    · exact ⟨_, rfl, rfl, by constructor <;> rfl⟩
  all_goals
    simp only [exec, execNop, execStrClear, execStrPush, execHeHash, execBfConfig, execBfConfigSized, execBfAdd,
      execBfContains, execBfReadWord, execCkInit, execCkSize, execCkClear, execCkCapacity, State.tryConfigure,
      State.tryConfigureSized, State.tryInit, bfGate, ckGate]
    repeat' split
    all_goals exact ⟨_, rfl, rfl, by constructor <;> rfl⟩

theorem exec_untouched {i : Instr} {s t : State} (h : exec i s = .next t) : t.phase = .idle ∧ Untouched s t := by
  obtain ⟨u, hu, h1, h2⟩ := exec_next i s
  rw [hu] at h
  cases h
  exact ⟨h1, h2⟩

/-- No command reads or writes OVR or, once latched, ARG0 to ARG2 (10_state.md R26, R38): a state that differs there only,
with the same latched operands, runs every command alike. -/
theorem exec_unread (i : Instr) {s t : State} (a b c : Word) (o : Bool)
    (hl : State.latched { s with arg0 := a, arg1 := b, arg2 := c, ovr := o } = s.latched)
    (hw : State.putWork { s with arg0 := a, arg1 := b, arg2 := c, ovr := o } = s.putWork)
    (h : exec i s = .next t) :
    exec i { s with arg0 := a, arg1 := b, arg2 := c, ovr := o } = .next { t with arg0 := a, arg1 := b, arg2 := c, ovr := o } := by
  have e0 : State.larg0 { s with arg0 := a, arg1 := b, arg2 := c, ovr := o } = s.larg0 := congrArg Latched.arg0 hl
  have e1 : State.larg1 { s with arg0 := a, arg1 := b, arg2 := c, ovr := o } = s.larg1 := congrArg Latched.arg1 hl
  have e2 : State.larg2 { s with arg0 := a, arg1 := b, arg2 := c, ovr := o } = s.larg2 := congrArg Latched.arg2 hl
  have hmode : s.ckMode = .uninit ∨ s.ckMode = .ready ∨ s.ckMode = .failed := by cases s.ckMode <;> simp
  have hready : s.bfReady = false ∨ s.bfReady = true := by cases s.bfReady <;> simp
  have g1 := fun body hm => ckGate_uninit (s := { s with arg0 := a, arg1 := b, arg2 := c, ovr := o }) hm body
  have g2 := fun body hm => ckGate_ready (s := { s with arg0 := a, arg1 := b, arg2 := c, ovr := o }) hm body
  have g3 := fun body hm => ckGate_failed (s := { s with arg0 := a, arg1 := b, arg2 := c, ovr := o }) hm body
  have g4 := fun body hm => bfGate_false (s := { s with arg0 := a, arg1 := b, arg2 := c, ovr := o }) hm body
  have g5 := fun body hm => bfGate_true (s := { s with arg0 := a, arg1 := b, arg2 := c, ovr := o }) hm body
  cases i
  case ckPut =>
    simp only [exec, execCkPut] at h ⊢
    rw [hw]
    rcases hmode with hm | hm | hm
    · rw [ckGate_uninit hm] at h; rw [g1 _ hm]; cases h; rfl
    · rw [ckGate_ready hm] at h; rw [g2 _ hm]
      cases hf : finishPut s.cfg s.putWork <;> simp only [hf] at h ⊢ <;> cases h <;> rfl
    · rw [ckGate_failed hm] at h; rw [g3 _ hm]; cases h; rfl
  case ckGet =>
    simp only [exec, execCkGet] at h ⊢
    rw [e0]
    have el : ∀ x, State.lookup { s with arg0 := a, arg1 := b, arg2 := c, ovr := o } x = s.lookup x := fun x => rfl
    rw [el]
    rcases hmode with hm | hm | hm
    · rw [ckGate_uninit hm] at h; rw [g1 _ hm]; cases h; rfl
    · rw [ckGate_ready hm] at h; rw [g2 _ hm]
      cases hf : s.lookup s.larg0 <;> simp only [hf] at h ⊢ <;> cases h <;> rfl
    · rw [ckGate_failed hm] at h; rw [g3 _ hm]; cases h; rfl
  case ckRemove =>
    simp only [exec, execCkRemove] at h ⊢
    rw [e0, e1]
    have el : ∀ x, State.removeAt { s with arg0 := a, arg1 := b, arg2 := c, ovr := o } x = s.removeAt x := fun x => rfl
    rw [el]
    rcases hmode with hm | hm | hm
    · rw [ckGate_uninit hm] at h; rw [g1 _ hm]; cases h; rfl
    · rw [ckGate_ready hm] at h; rw [g2 _ hm]
      cases hf : s.removeAt ⟨s.larg0, s.larg1⟩ <;> simp only [hf] at h ⊢ <;> cases h <;> rfl
    · rw [ckGate_failed hm] at h; rw [g3 _ hm]; cases h; rfl
  case ckReadSlot =>
    simp only [exec, execCkReadSlot] at h ⊢
    rw [e0]
    rcases hmode with hm | hm | hm
    · rw [ckGate_uninit hm] at h; rw [g1 _ hm]; cases h; rfl
    · rw [ckGate_ready hm] at h; rw [g2 _ hm]
      split at h
      · rename_i hc; rw [if_pos hc]; cases h; rfl
      · rename_i hc; rw [if_neg hc]
        cases hf : slotRead s.slots (u32 s.larg0) <;> simp only [hf] at h ⊢ <;> cases h <;> rfl
    · rw [ckGate_failed hm] at h; rw [g3 _ hm]; cases h; rfl
  case nop => simp only [exec, execNop] at h ⊢; cases h; rfl
  case strClear => simp only [exec, execStrClear] at h ⊢; cases h; rfl
  case strPush u =>
    simp only [exec, execStrPush] at h ⊢
    split at h <;> rename_i hc
    · rw [if_pos hc]; cases h; rfl
    · rw [if_neg hc]; cases h; rfl
  case heHash ch => simp only [exec, execHeHash] at h ⊢; cases h; rfl
  case ckInit =>
    simp only [exec, execCkInit, e0, State.tryInit] at h ⊢
    split at h <;> rename_i h1
    · rw [if_pos h1]; cases h; rfl
    · rw [if_neg h1]
      split at h <;> rename_i h2
      · rw [if_pos h2]; cases h; rfl
      · rw [if_neg h2]; cases h; rfl
  case bfConfig =>
    simp only [exec, execBfConfig, e0, e1, State.tryConfigure] at h ⊢
    split at h <;> rename_i h1
    · rw [if_pos h1]; cases h; rfl
    · rw [if_neg h1]
      split at h <;> rename_i h2
      · rw [if_pos h2]; cases h; rfl
      · rw [if_neg h2]; cases h; rfl
  case bfConfigSized =>
    simp only [exec, execBfConfigSized, e0, e1, e2, State.tryConfigureSized] at h ⊢
    split at h <;> rename_i h1
    · rw [if_pos h1]; cases h; rfl
    · rw [if_neg h1]
      split at h <;> rename_i h2
      · rw [if_pos h2]; cases h; rfl
      · rw [if_neg h2]; cases h; rfl
  case bfAdd =>
    simp only [exec, execBfAdd] at h ⊢
    rcases hready with hb | hb
    · rw [bfGate_false hb] at h; rw [g4 _ hb]; cases h; rfl
    · rw [bfGate_true hb] at h; rw [g5 _ hb]; cases h; rfl
  case bfContains =>
    simp only [exec, execBfContains] at h ⊢
    rcases hready with hb | hb
    · rw [bfGate_false hb] at h; rw [g4 _ hb]; cases h; rfl
    · rw [bfGate_true hb] at h; rw [g5 _ hb]; cases h; rfl
  case bfReadWord =>
    simp only [exec, execBfReadWord, e0] at h ⊢
    have eb : State.bfWords { s with arg0 := a, arg1 := b, arg2 := c, ovr := o } = s.bfWords := rfl
    rw [eb]
    rcases hready with hb | hb
    · rw [bfGate_false hb] at h; rw [g4 _ hb]; cases h; rfl
    · rw [bfGate_true hb] at h; rw [g5 _ hb]
      split at h <;> rename_i hc
      · rw [if_pos hc]; cases h; rfl
      · rw [if_neg hc]; cases h; rfl
  case ckSize =>
    simp only [exec, execCkSize] at h ⊢
    rcases hmode with hm | hm | hm
    · rw [ckGate_uninit hm] at h; rw [g1 _ hm]; cases h; rfl
    · rw [ckGate_ready hm] at h; rw [g2 _ hm]; cases h; rfl
    · rw [ckGate_failed hm] at h; rw [g3 _ hm]; cases h; rfl
  case ckClear =>
    simp only [exec, execCkClear] at h ⊢
    rcases hmode with hm | hm | hm
    · rw [ckGate_uninit hm] at h; rw [g1 _ hm]; cases h; rfl
    · rw [ckGate_ready hm] at h; rw [g2 _ hm]; cases h; rfl
    · rw [ckGate_failed hm] at h; rw [g3 _ hm]; cases h; rfl
  case ckCapacity =>
    simp only [exec, execCkCapacity] at h ⊢
    rcases hmode with hm | hm | hm
    · rw [ckGate_uninit hm] at h; rw [g1 _ hm]; cases h; rfl
    · rw [ckGate_ready hm] at h; rw [g2 _ hm]; cases h; rfl
    · rw [ckGate_failed hm] at h; rw [g3 _ hm]; cases h; rfl
/-- What BF_CONFIG's checks answer (41_bloom.md R120). -/
theorem tryConfigure_next {s t : State} {L K : Int} (h : s.tryConfigure L K = .next t) :
    (¬ ((1 ≤ L ∧ L ≤ 31) ∧ 1 ≤ K ∧ K ≤ 8) ∧ t = s.complete .invalidParam false) ∨
    (((1 ≤ L ∧ L ≤ 31) ∧ 1 ≤ K ∧ K ≤ 8) ∧ s.cfg.bfMaxLog2 < L ∧ t = s.complete .resource false) ∨
    (((1 ≤ L ∧ L ≤ 31) ∧ 1 ≤ K ∧ K ≤ 8) ∧ L ≤ s.cfg.bfMaxLog2 ∧ t = (s.configure L.toNat K.toNat).complete .ok false) := by
  unfold State.tryConfigure at h
  split at h <;> rename_i h1 <;> unfold Config.log2Max Config.kMax at h1
  · cases h; exact .inl ⟨by omega, rfl⟩
  · split at h <;> rename_i h2 <;> cases h
    · exact .inr (.inl ⟨by omega, by omega, rfl⟩)
    · exact .inr (.inr ⟨by omega, by omega, rfl⟩)

/-- What BF_CONFIG_SIZED's checks answer (41_bloom.md R122). -/
theorem tryConfigureSized_next {s t : State} {req K : Int} (h : s.tryConfigureSized req K = .next t) :
    (¬ (req ≤ 2 ^ 31 - 1 ∧ 1 ≤ K ∧ K ≤ 8) ∧ t = s.complete .invalidParam false) ∨
    ((req ≤ 2 ^ 31 - 1 ∧ 1 ≤ K ∧ K ≤ 8) ∧ s.cfg.bfMaxLog2 < sizedLog2 req ∧ t = s.complete .resource false) ∨
    ((req ≤ 2 ^ 31 - 1 ∧ 1 ≤ K ∧ K ≤ 8) ∧ sizedLog2 req ≤ s.cfg.bfMaxLog2 ∧
      t = (s.configure (sizedLog2 req) K.toNat).complete .ok false) := by
  unfold State.tryConfigureSized at h
  split at h <;> rename_i h1 <;> unfold Config.kMax at h1
  · cases h; exact .inl ⟨by omega, rfl⟩
  · split at h <;> rename_i h2 <;> cases h
    · exact .inr (.inl ⟨by omega, by omega, rfl⟩)
    · exact .inr (.inr ⟨by omega, by omega, rfl⟩)

/-- The derived log2Bits is in 4..31 (41_bloom.md R122). -/
theorem sizedLog2_range (req : Int) : 4 ≤ sizedLog2 req ∧ sizedLog2 req ≤ 31 := by
  unfold sizedLog2
  cases h : ((List.range (Config.log2Max + 1)).filter (Config.log2SizedMin ≤ ·)).find? (fun L => req ≤ 2 ^ L) with
  | none => simp [Config.log2Max]
  | some L =>
    have hm := List.mem_of_find?_eq_some h
    rw [List.mem_filter, List.mem_range, decide_eq_true_eq] at hm
    unfold Config.log2SizedMin Config.log2Max at hm
    simp only [Option.getD_some]
    omega

/-- What CK_INIT's checks answer (42_cuckoo.md R145). -/
theorem tryInit_next {s t : State} {C : Int} (h : s.tryInit C = .next t) :
    (C ≤ 0 ∧ t = s.complete .invalidParam false) ∨ (1 ≤ C ∧ s.cfg.capMax < C ∧ t = s.complete .resource false) ∨
    (1 ≤ C ∧ C ≤ s.cfg.capMax ∧
      t = State.complete { s with ckMode := .ready, capacity := C.toNat, slots := [] } .ok false) := by
  unfold State.tryInit at h
  split at h <;> rename_i h1
  · cases h; exact .inl ⟨h1, rfl⟩
  · split at h <;> rename_i h2 <;> cases h
    · exact .inr (.inl ⟨by omega, by omega, rfl⟩)
    · exact .inr (.inr ⟨by omega, by omega, rfl⟩)

/-- The ranges of a configuration of this hardware (00_scope.md R6). -/
theorem wellFormed_ranges {p : Config.Params} (h : p.wellFormed = true) :
    (1 ≤ p.bfMaxLog2 ∧ p.bfMaxLog2 ≤ 31) ∧ (1 ≤ p.capMax ∧ p.capMax ≤ 2 ^ 31 - 1) ∧ (1 ≤ p.strMax ∧ p.strMax < 2 ^ 32) := by
  unfold Config.Params.wellFormed Config.Params.bfMaxLog2Ok Config.Params.capMaxOk Config.Params.strMaxOk at h
  simp only [Bool.and_eq_true, decide_eq_true_eq] at h
  exact ⟨h.1.1.2, h.1.2, h.2⟩

/-- A probe is the low log2Bits bits of the hash (41_bloom.md R123). -/
theorem probe_eq {s : State} (hL : s.log2Bits ≤ 31) (n : Nat) : s.probe n = (s.hash n).toNat % 2 ^ s.log2Bits := by
  have h : 2 ^ s.log2Bits ≤ 2 ^ 31 := Nat.pow_le_pow_right (by decide) hL
  simp only [State.probe, State.mask]
  rw [BitVec.toNat_and, BitVec.toNat_ofNat, Nat.mod_eq_of_lt (a := 2 ^ s.log2Bits - 1) (by omega),
    Nat.and_two_pow_sub_one_eq_mod]

theorem failedSlots_wf (d c : Nat) : SlotStore.wf (failedSlots d c) := by
  unfold failedSlots SlotStore.wf
  refine List.Pairwise.filterMap _ (R := (· < ·)) ?_ (List.pairwise_lt_range)
  intro i j hij e he e' he'
  simp only [Option.map_eq_some_iff] at he he'
  obtain ⟨_, _, rfl⟩ := he
  obtain ⟨_, _, rfl⟩ := he'
  exact hij

theorem failedSlots_range {d c i : Nat} {q : Pair} (h : (i, q) ∈ failedSlots d c) : i < c := by
  simp only [failedSlots, List.mem_filterMap, List.mem_range, Option.map_eq_some_iff] at h
  obtain ⟨j, hj, _, _, h⟩ := h
  simp only [Prod.mk.injEq] at h
  omega

/-- The mode READY table of a state that meets the Cuckoo invariant is in good order. -/
theorem CuckooInv.tableOk {s : State} (h : CuckooInv s) (hm : s.ckMode = .ready) :
    1 ≤ s.capacity ∧ s.capacity ≤ s.cfg.capMax ∧ TableOk s.cfg s.capacity s.slots := by
  have hne : s.ckMode ≠ .uninit := by rw [hm]; simp
  exact ⟨(h.capacity_range hne).1, (h.capacity_range hne).2, h.canonical, h.slots_range hne, h.reachable hm⟩

/-- In a state that meets the invariant, a CK_PUT in progress leads where it leads from its start (10_state.md R40). -/
theorem Inv.finishPut_putWork {s : State} (h : Inv s) : finishPut s.cfg s.putWork = finishPut s.cfg s.putStart := by
  unfold State.putWork
  split
  · rename_i hp
    exact (h.hidden _ _ hp).2.2
  · rfl
  · rfl
  · rfl

/-- What CK_PUT answers in mode READY (42_cuckoo.md R146, R153). -/
theorem ckPut_next {s t : State} (hm : s.ckMode = .ready) (h : exec .ckPut s = .next t) :
    (∃ c m, finishPut s.cfg s.putWork = .seated c m ∧
      t = State.complete { s with capacity := c, slots := m } .ok false) ∨
    (∃ c, finishPut s.cfg s.putWork = .exhausted c ∧
      t = State.complete
        { s with ckMode := .failed, capacity := c, slots := failedSlots s.draws c, draws := s.draws + 1 }
        .capExhausted false) := by
  simp only [exec, execCkPut] at h
  rw [ckGate_ready hm] at h
  cases hf : finishPut s.cfg s.putWork with
  | seated c m => rw [hf] at h; cases h; exact .inl ⟨c, m, rfl, rfl⟩
  | exhausted c => rw [hf] at h; cases h; exact .inr ⟨c, rfl, rfl⟩

/-- In a canonical store the pairs are what the slots read as. -/
theorem mem_pairs_iff_slotRead {m : SlotStore} (h : SlotStore.wf m) {q : Pair} :
    q ∈ SlotStore.pairs m ↔ ∃ i, slotRead m i = some q := by
  rw [mem_pairs]; simp only [mem_iff_slotRead h]

/-- The pre-check finds every pair of a table in good order (42_cuckoo.md R149). -/
theorem Inv.present_of_mem {s : State} (h : Inv s) (hm : s.ckMode = .ready) (hd : s.cfg.dupPrecheck = true) {q : Pair}
    (hq : q ∈ SlotStore.pairs s.slots) : present s.cfg s.capacity s.slots q = true := by
  obtain ⟨-, -, h3⟩ := h.cuckoo.tableOk hm
  obtain ⟨j, hj⟩ := mem_pairs.1 hq
  have hr := (mem_iff_slotRead h3.wf).1 hj
  rcases h3.reachable _ _ hj with hj | hj <;> subst hj <;> simp [present, hd, hr]

/-- The invariant speaks of the parameters, Str, the two units, the table and the hidden state only: a state that agrees in
the first three, and meets the last two, meets it. -/
theorem Inv.frame {s t : State} (h : Inv s) (hc : t.cfg = s.cfg) (hstr : t.str = s.str)
    (hb : t.bfReady = s.bfReady ∧ t.log2Bits = s.log2Bits ∧ t.k = s.k ∧ t.bits = s.bits)
    (hk : t.ckMode = s.ckMode ∧ t.capacity = s.capacity ∧ t.slots = s.slots)
    (ht : t.phase ≠ .init → t.tab = scrambleTable t.cfg)
    (hh : ∀ c w, t.phase = .command c (some w) →
      decode c.cmd = .ok .ckPut ∧ t.ckMode = .ready ∧ finishPut t.cfg w = finishPut t.cfg t.putStart) : Inv t := by
  obtain ⟨b1, b2, b3, b4⟩ := hb
  obtain ⟨k1, k2, k3⟩ := hk
  refine ⟨hc ▸ h.cfg, by rw [hc, hstr]; exact h.str, ⟨?_, ?_, ?_, ?_, ?_⟩, ⟨?_, ?_, ?_, ?_, ?_, ?_⟩, ht, hh⟩
  · rw [b1, b2, b3]; exact h.bloom.unconfigured
  · rw [b1, b2, hc]; exact h.bloom.log2Bits_range
  · rw [b1, b3]; exact h.bloom.k_range
  · rw [b1, b2, b4]; exact h.bloom.bits_range
  · rw [b4]; exact h.bloom.canonical
  · rw [k1, k2]; exact h.cuckoo.uninit
  · rw [k1, k2, hc]; exact h.cuckoo.capacity_range
  · rw [k1, k2, k3]; exact h.cuckoo.slots_range
  · rw [k3]; exact h.cuckoo.canonical
  · rw [k1, k2, k3, hc]; exact h.cuckoo.reachable
  · rw [k1, k3, hc]; exact h.cuckoo.distinct

end Sys2Proof.Machine
end

