-- ==== Sys2Proof/Laws/Flags.lean ====
section
/-! SUPPORT. The fields of a STATUS word (10_state.md R25), and the bytes of a word on the bus (20_memory.md R52). -/

namespace Sys2Proof.Machine

/-- Every bit of a STATUS word (R25, R33). -/
theorem getLsbD_statusOf (busy result ovr ckFailed bfReady ckReady : Bool) (err : Byte) (i : Nat) :
    (statusOf busy result ovr ckFailed bfReady ckReady err).getLsbD i =
      if i = 0 then busy else if i = 1 then result else if i = 2 then ovr else if i = 3 then ckFailed
      else if i = 4 then bfReady else if i = 5 then ckReady else if i < 8 then false else err.getLsbD (i - 8) := by
  show BitVec.getLsbD (w := 16 + 8 + 2 + 1 + 1 + 1 + 1 + 1 + 1)
    (0#16 ++ err ++ 0#2 ++ BitVec.ofBool ckReady ++ BitVec.ofBool bfReady ++ BitVec.ofBool ckFailed ++
      BitVec.ofBool ovr ++ BitVec.ofBool result ++ BitVec.ofBool busy) i = _
  simp only [BitVec.getLsbD_append]
  rcases Nat.lt_or_ge i 8 with h | h
  · interval_cases i <;> simp
  · have h1 : ∀ k, k < 8 → i ≠ k := by omega
    rw [if_neg (by omega), if_neg (by omega), if_neg (by omega), if_neg (by omega), if_neg (by omega),
      if_neg (by omega), if_neg (by omega)]
    simp only [h1 0 (by omega), h1 1 (by omega), h1 2 (by omega), h1 3 (by omega), h1 4 (by omega), h1 5 (by omega),
      if_false, show ¬ i < 8 by omega]
    rw [show i - 1 - 1 - 1 - 1 - 1 - 1 - 2 = i - 8 by omega]
    split
    · rfl
    · simp only [BitVec.getLsbD_zero]
      exact (BitVec.getLsbD_of_ge err _ (by omega)).symm

/-- `STATUS.ERR` of a STATUS word is the code put there (R25, R180). -/
theorem errField_statusOf (busy result ovr ckFailed bfReady ckReady : Bool) (err : Byte) :
    errField (statusOf busy result ovr ckFailed bfReady ckReady err) = err := by
  apply BitVec.eq_of_getLsbD_eq
  intro i hi
  simp only [errField, BitVec.getLsbD_extractLsb', getLsbD_statusOf]
  have h1 : ∀ k, k < 8 → 8 + i ≠ k := by omega
  simp [h1, hi, show ¬ 8 + i < 8 by omega]

/-- The reserved bits of a STATUS word read 0 (R33). -/
theorem statusOf_reserved (busy result ovr ckFailed bfReady ckReady : Bool) (err : Byte) :
    (statusOf busy result ovr ckFailed bfReady ckReady err).extractLsb' 6 2 = 0#2 ∧
    (statusOf busy result ovr ckFailed bfReady ckReady err).extractLsb' 16 16 = 0#16 := by
  constructor <;> apply BitVec.eq_of_getLsbD_eq <;> intro i hi <;>
    simp only [BitVec.getLsbD_extractLsb', getLsbD_statusOf, BitVec.getLsbD_zero]
  · have : i = 0 ∨ i = 1 := by omega
    rcases this with rfl | rfl <;> simp
  · have h1 : ∀ k, k < 8 → 16 + i ≠ k := by omega
    simp only [h1 0 (by omega), h1 1 (by omega), h1 2 (by omega), h1 3 (by omega), h1 4 (by omega), h1 5 (by omega),
      if_false, show ¬ 16 + i < 8 by omega, BitVec.getLsbD_of_ge err (16 + i - 8) (by omega), Bool.and_false]

/-- The error codes are distinct (60_exceptions.md R180). -/
theorem Err.code_inj {a b : Err} (h : a.code = b.code) : a = b := by
  cases a <;> cases b <;> first | rfl | (exact absurd h (by decide))

end Sys2Proof.Machine
end

