-- ==== Sys2Proof/Laws/PerInstr.lean ====
section
/-! SUPPORT. Facts about every command as syntax, one lemma per constructor. -/

namespace Sys2Proof.Laws.EncodedWord

/-- The encoded word carries the command's opcode and immediate, and sets only immediate bits its opcode allows
(30_encoding.md R70, R71). -/
def Statement (i : Instr) : Prop :=
  opcodeOf (encode i) = i.opcode ∧ imm24Of (encode i) = i.imm24 ∧
    i.imm24 &&& ~~~(allowedImm i.opcode) = 0#24

/-- The bits of a command word (R70). -/
theorem getLsbD_commandWord (o : Byte) (m : BitVec 24) (i : Nat) :
    (commandWord o m).getLsbD i = if i < 24 then m.getLsbD i else o.getLsbD (i - 24) := by
  have h := BitVec.getLsbD_append (x := o) (y := m) (i := i)
  simpa [commandWord] using h

theorem opcodeOf_commandWord (o : Byte) (m : BitVec 24) : opcodeOf (commandWord o m) = o := by
  ext i hi
  rw [← BitVec.getLsbD_eq_getElem hi, ← BitVec.getLsbD_eq_getElem hi]
  simp [opcodeOf, getLsbD_commandWord, hi]

theorem imm24Of_commandWord (o : Byte) (m : BitVec 24) : imm24Of (commandWord o m) = m := by
  ext i hi
  rw [← BitVec.getLsbD_eq_getElem hi, ← BitVec.getLsbD_eq_getElem hi]
  simp [imm24Of, getLsbD_commandWord, hi]

theorem statement_of_allowed (i : Instr) (h : i.imm24 &&& ~~~(allowedImm i.opcode) = 0#24) : Statement i :=
  ⟨opcodeOf_commandWord _ _, imm24Of_commandWord _ _, h⟩

theorem nop : Statement .nop := statement_of_allowed _ (by decide)
theorem strClear : Statement .strClear := statement_of_allowed _ (by decide)
theorem strPush (u : CodeUnit) : Statement (.strPush u) := by
  refine statement_of_allowed _ ?_
  show u.setWidth 24 &&& ~~~0x00FFFF#24 = 0#24
  have h : u.toNat < 2 ^ 16 := u.isLt
  apply BitVec.eq_of_toNat_eq
  simp only [BitVec.toNat_and, BitVec.toNat_not, BitVec.toNat_setWidth, BitVec.toNat_ofNat]
  rw [Nat.mod_eq_of_lt (by omega : u.toNat < 2 ^ 24)]
  apply Nat.eq_of_testBit_eq
  intro i
  by_cases hi : i < 16
  · have : (0xFF0000).testBit i = false := by
      revert hi; revert i; decide
    simp [Nat.testBit_and, this]
  · have hb : u.toNat.testBit i = false :=
      Nat.testBit_lt_two_pow (lt_of_lt_of_le h (Nat.pow_le_pow_right (by decide) (by omega)))
    simp [Nat.testBit_and, hb]
theorem heHash (ch : BitVec 3) : Statement (.heHash ch) :=
  statement_of_allowed _ (by revert ch; decide)
theorem bfConfig : Statement .bfConfig := statement_of_allowed _ (by decide)
theorem bfConfigSized : Statement .bfConfigSized := statement_of_allowed _ (by decide)
theorem bfAdd : Statement .bfAdd := statement_of_allowed _ (by decide)
theorem bfContains : Statement .bfContains := statement_of_allowed _ (by decide)
theorem bfReadWord : Statement .bfReadWord := statement_of_allowed _ (by decide)
theorem ckInit : Statement .ckInit := statement_of_allowed _ (by decide)
theorem ckPut : Statement .ckPut := statement_of_allowed _ (by decide)
theorem ckGet : Statement .ckGet := statement_of_allowed _ (by decide)
theorem ckRemove : Statement .ckRemove := statement_of_allowed _ (by decide)
theorem ckSize : Statement .ckSize := statement_of_allowed _ (by decide)
theorem ckClear : Statement .ckClear := statement_of_allowed _ (by decide)
theorem ckCapacity : Statement .ckCapacity := statement_of_allowed _ (by decide)
theorem ckReadSlot : Statement .ckReadSlot := statement_of_allowed _ (by decide)

/-- The bytes of a word on the bus give the word back (20_memory.md R52). -/
theorem wordOfBytes_byteOfWord (w : Word) :
    wordOfBytes (byteOfWord w 0) (byteOfWord w 1) (byteOfWord w 2) (byteOfWord w 3) = w := by
  apply BitVec.eq_of_getLsbD_eq
  intro i hi
  show BitVec.getLsbD (w := 8 + 8 + 8 + 8) (byteOfWord w 3 ++ byteOfWord w 2 ++ byteOfWord w 1 ++ byteOfWord w 0) i = _
  simp only [BitVec.getLsbD_append, byteOfWord, BitVec.getLsbD_extractLsb']
  by_cases h0 : i < 8
  · simp only [h0, if_true, decide_true, Bool.true_and, Nat.mul_zero, Nat.zero_add]
  · by_cases h1 : i - 8 < 8
    · simp only [h0, h1, if_true, if_false, decide_true, Bool.true_and]
      congr 1; omega
    · by_cases h2 : i - 8 - 8 < 8
      · simp only [h0, h1, h2, if_true, if_false, decide_true, Bool.true_and]
        congr 1; omega
      · have h3 : i - 8 - 8 - 8 < 8 := by omega
        simp only [h0, h1, h2, h3, if_false, decide_true, Bool.true_and]
        congr 1; omega

end Sys2Proof.Laws.EncodedWord
end

