-- ==== Sys2Proof/Laws/Step.lean ====
section
/-! SUPPORT. What a read, a host statement, an engine turn and a step can do. -/

namespace Sys2Proof.Machine

/-- A register read moves nothing but the count of free values (20_memory.md R53). -/
theorem readReg_state (r : Reg) (s : State) : ∃ n, (readReg r s).2 = { s with draws := n } := by
  cases r <;> simp only [readReg, openRead] <;> first | exact ⟨s.draws, rfl⟩ | (split; exact ⟨_, rfl⟩; exact ⟨s.draws, rfl⟩)

theorem readReg_idle {s : State} (h : s.busy = false) (r : Reg) : (readReg r s).2 = s := by
  cases r <;> simp [readReg, openRead, h]

/-- What a host write of a register does (10_state.md R22, 20_memory.md R53): accept a command, set OVR, clear OVR, or store
into ARG0 to ARG2; or nothing. -/
theorem writeReg_cases (r : Reg) (v : Word) (s : State) :
    (r = .cmd ∧ s.busy = true ∧ writeReg r v s = { s with ovr := true }) ∨
    (r = .cmd ∧ s.busy = false ∧ writeReg r v s = s.accept v) ∨
    (r = .status ∧ v.getLsbD 2 = true ∧ writeReg r v s = { s with ovr := false }) ∨
    (r ∈ [Reg.arg0, .arg1, .arg2] ∧ ∃ a b c, writeReg r v s = { s with arg0 := a, arg1 := b, arg2 := c }) ∨
    (r ≠ .cmd ∧ r ∉ [Reg.arg0, .arg1, .arg2] ∧ writeReg r v s = s) := by
  cases r
  case cmd => cases h : s.busy <;> simp [writeReg, h]
  case status =>
    cases h : v.getLsbD 2
    · exact .inr (.inr (.inr (.inr ⟨by simp, by simp, by simp only [writeReg, h]; rfl⟩)))
    · exact .inr (.inr (.inl ⟨rfl, rfl, by simp only [writeReg, h, if_true]⟩))
  case arg0 => exact .inr (.inr (.inr (.inl ⟨by simp, v, s.arg1, s.arg2, rfl⟩)))
  case arg1 => exact .inr (.inr (.inr (.inl ⟨by simp, s.arg0, v, s.arg2, rfl⟩)))
  case arg2 => exact .inr (.inr (.inr (.inl ⟨by simp, s.arg0, s.arg1, v, rfl⟩)))
  all_goals exact .inr (.inr (.inr (.inr ⟨by simp, by simp, rfl⟩)))

/-- A host read moves nothing but the count of free values and the host's list of reads. -/
theorem hostReadReg_state (r : Reg) (s : State) :
    ∃ n l, (hostReadReg r s).2 = { s with draws := n, reads := l } := by
  obtain ⟨n, hn⟩ := readReg_state r s
  exact ⟨n, s.reads ++ [(s.cfg.engineBase + r.offset, (readReg r s).1)], by simp only [hostReadReg, hn]⟩

theorem regAt_eq_some {off : Nat} {r : Reg} : regAt off = some r ↔ off = r.offset := by
  constructor
  · intro h
    unfold regAt at h
    split at h <;> first | (cases h; rfl) | (simp at h)
  · rintro rfl
    cases r <;> rfl

theorem windowReg_eq_some {base addr size : Nat} {r : Reg} :
    windowReg base addr size = some r ↔ size = 4 ∧ addr = base + r.offset := by
  unfold windowReg
  split
  · rw [regAt_eq_some]; omega
  · simp only [reduceCtorEq, false_iff]; omega

/-- What the host's turn can do: its own program, its reads, its collection and the count of free values; or one write of
one register. -/
theorem hostTurn_next {s t : State} (h : hostTurn s = .next t) :
    (∃ n l g p, t = { s with draws := n, reads := l, gathered := g, host := p }) ∨
    (∃ r v rest, s.host = .wr (s.cfg.engineBase + r.offset) 4 v :: rest ∧ t = writeReg r v (s.setHost rest)) := by
  unfold hostTurn at h
  split at h
  · cases h; exact .inl ⟨_, _, _, _, rfl⟩
  · rename_i addr size v rest hh
    split at h
    · rename_i r hr
      obtain ⟨rfl, rfl⟩ := windowReg_eq_some.1 hr
      cases h
      exact .inr ⟨r, v, rest, hh, rfl⟩
    · cases h
  · rename_i addr size rest hh
    split at h
    · rename_i r hr
      cases h
      obtain ⟨n, l, hn⟩ := hostReadReg_state r (s.setHost rest)
      exact .inl ⟨n, l, s.gathered, rest, by rw [hn]; rfl⟩
    · cases h
  · rename_i rest hh
    obtain ⟨n, l, hn⟩ := hostReadReg_state .status s
    dsimp only at h
    cases h
    split
    · exact .inl ⟨n, l, s.gathered, s.host, by rw [hn]⟩
    · exact .inl ⟨n, l, s.gathered, rest, by rw [hn]; rfl⟩
  · rename_i rest hh
    obtain ⟨n, l, hn⟩ := hostReadReg_state .status s
    dsimp only at h
    split at h
    · cases h
      exact .inl ⟨n, l, s.gathered, rest, by rw [hn]; rfl⟩
    · cases h
  · rename_i what rest hh
    obtain ⟨n, l, hn⟩ := hostReadReg_state .res0 s
    dsimp only at h
    cases h
    exact .inl ⟨n, l, [], _, by rw [hn]⟩
  · split at h <;> cases h <;> exact .inl ⟨_, _, _, _, rfl⟩
  · rename_i what rest hh
    obtain ⟨n, l, hn⟩ := hostReadReg_state .status s
    dsimp only at h
    cases h
    refine .inl ⟨n, l, s.gathered, if (hostReadReg .status s).1.getLsbD 1 = true then .collect what :: rest else rest, ?_⟩
    rw [hn]; rfl
  · rename_i what rest hh
    obtain ⟨n, l, hn⟩ := hostReadReg_state (collectReg what) s
    dsimp only at h
    cases h
    exact .inl ⟨n, l, _, rest, by rw [hn]⟩

/-- The slots of a table in ascending order, as the traversal meets them (42_cuckoo.md R175). -/
def slotPairs (c : Nat) (m : SlotStore) : List Pair := (List.range c).filterMap (slotRead m)

theorem mem_slotPairs {c : Nat} {m : SlotStore} {q : Pair} :
    q ∈ slotPairs c m ↔ ∃ i, i < c ∧ slotRead m i = some q := by
  simp [slotPairs]

/-- A traversal collects, of each pair it meets in turn, the key or the value (R175). -/
theorem traversal_eq_foldl (what : Collect) (c : Nat) (m : SlotStore) :
    traversal what c m = (slotPairs c m).foldl (fun acc q => collectWord what acc (collectOf what q)) [] := by
  unfold traversal slotPairs
  rw [List.foldl_filterMap]
  congr 1
  funext acc i
  cases slotRead m i <;> rfl

/-- Collecting keys adds each key once. -/
theorem foldl_collectKeys (l : List Pair) : ∀ acc : List Word, acc.Nodup →
    (∀ x, x ∈ l.foldl (fun acc q => collectWord .keys acc q.key) acc ↔ x ∈ acc ∨ ∃ q ∈ l, q.key = x) ∧
      (l.foldl (fun acc q => collectWord .keys acc q.key) acc).Nodup := by
  induction l with
  | nil => intro acc h; simpa using h
  | cons q l ih =>
    intro acc h
    rw [List.foldl_cons]
    by_cases hq : q.key ∈ acc
    · obtain ⟨h1, h2⟩ := ih acc h
      simp only [collectWord, hq, if_true] at h1 h2 ⊢
      refine ⟨fun x => ?_, h2⟩
      rw [h1, List.exists_mem_cons_iff]
      constructor
      · tauto
      · rintro (h | rfl | h)
        · exact .inl h
        · exact .inl hq
        · exact .inr h
    · obtain ⟨h1, h2⟩ := ih (acc ++ [q.key]) (List.nodup_append.2 ⟨h, by simp, by rintro a ha b hb rfl; simp_all⟩)
      simp only [collectWord, hq, if_false] at h1 h2 ⊢
      refine ⟨fun x => ?_, h2⟩
      rw [h1, List.exists_mem_cons_iff, List.mem_append, List.mem_singleton, eq_comm (a := x), or_assoc]

/-- keys(): the keys of the Occupied slots as a set, each once (R175). -/
theorem mem_traversal_keys (c : Nat) (m : SlotStore) (x : Word) :
    x ∈ traversal .keys c m ↔ ∃ i q, i < c ∧ slotRead m i = some q ∧ q.key = x := by
  rw [traversal_eq_foldl]
  refine ((foldl_collectKeys (slotPairs c m) [] List.nodup_nil).1 x).trans ?_
  simp only [List.not_mem_nil, false_or, mem_slotPairs]
  constructor
  · rintro ⟨q, ⟨i, hi, hq⟩, hx⟩
    exact ⟨i, q, hi, hq, hx⟩
  · rintro ⟨i, q, hi, hq, hx⟩
    exact ⟨q, ⟨i, hi, hq⟩, hx⟩

theorem traversal_keys_nodup (c : Nat) (m : SlotStore) : (traversal .keys c m).Nodup := by
  rw [traversal_eq_foldl]
  exact (foldl_collectKeys (slotPairs c m) [] List.nodup_nil).2

theorem foldl_collectValues (l : List Pair) : ∀ acc : List Word,
    l.foldl (fun acc q => collectWord .values acc q.value) acc = acc ++ l.map (·.value) := by
  induction l with
  | nil => simp
  | cons q l ih => intro acc; rw [List.foldl_cons, ih]; simp [collectWord]

/-- values(): the values of the Occupied slots in slot order, every one kept (R175). -/
theorem traversal_values (c : Nat) (m : SlotStore) :
    traversal .values c m = (List.range c).filterMap (fun i => (slotRead m i).map (·.value)) := by
  rw [traversal_eq_foldl]
  refine (foldl_collectValues (slotPairs c m) []).trans ?_
  rw [List.nil_append, slotPairs, List.map_filterMap]

/-- What the engine's turn can do: nothing when idle, the end of initialisation, a command, or ILLEGAL. -/
theorem engineTurn_cases (s : State) :
    (s.phase = .idle ∧ engineTurn s = .next s) ∨
    (s.phase = .init ∧ engineTurn s = .next s.endInit) ∨
    (∃ c w i, s.phase = .command c w ∧ decode c.cmd = .ok i ∧ engineTurn s = exec i s) ∨
    (∃ c w e, s.phase = .command c w ∧ decode c.cmd = .error e ∧ engineTurn s = .next (s.complete .illegal false)) := by
  unfold engineTurn
  cases hp : s.phase with
  | idle => simp
  | init => simp
  | command c w =>
    cases hd : decode c.cmd with
    | ok i => exact .inr (.inr (.inl ⟨c, w, i, rfl, hd, by simp [hd]⟩))
    | error e => exact .inr (.inr (.inr ⟨c, w, e, rfl, hd, by simp [hd, State.raise]⟩))

/-- Internal work moves only the hidden state of a CK_PUT in mode READY (10_state.md R40). -/
theorem workTurn_cases (s : State) :
    workTurn s = s ∨
    ∃ c w w', s.phase = .command c w ∧ decode c.cmd = .ok .ckPut ∧ s.ckMode = .ready ∧
      putStep s.cfg s.putWork = some w' ∧ workTurn s = { s with phase := .command c (some w') } := by
  unfold workTurn
  cases hp : s.phase with
  | idle => simp
  | init => simp
  | command c w =>
    by_cases hc : decode c.cmd = .ok .ckPut ∧ s.ckMode = .ready
    · simp only [hc, and_self, if_true]
      cases hs : putStep s.cfg s.putWork with
      | none => simp
      | some w' => exact .inr ⟨c, w, w', rfl, hc.1, trivial, rfl, rfl⟩
    · simp [hc]

/-- What a step that answers a next state is: a turn of the engine, the engine's internal work, the host's turn, or reset,
on a machine whose parameters are ones of this hardware. -/
theorem step_next {s t : State} (h : step s = .next t) :
    s.cfg.wellFormed = true ∧
    ((s.nextTurn = .engine ∧ engineTurn s.popTurn = .next t) ∨
     (s.nextTurn = .work ∧ t = workTurn s.popTurn) ∨
     (s.nextTurn = .host ∧ hostTurn s.popTurn = .next t) ∨
     (s.nextTurn = .reset ∧ t = resetTurn s.popTurn)) := by
  unfold step at h
  split at h
  · rename_i hw
    refine ⟨hw, ?_⟩
    split at h
    · exact .inl ⟨by assumption, h⟩
    · exact .inr (.inl ⟨by assumption, by cases h; rfl⟩)
    · exact .inr (.inr (.inl ⟨by assumption, h⟩))
    · exact .inr (.inr (.inr ⟨by assumption, by cases h; rfl⟩))
    · cases h
  · cases h

end Sys2Proof.Machine
end

