-- ==== Sys2Proof/Tests/Slice0.lean ====
section
/-! SUPPORT. Tests of the model against the spec's own encodings and vectors, and a witness for the hypotheses of every
obligation. -/

namespace Sys2Proof.Tests

open Sys2Proof.Machine

/-! ## Well-formedness: each check refuses an ill-formed configuration or access -/

/-- HMULT must be odd (R106). -/
theorem test_even_hmult_refused :
    Config.Params.wellFormed { Config.Params.default with hmult := 0x6A5D39EAE116586C#64 } = false := by decide
/-- BF_MAX_LOG2 is in 1..31 (R6). -/
theorem test_bfMaxLog2_refused :
    Config.Params.wellFormed { Config.Params.default with bfMaxLog2 := 0 } = false ∧
    Config.Params.wellFormed { Config.Params.default with bfMaxLog2 := 32 } = false := by decide
/-- CAP_MAX is in 1..2^31-1 (R6). -/
theorem test_capMax_refused :
    Config.Params.wellFormed { Config.Params.default with capMax := 0 } = false ∧
    Config.Params.wellFormed { Config.Params.default with capMax := 2147483648 } = false := by decide
/-- STR_MAX is at least 1 (R6) and fits its register (log entry 6). -/
theorem test_strMax_refused :
    Config.Params.wellFormed { Config.Params.default with strMax := 0 } = false ∧
    Config.Params.wellFormed { Config.Params.default with strMax := 4294967296 } = false := by decide
/-- The defaults and the corners of the ranges are accepted. -/
theorem test_configurations_accepted :
    Config.Params.default.wellFormed = true ∧
    Config.Params.wellFormed { Config.Params.default with bfMaxLog2 := 1, capMax := 1, strMax := 1 } = true := by decide
/-- A machine with an even multiplier has no step (R106). -/
theorem test_step_refuses_even_hmult :
    step (State.resetWith { Config.Params.default with hmult := 2#64 }) = .refused .notAConfiguration := rfl
/-- Every command term is well formed: the operands' types are the ranges of R71. -/
theorem test_commands_wellFormed :
    (Instr.strPush 0xFFFF#16).wellFormed = true ∧ (Instr.heHash 7#3).wellFormed = true := by decide
/-- A narrow, misaligned or outside access names no register (R51). -/
theorem test_accesses_refused :
    windowReg 0x1000 0x1004 2 = none ∧ windowReg 0x1000 0x1002 4 = none ∧ windowReg 0x1000 0x1040 4 = none ∧
    windowReg 0x1000 0x0FFC 4 = none ∧ windowReg 0x1000 0x1004 8 = none := by decide

/-! ## Decoding: words from 30_encoding.md R72 and 95_test_vectors.md V-ENC-1 -/

theorem test_decode_nop : decode 0x00000000#32 = .ok .nop := rfl
theorem test_decode_strClear : decode 0x01000000#32 = .ok .strClear := rfl
theorem test_decode_strPush : decode 0x0200FFFF#32 = .ok (.strPush 0xFFFF#16) := rfl
theorem test_decode_heHash : decode 0x08000007#32 = .ok (.heHash 7#3) := rfl
theorem test_decode_bfConfig : decode 0x10000000#32 = .ok .bfConfig := rfl
theorem test_decode_bfConfigSized : decode 0x11000000#32 = .ok .bfConfigSized := rfl
theorem test_decode_bfAdd : decode 0x12000000#32 = .ok .bfAdd := rfl
theorem test_decode_bfContains : decode 0x13000000#32 = .ok .bfContains := rfl
theorem test_decode_bfReadWord : decode 0x14000000#32 = .ok .bfReadWord := rfl
theorem test_decode_ckInit : decode 0x20000000#32 = .ok .ckInit := rfl
theorem test_decode_ckPut : decode 0x21000000#32 = .ok .ckPut := rfl
theorem test_decode_ckGet : decode 0x22000000#32 = .ok .ckGet := rfl
theorem test_decode_ckRemove : decode 0x23000000#32 = .ok .ckRemove := rfl
theorem test_decode_ckSize : decode 0x24000000#32 = .ok .ckSize := rfl
theorem test_decode_ckClear : decode 0x25000000#32 = .ok .ckClear := rfl
theorem test_decode_ckCapacity : decode 0x26000000#32 = .ok .ckCapacity := rfl
theorem test_decode_ckReadSlot : decode 0x27000000#32 = .ok .ckReadSlot := rfl
/-- The reserved opcodes at the edges of their ranges (V-ENC-1). -/
theorem test_decode_reserved_opcodes :
    decode 0x03000000#32 = .error .reservedOpcode ∧ decode 0x07000000#32 = .error .reservedOpcode ∧
    decode 0x09000000#32 = .error .reservedOpcode ∧ decode 0x0F000000#32 = .error .reservedOpcode ∧
    decode 0x15000000#32 = .error .reservedOpcode ∧ decode 0x1F000000#32 = .error .reservedOpcode ∧
    decode 0x28000000#32 = .error .reservedOpcode ∧ decode 0xFF000000#32 = .error .reservedOpcode :=
  ⟨rfl, rfl, rfl, rfl, rfl, rfl, rfl, rfl⟩
/-- The reserved immediate bits (V-ENC-1). -/
theorem test_decode_reserved_immediates :
    decode 0x00000001#32 = .error .reservedImmediate ∧ decode 0x02010000#32 = .error .reservedImmediate ∧
    decode 0x08000008#32 = .error .reservedImmediate ∧ decode 0x27000001#32 = .error .reservedImmediate :=
  ⟨rfl, rfl, rfl, rfl⟩
/-- The bytes of `STR_PUSH 0x0102`, lowest address first (R52), and a sequence that is too short. -/
theorem test_decode_bytes :
    decodeBytes [0x02#8, 0x01#8, 0x00#8, 0x02#8, 0xAA#8] = .ok (.strPush 0x0102#16, [0xAA#8]) ∧
    decodeBytes [0x00#8, 0x00#8, 0x00#8] = .error .truncated := ⟨rfl, rfl⟩
theorem test_decodeTableWord :
    decodeTableWord 32 0x08000005 = some (.heHash 5#3) ∧ decodeTableWord 32 0x28000000 = none := ⟨rfl, rfl⟩

/-! ## Small states -/

/-- The engine idle after reset, with parameters `p`. -/
def idleWith (p : Config.Params) : State := (State.resetWith p).endInit

/-- The engine idle after reset, with the default parameters. -/
def idle : State := idleWith Config.Params.default

/-- Operands staged by the host. -/
def withArgs (s : State) (a0 a1 a2 : Word) : State := { s with arg0 := a0, arg1 := a1, arg2 := a2 }

/-- A READY table of capacity `c` in an idle engine. -/
def tableWith (p : Config.Params) (c : Nat) (m : SlotStore) : State :=
  { idleWith p with ckMode := .ready, capacity := c, slots := m }

/-- A configured filter in an idle engine, with a staged string. -/
def filterOf (L K : Nat) (b : BitStore) (str : List CodeUnit) : State :=
  { idle with bfReady := true, log2Bits := L, k := K, bits := b, str := str }

/-- One command, issued with its operands and run. -/
def run1 (s : State) (w : Nat) (a0 a1 a2 : Word) : Result := step ((withArgs s a0 a1 a2).withFetchWord 32 w)

/-- The next state, if there is one. -/
def nextOf (r : Result) : Option State :=
  match r with
  | .next t => some t
  | .fault _ => none
  | .refused _ => none

/-- ERR, RESULT, RES0 and RES1 of the next state. -/
def outcomeOf (r : Result) : Option (Err × Bool × Word × Word) := (nextOf r).map fun t => (t.err, t.result, t.res0, t.res1)

/-- The table of the next state: ERR, mode, capacity and slots. -/
def tableOf (r : Result) : Option (Err × CkMode × Nat × SlotStore) :=
  (nextOf r).map fun t => (t.err, t.ckMode, t.capacity, t.slots)

/-- The filter of the next state: ERR, BF_CFG and bits. -/
def filterAfter (r : Result) : Option (Err × Word × BitStore) := (nextOf r).map fun t => (t.err, t.bfCfgWord, t.bits)

/-! ## Reset and the register window (V-REG-1) -/

theorem test_reset_memory_wf : Memory.wf State.reset := ⟨List.Pairwise.nil, List.Pairwise.nil⟩
theorem test_reset_is_busy : State.reset.busy = true := rfl
theorem test_reset_reads :
    (readReg .id idle).1 = 0x48573501#32 ∧ (readReg .status idle).1 = 0#32 ∧ (readReg .cfgCapMax idle).1 = 0x000FFFFF#32 ∧
    (readReg .cfgStrMax idle).1 = 0x00000100#32 ∧ (readReg .cfgBfMaxLog2 idle).1 = 0x0000001F#32 := by decide
/-- STATUS 0x00000022 at the end of P3: CK_READY and RESULT. -/
theorem test_status_word :
    (readReg .status { tableWith .default 3 [] with result := true }).1 = 0x00000022#32 := by decide
/-- The registers at the offsets of R22 (V-REG-1). -/
theorem test_window_offsets :
    [regAt 0x00, regAt 0x04, regAt 0x08, regAt 0x0C, regAt 0x10, regAt 0x14, regAt 0x18, regAt 0x1C, regAt 0x20, regAt 0x24,
      regAt 0x28, regAt 0x2C, regAt 0x30, regAt 0x34] =
    [some .id, some .cmd, some .status, some .arg0, some .arg1, some .arg2, some .res0, some .res1, some .bfCfg, some .ckCap,
      some .strLen, some .cfgCapMax, some .cfgStrMax, some .cfgBfMaxLog2] := by decide
/-- `WR STATUS, 3` leaves OVR; `WR STATUS, 4` clears it (V-REG-1). -/
theorem test_ovr_cleared_by_bit_two :
    (writeReg .status 3#32 { idle with ovr := true }).ovr = true ∧
    (writeReg .status 4#32 { idle with ovr := true }).ovr = false := by decide
/-- The host's CHECK stops a program whose last command ended in an error (R76). -/
theorem test_check_fails_on_error :
    step { idle with err := .illegal, host := [.check] } = .fault .checkFailed := rfl

/-! ## Commands: one step each, expected values from 95_test_vectors.md -/

/-- V-HE-3: NOP completes with ERR 0 and RESULT 0; with a reserved bit it is ILLEGAL. -/
theorem test_nop :
    outcomeOf (run1 idle 0x00000000 0 0 0) = some (.ok, false, 0, 0) ∧
    outcomeOf (run1 idle 0x00000001 0 0 0) = some (.illegal, false, 0, 0) := by decide +kernel
/-- V-HE-3: STR_CLEAR on "AB". -/
theorem test_strClear :
    (nextOf (run1 { idle with str := [0x41#16, 0x42#16] } 0x01000000 0 0 0)).map (·.str) = some [] := by decide +kernel
/-- V-HE-3: STR_PUSH appends, and on a full buffer raises STR_FULL and leaves it. -/
theorem test_strPush :
    (nextOf (run1 { idle with str := [0x41#16] } 0x02000042 0 0 0)).map (fun t => (t.err, t.str)) =
      some (.ok, [0x41#16, 0x42#16]) ∧
    (nextOf (run1 { idleWith { Config.Params.default with strMax := 2 } with str := [0x41#16, 0x42#16] } 0x02000043 0 0 0)).map
      (fun t => (t.err, t.str)) = some (.strFull, [0x41#16, 0x42#16]) := by decide +kernel
/-- V-HE-1: the first entries of the default scrambling table. -/
theorem test_scramble_table :
    (tableFrom .default 2 Config.Params.default.tseed) = [0xCFB2B99D0CDB12A6#64, 0xD219E697E4AD6E46#64] := by decide +kernel
/-- V-HE-3: HE_HASH 0 on "A". -/
theorem test_heHash :
    outcomeOf (run1 { idle with str := [0x41#16] } 0x08000000 0 0 0) = some (.ok, false, 0x2A204A7E#32, 0xD6A14E84#32) := by
  decide +kernel
/-- V-BF-1: the corners of BF_CONFIG. -/
theorem test_bfConfig :
    filterAfter (run1 idle 0x10000000 31 8 0) = some (.ok, 0x0000081F#32, []) ∧
    filterAfter (run1 (filterOf 8 3 [83] []) 0x10000000 0xFFFFFFFF 3 0) = some (.invalidParam, 0x00000308#32, [83]) := by
  decide +kernel
/-- V-BF-1: INVALID_PARAM comes before RESOURCE. -/
theorem test_bfConfig_check_order :
    filterAfter (run1 (idleWith { Config.Params.default with bfMaxLog2 := 20 }) 0x10000000 40 3 0) = some (.invalidParam, 0, []) ∧
    filterAfter (run1 (idleWith { Config.Params.default with bfMaxLog2 := 20 }) 0x10000000 21 3 0) = some (.resource, 0, []) := by
  decide +kernel
/-- V-BF-2: the product 17 needs L = 5, a negative product gives L = 4. -/
theorem test_bfConfigSized :
    filterAfter (run1 idle 0x11000000 17 1 3) = some (.ok, 0x00000305#32, []) ∧
    filterAfter (run1 idle 0x11000000 0xFFFFFFFD 7 3) = some (.ok, 0x00000304#32, []) := by decide +kernel
/-- V-BF-2: 65535·32768 gives L = 31; 46341·46341 is rejected and not wrapped. -/
theorem test_bfConfigSized_product :
    filterAfter (run1 idle 0x11000000 65535 32768 3) = some (.ok, 0x0000031F#32, []) ∧
    filterAfter (run1 idle 0x11000000 46341 46341 3) = some (.invalidParam, 0, []) := by decide +kernel
/-- V-BF-3: probe 0 of "A" at log2Bits 8 is 126. -/
theorem test_bfAdd :
    filterAfter (run1 (filterOf 8 1 [83] [0x41#16]) 0x12000000 0 0 0) = some (.ok, 0x00000108#32, [83, 126]) := by
  decide +kernel
/-- V-BF-3: probe 0 of "AB" is 65, which is not set; that of "A" is. -/
theorem test_bfContains :
    outcomeOf (run1 (filterOf 8 1 [126] [0x41#16]) 0x13000000 0 0 0) = some (.ok, true, 0, 0) ∧
    outcomeOf (run1 (filterOf 8 1 [126] [0x41#16, 0x42#16]) 0x13000000 0 0 0) = some (.ok, false, 0, 0) := by decide +kernel
/-- P1: word 3 of the end state; V-BF-4: word 8 of a 256-bit filter is out of range. -/
theorem test_bfReadWord :
    outcomeOf (run1 (filterOf 8 3 [83, 124, 126, 154, 229, 230] []) 0x14000000 3 0 0) =
      some (.ok, false, 0x50000000#32, 0) ∧
    outcomeOf (run1 (filterOf 8 3 [] []) 0x14000000 8 0 0) = some (.invalidParam, false, 0, 0) := by decide +kernel
/-- V-CK-2: CK_INIT, also from FAILED; a capacity beyond CAP_MAX is RESOURCE, -2^31 is INVALID_PARAM. -/
theorem test_ckInit :
    tableOf (run1 { idle with ckMode := .failed, capacity := 7 } 0x20000000 10 0 0) = some (.ok, .ready, 10, []) ∧
    tableOf (run1 idle 0x20000000 1048576 0 0) = some (.resource, .uninit, 0, []) ∧
    tableOf (run1 idle 0x20000000 0x80000000 0 0) = some (.invalidParam, .uninit, 0, []) := by
  refine ⟨?_, ?_, ?_⟩ <;> decide +kernel
/-- V-CK-8, put 5: (C,HH) grows 10 → 21 → 43. -/
theorem test_ckPut_cascade :
    tableOf (run1 (tableWith .default 10 [(4, ⟨65, 0x4141⟩), (5, ⟨65, 0x4C4C⟩), (6, ⟨66, 0x4242⟩), (7, ⟨67, 0x4343⟩)])
        0x21000000 67 0x4848 0) =
      some (.ok, .ready, 43,
        [(6, ⟨65, 0x4C4C⟩), (8, ⟨67, 0x4343⟩), (22, ⟨65, 0x4141⟩), (23, ⟨66, 0x4242⟩), (24, ⟨67, 0x4848⟩)]) := by
  decide +kernel
/-- V-CK-DUP, case 1, under both values of DUP_PRECHECK. -/
theorem test_ckPut_duplicate :
    tableOf (run1 (tableWith .default 3 [(0, ⟨1, 2⟩), (1, ⟨1, 0⟩), (2, ⟨0, 0⟩)]) 0x21000000 0 0 0) =
      some (.ok, .ready, 3, [(0, ⟨1, 2⟩), (1, ⟨1, 0⟩), (2, ⟨0, 0⟩)]) ∧
    tableOf (run1 (tableWith { Config.Params.default with dupPrecheck := false } 3 [(0, ⟨1, 2⟩), (1, ⟨1, 0⟩), (2, ⟨0, 0⟩)])
        0x21000000 0 0 0) =
      some (.ok, .ready, 7, [(0, ⟨1, 0⟩), (1, ⟨1, 2⟩), (6, ⟨0, 0⟩)]) := by
  refine ⟨?_, ?_⟩ <;> decide +kernel
/-- V-CK-6, step 4: CAP_MAX 7, the third pair under one key ends in FAILED at capacity 7. -/
theorem test_ckPut_exhausts :
    (nextOf (run1 (tableWith { Config.Params.default with capMax := 7 } 3 [(1, ⟨5, 2⟩), (2, ⟨5, 1⟩)]) 0x21000000 5 3 0)).map
      (fun t => (t.err, t.ckMode, t.capacity, (readReg .status t).1)) = some (.capExhausted, .failed, 7, 0x00000608#32) := by
  decide +kernel
/-- V-CK-3, steps 13 and 7: found at h2; slot 0 holds another key. -/
theorem test_ckGet :
    outcomeOf (run1 (tableWith .default 10 [(0, ⟨0xFFFFFFFF, 7⟩), (1, ⟨1, 8⟩)]) 0x22000000 0xFFFFFFFF 0 0) =
      some (.ok, true, 7, 0) ∧
    outcomeOf (run1 (tableWith .default 10 [(0, ⟨0, 0⟩)]) 0x22000000 10 0 0) = some (.ok, false, 0, 0) := by decide +kernel
/-- V-CK-3, steps 8 and 9: the value must match; the slot becomes Empty. -/
theorem test_ckRemove :
    (nextOf (run1 (tableWith .default 10 [(0, ⟨0, 0⟩)]) 0x23000000 0 1 0)).map (fun t => (t.result, t.slots)) =
      some (false, [(0, ⟨0, 0⟩)]) ∧
    (nextOf (run1 (tableWith .default 10 [(0, ⟨0, 0⟩)]) 0x23000000 0 0 0)).map (fun t => (t.result, t.slots)) =
      some (true, []) := by decide +kernel
/-- V-CK-3, step 15, and V-CK-6, step 6. -/
theorem test_ckSize :
    outcomeOf (run1 (tableWith .default 10 [(0, ⟨0xFFFFFFFF, 7⟩), (1, ⟨1, 8⟩), (8, ⟨0x80000000, 9⟩)]) 0x24000000 0 0 0) =
      some (.ok, false, 3, 0) ∧
    outcomeOf (run1 { idle with ckMode := .failed, capacity := 7 } 0x24000000 0 0 0) = some (.unitFailed, false, 0, 0) := by
  decide +kernel
/-- V-CK-3, step 17: the capacity stays. -/
theorem test_ckClear :
    tableOf (run1 (tableWith .default 10 [(0, ⟨0xFFFFFFFF, 7⟩), (1, ⟨1, 8⟩)]) 0x25000000 0 0 0) =
      some (.ok, .ready, 10, []) := by decide +kernel
/-- V-CK-3, step 16, and V-CK-2: NOT_CONFIGURED before any CK_INIT. -/
theorem test_ckCapacity :
    outcomeOf (run1 (tableWith .default 10 []) 0x26000000 0 0 0) = some (.ok, false, 10, 0) ∧
    outcomeOf (run1 idle 0x26000000 0 0 0) = some (.notConfigured, false, 0, 0) := by decide +kernel
/-- V-CK-3, steps 2 and 5: key 0 and value 0 is told from Empty by RESULT only; the index is unsigned. -/
theorem test_ckReadSlot :
    outcomeOf (run1 (tableWith .default 10 [(0, ⟨0, 0⟩)]) 0x27000000 0 0 0) = some (.ok, true, 0, 0) ∧
    outcomeOf (run1 (tableWith .default 10 [(0, ⟨0, 0⟩)]) 0x27000000 0xFFFFFFFF 0 0) =
      some (.invalidParam, false, 0, 0) := by decide +kernel
/-- V-CK-1: candidate slots, the most negative key among them. -/
theorem test_candidate_slots :
    (h1 .default 87 67, h2 .default 87 67) = (67, 0) ∧ (h1 .default 43 0x80000000, h2 .default 43 0x80000000) = (8, 35) ∧
    (h1 .default 37 66, h2 .default 37 66) = (29, 29) := by decide +kernel
/-- LOADSTR of "€" and of a character beyond the basic plane (R76; V-HE-2). -/
theorem test_utf16 : utf16Units ['€', '😀'] = [0x20AC#16, 0xD83D#16, 0xDE00#16] := by decide +kernel

/-! ## Witnesses: for the hypotheses of every obligation, a state and operands that meet them -/

/-- A table in good order in an idle engine meets the invariant. -/
theorem inv_tableWith (c : Nat) (m : SlotStore) (hc : 1 ≤ c ∧ c ≤ 1048575) (hwf : SlotStore.wf m)
    (hm : ∀ e ∈ m, e.1 < c ∧ (e.1 = h1 .default c e.2.key ∨ e.1 = h2 .default c e.2.key))
    (hd : (SlotStore.pairs m).Nodup) : Inv (tableWith .default c m) where
  cfg := (by decide : Config.Params.default.wellFormed = true)
  str := Nat.zero_le _
  bloom :=
    { unconfigured := fun _ => ⟨rfl, rfl⟩
      log2Bits_range := fun h => by cases h
      k_range := fun h => by cases h
      bits_range := fun h => by cases h
      canonical := List.Pairwise.nil }
  cuckoo :=
    { uninit := fun h => by cases h
      capacity_range := fun _ => hc
      slots_range := fun _ i q h => (hm _ h).1
      canonical := hwf
      reachable := fun _ i q h => (hm _ h).2
      distinct := fun _ _ => hd }
  tab := fun _ => rfl
  hidden := fun _ _ h => by cases h

/-- Acceptance keeps the invariant of an idle engine, with any operands. -/
theorem inv_accept {s : State} (h : Inv s) (hi : s.phase = .idle) (a0 a1 a2 : Word) (w : Word) :
    Inv ((withArgs s a0 a1 a2).accept w) where
  cfg := h.cfg
  str := h.str
  bloom := ⟨h.bloom.unconfigured, h.bloom.log2Bits_range, h.bloom.k_range, h.bloom.bits_range, h.bloom.canonical⟩
  cuckoo := ⟨h.cuckoo.uninit, h.cuckoo.capacity_range, h.cuckoo.slots_range, h.cuckoo.canonical, h.cuckoo.reachable,
    h.cuckoo.distinct⟩
  tab := fun _ => h.tab (by rw [hi]; simp)
  hidden := fun _ _ hp => by cases hp

/-- An issued command in a given state, with its operands. -/
def issued (s : State) (w : Word) (a0 a1 a2 : Word) : State := (withArgs s a0 a1 a2).accept w

/-- A table at capacity 10 with (A,AA) at its second slot and (A,LL) at its first (V-CK-8, after put 2). -/
def twoPairs : State := tableWith .default 10 [(4, ⟨65, 0x4141⟩), (5, ⟨65, 0x4C4C⟩)]

theorem inv_twoPairs : Inv twoPairs :=
  inv_tableWith 10 _ (by decide) (by decide) (by decide) (by decide)

/-- A full table of capacity 1 in an engine without the duplicate pre-check. -/
def noPrecheck : State := tableWith { Config.Params.default with dupPrecheck := false } 1 [(0, ⟨5, 1⟩)]

/-- The same table with a command on it in progress. -/
theorem inv_twoPairs_issued (w a0 a1 a2 : Word) : Inv (issued twoPairs w a0 a1 a2) := inv_accept inv_twoPairs rfl a0 a1 a2 w

theorem witness_DecodeOfEncodeIsTheCommand : (Instr.strPush 0xFFFF#16).wellFormed = true := by decide
theorem witness_EncodeOfDecodeIsTheWord : decode 0x08000007#32 = .ok (.heHash 7#3) := rfl
/-- Both ends of every reserved range; a reserved bit of each kind; acceptance; completion. -/
theorem witness_IllegalWordsCompleteWithIllegal :
    (∀ o ∈ [0x03, 0x07, 0x09, 0x0F, 0x15, 0x1F, 0x28, 0xFF],
      0x03 ≤ o ∧ o ≤ 0x07 ∨ 0x09 ≤ o ∧ o ≤ 0x0F ∨ 0x15 ≤ o ∧ o ≤ 0x1F ∨ 0x28 ≤ o) ∧
    (opcodeOf 0x02010000#32 = 0x02#8 ∧ (imm24Of 0x02010000#32).extractLsb' 16 8 ≠ 0#8) ∧
    (opcodeOf 0x08000008#32 = 0x08#8 ∧ (imm24Of 0x08000008#32).extractLsb' 3 21 ≠ 0#21) ∧
    (opcodeOf 0x27000001#32 ≠ 0x02#8 ∧ opcodeOf 0x27000001#32 ≠ 0x08#8 ∧ imm24Of 0x27000001#32 ≠ 0#24) ∧
    idle.busy = false ∧
    (issued idle 0x03000000 0 0 0).phase = .command ⟨0x03000000, 0, 0, 0⟩ none ∧
    decode 0x03000000#32 = .error .reservedOpcode := by
  refine ⟨by decide, by decide, by decide, by decide, rfl, rfl, rfl⟩
theorem witness_StepRunsTheDecodedCommand :
    (issued idle 0x24000000 0 0 0).cfg.wellFormed = true ∧ (issued idle 0x24000000 0 0 0).nextTurn = .engine ∧
    (issued idle 0x24000000 0 0 0).phase = .command ⟨0x24000000, 0, 0, 0⟩ none ∧ decode 0x24000000#32 = .ok .ckSize :=
  ⟨by decide, rfl, rfl, rfl⟩
theorem witness_IssuedWordRunsNext :
    State.reset.cfg.wellFormed = true ∧ decodeTableWord 32 0x21000000 = some .ckPut := ⟨by decide, rfl⟩
theorem witness_BusyEngineCompletes :
    State.reset.cfg.wellFormed = true ∧ State.reset.busy = true ∧ State.reset.sched = [] := ⟨by decide, rfl, rfl⟩
theorem witness_AcceptanceLatchesTheCommand : idle.busy = false ∧ decode 0x12000000#32 = .ok .bfAdd := ⟨rfl, rfl⟩
theorem witness_CommandWriteWhileBusyIsDropped :
    State.reset.busy = true ∧ idle.busy = false ∧ (4#32).getLsbD 2 = true ∧ (3#32).getLsbD 2 = false :=
  ⟨rfl, rfl, by decide, by decide⟩
theorem witness_OperandWritesDoNotDisturbTheCommand :
    (issued twoPairs 0x22000000 65 0 0).phase = .command ⟨0x22000000, 65, 0, 0⟩ none ∧
    Reg.arg2 ∈ [Reg.arg0, Reg.arg1, Reg.arg2] ∧ ∃ t, exec .ckGet (issued twoPairs 0x22000000 65 0 0) = .next t := by
  refine ⟨rfl, by simp, ?_⟩
  obtain ⟨t, h, -⟩ := exec_next .ckGet (issued twoPairs 0x22000000 65 0 0)
  exact ⟨t, h⟩
theorem witness_ReadsWhileBusy : State.reset.busy = true ∧ (issued idle 0 0 0 0).busy = true := ⟨rfl, rfl⟩
theorem witness_ReadsWhileIdle : twoPairs.busy = false ∧ Inv twoPairs ∧ twoPairs.bfReady = false := ⟨rfl, inv_twoPairs, rfl⟩
theorem witness_ReadOnlyRegistersIgnoreWrites :
    Reg.id ∉ [Reg.cmd, .status, .arg0, .arg1, .arg2] ∧ Reg.reserved3C ∉ [Reg.cmd, .status, .arg0, .arg1, .arg2] := by decide
theorem witness_ParametersNeverChange : ∃ t, step State.reset = .next t := ⟨_, rfl⟩
theorem witness_OnlyAlignedWordAccessesExist :
    (∀ r : Reg, ¬ (2 = 4 ∧ 4 = ({ idle with host := [.rd 4 2] } : State).cfg.engineBase + r.offset)) ∧
    ({ idle with host := [.rd 4 2] } : State).host = [.rd 4 2] := ⟨by simp, rfl⟩
/-- OVR set by a dropped CMD write; OVR cleared by a STATUS write. -/
theorem witness_OverrunFlagChangesOnlyAsStated :
    State.reset.busy = true ∧ (∃ t, exec .nop idle = .next t) ∧
    (∃ t, step { issued idle 0 0 0 0 with host := [hostWr 0 .cmd 5], sched := [.host] } = .next t ∧
      (issued idle 0 0 0 0).ovr = false ∧ t.ovr = true) ∧
    (∃ t, step { idle with ovr := true, host := [hostWr 0 .status 4] } = .next t ∧ t.ovr = false) :=
  ⟨rfl, ⟨_, rfl⟩, ⟨_, rfl, rfl, rfl⟩, ⟨_, rfl, rfl⟩⟩
theorem witness_ResetAbandonsTheCommandAndInitialises :
    (({ issued idle 0x21000000 1 2 0 with sched := [.reset] } : State).cfg.wellFormed = true ∧
      ({ issued idle 0x21000000 1 2 0 with sched := [.reset] } : State).nextTurn = .reset) ∧
    State.reset.phase = .init := ⟨⟨by decide, rfl⟩, rfl⟩
theorem witness_ScramblingTableRecurrence : 0 + 1 < 2048 ∧ 2046 + 1 < 2048 := by decide
theorem witness_HashFoldsLowByteThenHighByte : 0 < 8 ∧ 7 < 8 := by decide
theorem witness_StrPushCompletes :
    (0x010000#24).extractLsb' 16 8 ≠ 0#8 ∧ idle.str.length ≠ idle.cfg.strMax ∧
    ({ idleWith { Config.Params.default with strMax := 1 } with str := [0x41#16] } : State).str.length = 1 := by decide
theorem witness_HeHashCompletes : (0x000008#24).extractLsb' 3 21 ≠ 0#21 := by decide
/-- The smallest and the largest filter; an operand just below and just above each range; one above BF_MAX_LOG2. -/
theorem witness_BfConfigCompletes :
    (∀ a ∈ [((1#32).toInt, (1#32).toInt), ((31#32).toInt, (8#32).toInt)],
      (1 ≤ a.1 ∧ a.1 ≤ 31) ∧ (1 ≤ a.2 ∧ a.2 ≤ 8) ∧ a.1 ≤ Config.Params.default.bfMaxLog2) ∧
    (∀ a ∈ [((0#32).toInt, (3#32).toInt), ((32#32).toInt, (3#32).toInt), ((8#32).toInt, (0#32).toInt),
        ((8#32).toInt, (9#32).toInt)], ¬ (1 ≤ a.1 ∧ a.1 ≤ 31 ∧ 1 ≤ a.2 ∧ a.2 ≤ 8)) ∧
    (1 ≤ (21#32).toInt ∧ (21#32).toInt ≤ 31) ∧ (20 : Int) < (21#32).toInt := by decide
/-- A product of 16 with L = 4, and one of 2^31 - 1 with L = 31; L above BF_MAX_LOG2 = 12; a product of 2^31. -/
theorem witness_BfConfigSizedCompletes :
    ((2#32).toInt * (8#32).toInt ≤ 2 ^ 4 ∧ ∀ L', 4 ≤ L' → (2#32).toInt * (8#32).toInt ≤ 2 ^ L' → 4 ≤ L') ∧
    ((0x7FFFFFFF#32).toInt * (1#32).toInt ≤ 2 ^ 31 - 1 ∧ (0x7FFFFFFF#32).toInt * (1#32).toInt ≤ 2 ^ 31 ∧
      ∀ L', 4 ≤ L' → (0x7FFFFFFF#32).toInt * (1#32).toInt ≤ 2 ^ L' → 31 ≤ L') ∧
    (12 < 31) ∧ ¬ ((65536#32).toInt * (32768#32).toInt ≤ 2 ^ 31 - 1) ∧ (1 ≤ (8#32).toInt ∧ (8#32).toInt ≤ 8) := by
  refine ⟨⟨by decide, fun L' h _ => h⟩, ⟨by decide, by decide, fun L' _ h => ?_⟩, by decide, by decide, by decide⟩
  by_contra hlt
  have h2 : (2 : Int) ^ L' ≤ 2 ^ 30 := pow_le_pow_right₀ (by decide) (by omega)
  have h3 : (0x7FFFFFFF#32).toInt * (1#32).toInt = 2147483647 := by decide
  rw [h3] at h
  norm_num at h2
  omega
theorem witness_ConfigurationMakesAnEmptyFilter :
    (∃ t, exec .bfConfig (issued idle 0x10000000 8 3 0) = .next t ∧ t.err = .ok) ∧
    (∃ t, exec .bfConfig (issued idle 0x10000000 0 3 0) = .next t ∧ t.err ≠ .ok) ∧
    (∃ t, exec .nop (issued idle 0 0 0 0) = .next t) := by
  refine ⟨⟨_, rfl, rfl⟩, ⟨_, rfl, by decide⟩, ⟨_, rfl⟩⟩
theorem witness_ProbesAreInRange :
    (filterOf 31 8 [] []).log2Bits ≤ 31 ∧ 7 < (filterOf 31 8 [] []).k ∧ (filterOf 31 8 [] []).str = [] := by decide
theorem witness_BfAddSetsTheProbes :
    (filterOf 1 1 [] []).bfReady = true ∧ BitStore.wf (filterOf 8 3 [83, 126] []).bits ∧ idle.bfReady = false :=
  ⟨rfl, by decide, rfl⟩
theorem witness_BfContainsCompletes : (filterOf 1 1 [] []).bfReady = true ∧ idle.bfReady = false := ⟨rfl, rfl⟩
/-- The last word of a 256-bit filter and the first beyond it; the one word of a 2-bit filter. -/
theorem witness_BfReadWordCompletes :
    (issued (filterOf 8 3 [] []) 0x14000000 7 0 0).larg0.toNat < 2 ^ (8 - 5) ∧
    2 ^ (8 - 5) ≤ (issued (filterOf 8 3 [] []) 0x14000000 8 0 0).larg0.toNat ∧
    (issued (filterOf 1 1 [] []) 0x14000000 0 0 0).larg0.toNat < 2 ^ (1 - 5) ∧ idle.bfReady = false := by decide
theorem witness_BloomBitsAreNeverCleared :
    (∃ t, step (issued (filterOf 8 1 [5] []) 0 0 0 0) = .next t) ∧
    ¬ (issued (filterOf 8 1 [5] []) 0 0 0 0).renewsBloom ∧ bitRead (filterOf 8 1 [5] []).bits 5 = true := by
  refine ⟨⟨_, rfl⟩, ?_, by decide⟩
  rintro (h | ⟨h | h, -⟩) <;> exact absurd h (by decide)
theorem witness_NoFalseNegatives :
    ∃ t u v, exec .bfAdd (filterOf 8 1 [] []) = .next t ∧ t.err = .ok ∧ RunWithout State.renewsBloom t u ∧
      u.str = (filterOf 8 1 [] []).str ∧ exec .bfContains u = .next v := by
  obtain ⟨v, hv, -⟩ := exec_next .bfContains
    { filterOf 8 1 [] [] with bits := (filterOf 8 1 [] []).probes.foldl bitSet [], err := .ok, result := false }
  exact ⟨_, _, v, rfl, rfl, .refl _, rfl, hv⟩
theorem witness_CandidateSlots : 1 ≤ 1 ∧ 17 ∣ 629 ∧ Config.Params.default.khash = .sext ∧
    h1 .default 10 (1 : Word) = h1 .default 10 0xFFFFFFFF := by decide
/-- Both modes of the gate (also those of every GatedOut clause), and an illegal word of a Cuckoo opcode. -/
theorem witness_CuckooModeGate :
    Instr.ckGet ∈ [Instr.ckPut, .ckGet, .ckRemove, .ckSize, .ckClear, .ckCapacity, .ckReadSlot] ∧ idle.ckMode = .uninit ∧
    ({ idle with ckMode := .failed, capacity := 7 } : State).ckMode = .failed ∧
    decode 0x22000001#32 = .error .reservedImmediate ∧
    (issued idle 0x22000001 0 0 0).phase = .command ⟨0x22000001, 0, 0, 0⟩ none := ⟨by decide, rfl, rfl, rfl, rfl⟩
theorem witness_EvenMultiplierIsRefused :
    (State.resetWith { Config.Params.default with hmult := 2#64 }).cfg.hmult.toNat % 2 = 0 := by decide
/-- The premises of every EncodedOnlyAs clause: a nonzero immediate, in progress. -/
theorem witness_EncodedOnlyAs :
    (1#24) ≠ 0 ∧ (issued idle (commandWord 0x24#8 1) 0 0 0).phase = .command ⟨commandWord 0x24#8 1, 0, 0, 0⟩ none :=
  ⟨by decide, rfl⟩
/-- The least and the greatest capacity; 0 and -2^31; one above CAP_MAX. -/
theorem witness_CkInitCompletes :
    (∀ a ∈ [(1#32).toInt, (1048575#32).toInt], 1 ≤ a ∧ a ≤ idle.cfg.capMax) ∧ (0#32).toInt ≤ 0 ∧
    (0x80000000#32).toInt ≤ 0 ∧ 1 ≤ (1048576#32).toInt ∧ idle.cfg.capMax < (1048576#32).toInt ∧
    (∃ t, exec .ckInit (issued { idle with ckMode := .failed, capacity := 7 } 0x20000000 3 0 0) = .next t ∧
      t.ckMode ≠ .failed) := by
  refine ⟨by decide, by decide, by decide, by decide, by decide, ⟨_, rfl, by decide⟩⟩
/-- A put that ends seated, and (CAP_MAX 7, V-CK-6) one that ends by FAIL. -/
theorem witness_CkPutCompletes :
    twoPairs.ckMode = .ready ∧
    finishPut .default (issued twoPairs 0x21000000 66 0x4242 0).putWork =
      .seated 10 [(4, ⟨65, 0x4141⟩), (5, ⟨65, 0x4C4C⟩), (6, ⟨66, 0x4242⟩)] ∧
    finishPut { Config.Params.default with capMax := 7 }
      (issued (tableWith { Config.Params.default with capMax := 7 } 3 [(1, ⟨5, 2⟩), (2, ⟨5, 1⟩)]) 0x21000000 5 3 0).putWork =
      .exhausted 7 := by
  refine ⟨rfl, ?_, ?_⟩ <;> decide +kernel
theorem witness_CkPutSeatsInEmptyPrimarySlot :
    (issued twoPairs 0x21000000 66 0x4242 0).phase = .command ⟨0x21000000, 66, 0x4242, 0⟩ none ∧ twoPairs.ckMode = .ready ∧
    1 ≤ twoPairs.capacity ∧ slotRead twoPairs.slots (h1 .default 10 66) = none ∧
    slotRead twoPairs.slots (h2 .default 10 66) ≠ some ⟨66, 0x4242⟩ := by
  refine ⟨rfl, rfl, by decide, by decide, by decide⟩
/-- V-CK-8, put 2. -/
theorem witness_CkPutDisplacesToTheAlternateSlot :
    (issued (tableWith .default 10 [(5, ⟨65, 0x4141⟩)]) 0x21000000 65 0x4C4C 0).phase =
      .command ⟨0x21000000, 65, 0x4C4C, 0⟩ none ∧
    slotRead [(5, ⟨65, 0x4141⟩)] (h1 .default 10 65) = some ⟨65, 0x4141⟩ ∧ (⟨65, 0x4141⟩ : Pair) ≠ ⟨65, 0x4C4C⟩ ∧
    slotRead [(5, ⟨65, 0x4141⟩)] (h2 .default 10 65) ≠ some ⟨65, 0x4C4C⟩ ∧
    alt .default 10 65 (h1 .default 10 65) ≠ h1 .default 10 65 ∧
    slotRead [(5, ⟨65, 0x4141⟩)] (alt .default 10 65 (h1 .default 10 65)) = none := by
  refine ⟨rfl, by decide, by decide, by decide, by decide, by decide⟩
/-- The pair at its first slot, and one at its second; the pair at its first slot without the pre-check, at capacity 1. -/
theorem witness_CkPutOfPresentPairChangesNothing :
    (issued twoPairs 0x21000000 65 0x4C4C 0).phase = .command ⟨0x21000000, 65, 0x4C4C, 0⟩ none ∧ twoPairs.ckMode = .ready ∧
    twoPairs.cfg.dupPrecheck = true ∧ slotRead twoPairs.slots (h1 .default 10 65) = some ⟨65, 0x4C4C⟩ ∧
    slotRead twoPairs.slots (h2 .default 10 65) = some ⟨65, 0x4141⟩ ∧ 1 ≤ noPrecheck.capacity ∧
    noPrecheck.ckMode = .ready ∧ noPrecheck.cfg.dupPrecheck = false ∧
    (issued noPrecheck 0x21000000 5 1 0).phase = .command ⟨0x21000000, 5, 1, 0⟩ none ∧
    slotRead noPrecheck.slots (h1 noPrecheck.cfg 1 5) = some ⟨5, 1⟩ := by
  refine ⟨rfl, rfl, rfl, by decide, by decide, by decide, rfl, rfl, rfl, by decide⟩
/-- A slot that is Empty, one that holds the same pair, one that holds another; a pair that is PRESENT and one that is not;
a worklist that is seated; one stuck at capacity 1 that grows; one stuck at capacity 1 with CAP_MAX 1. -/
theorem witness_WorklistLoopGrowsWithinCapMax :
    (issued twoPairs 0x21000000 66 0x4242 0).phase = .command ⟨0x21000000, 66, 0x4242, 0⟩ none ∧
    (slotRead twoPairs.slots 0 = none ∧ slotRead twoPairs.slots 5 = some ⟨65, 0x4C4C⟩ ∧
      slotRead twoPairs.slots 4 = some ⟨65, 0x4141⟩ ∧ (⟨65, 0x4141⟩ : Pair) ≠ ⟨65, 0x4C4C⟩) ∧
    (present .default 10 twoPairs.slots ⟨65, 0x4141⟩ = true ∧ present .default 1 [] ⟨5, 1⟩ = false ∧
      present .default 1 [(0, ⟨5, 1⟩)] ⟨5, 2⟩ = false) ∧
    (attempt .default 1 1 [] ⟨5, 1⟩ (h1 .default 1 5) = .seated [(0, ⟨5, 1⟩)] ∧
      attempt .default 1 1 [(0, ⟨5, 1⟩)] ⟨5, 2⟩ (h1 .default 1 5) = .unseated [(0, ⟨5, 2⟩)] ⟨5, 1⟩) ∧
    settle .default ⟨1, [], [⟨5, 1⟩], none⟩ = .all [(0, ⟨5, 1⟩)] ∧
    settle .default ⟨1, [(0, ⟨5, 1⟩)], [⟨5, 2⟩], none⟩ = .stuck [(0, ⟨5, 2⟩)] ⟨5, 1⟩ [] ∧
    2 * 1 + 1 ≤ Config.Params.default.capMax ∧ 2 * 1 + 1 > ({ Config.Params.default with capMax := 1 } : Config.Params).capMax := by
  refine ⟨rfl, by decide, by decide, by decide, by decide, by decide, by decide, by decide⟩
/-- Work in a row; work and host accesses mixed; a host's turn that goes on, and one that is refused. -/
theorem witness_HiddenWorkIsUnobservable :
    (issued twoPairs 0x21000000 65 0x4242 0).phase = .command ⟨0x21000000, 65, 0x4242, 0⟩ none ∧
    ({ issued twoPairs 0x21000000 65 0x4242 0 with sched := List.replicate 3 Turn.work } : State).sched =
      List.replicate 3 Turn.work ∧
    (∀ x ∈ [Turn.work, .host, .work], x = .work ∨ x = .host) ∧
    ({ issued twoPairs 0x21000000 65 0x4242 0 with sched := [Turn.work, .host, .work] ++ [.engine] } : State).sched =
      [Turn.work, .host, .work] ++ [.engine] ∧
    (∃ t, hostTurn { issued twoPairs 0x21000000 65 0x4242 0 with host := [hostWr 0 .arg0 7] } = .next t) ∧
    ∃ f, hostTurn { issued twoPairs 0x21000000 65 0x4242 0 with host := [.rd 2 4] } = .refused f :=
  ⟨rfl, rfl, by decide, rfl, ⟨_, rfl⟩, ⟨_, rfl⟩⟩
theorem witness_CkPutAddsThePairAndLosesNone :
    Inv (issued twoPairs 0x21000000 66 0x4242 0) ∧ (issued twoPairs 0x21000000 66 0x4242 0).ckMode = .ready ∧
    (∃ t, exec .ckPut (issued twoPairs 0x21000000 66 0x4242 0) = .next t ∧ t.err = .ok) ∧ twoPairs.cfg.dupPrecheck = true ∧
    (∃ i, slotRead twoPairs.slots i = some ⟨65, 0x4C4C⟩) ∧ ∀ i, slotRead twoPairs.slots i ≠ some ⟨66, 0x4242⟩ := by
  refine ⟨inv_twoPairs_issued _ _ _ _, rfl, ⟨_, rfl, rfl⟩, rfl, ⟨5, rfl⟩, fun i h => ?_⟩
  have := mem_of_slotRead h
  simp [twoPairs, tableWith] at this
theorem witness_CapacityOnlyGrowsByTheGrowthRule :
    Inv (issued twoPairs 0x24000000 0 0 0) ∧ Instr.ckSize ≠ .ckInit ∧
    ∃ t, exec .ckSize (issued twoPairs 0x24000000 0 0 0) = .next t :=
  ⟨inv_twoPairs_issued _ _ _ _, by decide, ⟨_, rfl⟩⟩
/-- Found at h1; found at h2 only; absent. -/
theorem witness_CkGetCompletes :
    twoPairs.ckMode = .ready ∧ slotRead twoPairs.slots (h1 .default 10 65) = some ⟨65, 0x4C4C⟩ ∧
    ((∀ v, slotRead [(4, ⟨65, 0x4141⟩)] (h1 .default 10 65) ≠ some ⟨65, v⟩) ∧
      slotRead [(4, ⟨65, 0x4141⟩)] (h2 .default 10 65) = some ⟨65, 0x4141⟩) ∧
    (∀ v, slotRead twoPairs.slots (h1 .default 10 90) ≠ some ⟨90, v⟩) ∧
    (∀ v, slotRead twoPairs.slots (h2 .default 10 90) ≠ some ⟨90, v⟩) := by
  have e1 : slotRead [(4, (⟨65, 0x4141⟩ : Pair))] (h1 .default 10 65) = none := by decide
  have e2 : slotRead twoPairs.slots (h1 .default 10 90) = none := by decide
  have e3 : slotRead twoPairs.slots (h2 .default 10 90) = none := by decide
  refine ⟨rfl, by decide, ⟨fun v => by rw [e1]; simp, by decide⟩, fun v => by rw [e2]; simp, fun v => by rw [e3]; simp⟩
theorem witness_CkGetFindsEveryHeldKey :
    Inv (issued twoPairs 0x22000000 65 0 0) ∧ twoPairs.ckMode = .ready ∧
    slotRead twoPairs.slots 4 = some ⟨(issued twoPairs 0x22000000 65 0 0).larg0, 0x4141⟩ :=
  ⟨inv_twoPairs_issued _ _ _ _, rfl, rfl⟩
/-- At h1; at h2 only; absent. -/
theorem witness_CkRemoveCompletes :
    twoPairs.ckMode = .ready ∧ SlotStore.wf twoPairs.slots ∧
    slotRead twoPairs.slots (h1 .default 10 65) = some ⟨65, 0x4C4C⟩ ∧
    (slotRead twoPairs.slots (h1 .default 10 65) ≠ some ⟨65, 0x4141⟩ ∧
      slotRead twoPairs.slots (h2 .default 10 65) = some ⟨65, 0x4141⟩) ∧
    (slotRead twoPairs.slots (h1 .default 10 65) ≠ some ⟨65, 7⟩ ∧ slotRead twoPairs.slots (h2 .default 10 65) ≠ some ⟨65, 7⟩) := by
  refine ⟨rfl, by decide, by decide, by decide, by decide⟩
theorem witness_RemovedPairIsGone :
    Inv (issued twoPairs 0x23000000 65 0x4141 0) ∧ twoPairs.ckMode = .ready ∧ twoPairs.cfg.dupPrecheck = true ∧
    ∃ t, exec .ckRemove (issued twoPairs 0x23000000 65 0x4141 0) = .next t ∧ t.result = true ∧
      ∃ u, exec .ckGet { t with phase := .command ⟨0x22000000, 65, 0, 0⟩ none } = .next u :=
  ⟨inv_twoPairs_issued _ _ _ _, rfl, rfl, ⟨_, rfl, rfl, ⟨_, rfl⟩⟩⟩
/-- The last slot of the table and the first index beyond it; an Occupied slot and an Empty one. -/
theorem witness_CkReadOutsComplete :
    twoPairs.ckMode = .ready ∧ SlotStore.wf twoPairs.slots ∧
    twoPairs.capacity ≤ (issued twoPairs 0x27000000 10 0 0).larg0.toNat ∧
    (issued twoPairs 0x27000000 9 0 0).larg0.toNat < twoPairs.capacity ∧ slotRead twoPairs.slots 9 = none ∧
    (issued twoPairs 0x27000000 5 0 0).larg0.toNat < twoPairs.capacity ∧ slotRead twoPairs.slots 5 = some ⟨65, 0x4C4C⟩ := by
  refine ⟨rfl, by decide, by decide, by decide, by decide, by decide, by decide⟩
theorem witness_CkClearCompletes : twoPairs.ckMode = .ready := rfl
/-- A step of every command exists: none is an empty case; a command that is no Bloom command, and one that is no Cuckoo
command. -/
theorem witness_UnitsAreIndependent : (∀ i : Instr, ∃ t, exec i twoPairs = .next t) ∧
    Instr.ckGet ∉ [Instr.bfConfig, .bfConfigSized, .bfAdd, .bfContains, .bfReadWord] ∧
    Instr.bfAdd ∉ [Instr.ckInit, .ckPut, .ckGet, .ckRemove, .ckSize, .ckClear, .ckCapacity, .ckReadSlot] := by
  refine ⟨fun i => ?_, by decide, by decide⟩
  obtain ⟨t, h, -⟩ := exec_next i twoPairs
  exact ⟨t, h⟩
theorem witness_SlotsOutsideReadyAreUnobservable :
    idle.ckMode ≠ .ready ∧ idle.bfReady = false ∧ (∃ t, exec .ckInit (issued idle 0x20000000 10 0 0) = .next t) ∧
    (∃ t, exec .bfConfig (issued idle 0x10000000 8 3 0) = .next t) ∧
    ∃ t, exec .bfAdd (issued idle 0x12000000 0 0 0) = .next t :=
  ⟨by decide, rfl, ⟨_, rfl⟩, ⟨_, rfl⟩, ⟨_, rfl⟩⟩
/-- An error with no other effect, and CAP_EXHAUSTED. -/
theorem witness_ErrorsHaveNoOtherEffect :
    decode 0x03000000#32 = .error .reservedOpcode ∧
    (∃ t, exec .ckGet (issued idle 0x22000000 65 0 0) = .next t ∧ t.err ≠ .ok ∧ t.err ≠ .capExhausted) ∧
    (∃ t, exec .ckPut (issued (tableWith { Config.Params.default with capMax := 1 } 1 [(0, ⟨5, 1⟩)]) 0x21000000 5 2 0) =
      .next t ∧ t.err = .capExhausted) :=
  ⟨rfl, ⟨_, rfl, by decide, by decide⟩, ⟨_, rfl, rfl⟩⟩
theorem witness_ResultsAreWrittenByTheNamedCommands :
    ∃ t, exec .ckGet (issued twoPairs 0x22000000 65 0 0) = .next t ∧ t.result = true ∧ t.res0 ≠ twoPairs.res0 :=
  ⟨_, rfl, rfl, by decide⟩
/-- A unit in FAILED; a step that leaves FAILED by CK_INIT; a step that enters it. -/
theorem witness_FailedIsEnteredAndLeftAsStated :
    (∃ t, exec .ckInit (issued { idle with ckMode := .failed, capacity := 7 } 0x20000000 0 0 0) = .next t ∧ t.err ≠ .ok) ∧
    (∃ t, exec .nop (issued { idle with ckMode := .failed, capacity := 7 } 0 0 0 0) = .next t) ∧
    (∃ t, step (issued { idle with ckMode := .failed, capacity := 7 } 0x20000000 3 0 0) = .next t ∧ t.ckMode = .ready) ∧
    (∃ t, step (issued (tableWith { Config.Params.default with capMax := 1 } 1 [(0, ⟨5, 1⟩)]) 0x21000000 5 2 0) = .next t ∧
      (tableWith { Config.Params.default with capMax := 1 } 1 [(0, ⟨5, 1⟩)]).ckMode ≠ .failed ∧ t.ckMode = .failed) :=
  ⟨⟨_, rfl, by decide⟩, ⟨_, rfl⟩, ⟨_, rfl, rfl⟩, ⟨_, rfl, by decide, rfl⟩⟩
theorem witness_ResetMeetsTheInvariant : Config.Params.default.wellFormed = true := by decide
theorem witness_StepKeepsTheInvariant :
    Inv (issued twoPairs 0x21000000 66 0x4242 0) ∧ ∃ t, step (issued twoPairs 0x21000000 66 0x4242 0) = .next t :=
  ⟨inv_twoPairs_issued _ _ _ _, ⟨_, rfl⟩⟩
theorem witness_TraversalCollectsTheTable :
    ∀ what : Collect, ∃ s : State, Inv s ∧ s.phase = .idle ∧ s.ckMode = .ready ∧ s.sched = [] ∧
      s.host = hostTraverse s.cfg.engineBase what := by
  intro what
  refine ⟨{ twoPairs with host := hostTraverse 0 what }, ?_, rfl, rfl, rfl, rfl⟩
  have h := inv_twoPairs
  exact ⟨h.cfg, h.str,
    ⟨h.bloom.unconfigured, h.bloom.log2Bits_range, h.bloom.k_range, h.bloom.bits_range, h.bloom.canonical⟩,
    ⟨h.cuckoo.uninit, h.cuckoo.capacity_range, h.cuckoo.slots_range, h.cuckoo.canonical, h.cuckoo.reachable,
      h.cuckoo.distinct⟩, h.tab, fun c w hp => by cases hp⟩
theorem witness_SecondCommandIsDroppedOrAccepted :
    idle.cfg.wellFormed = true ∧ idle.phase = .idle ∧
    ({ idle with host := [hostWr 0 .cmd 0, hostWr 0 .cmd 0], sched := [.host, .engine, .host] } : State).host =
      [hostWr idle.cfg.engineBase .cmd 0, hostWr idle.cfg.engineBase .cmd 0] ∧
    ({ idle with sched := [.host, .host] } : State).sched = [.host, .host] := ⟨by decide, rfl, rfl, rfl⟩

end Sys2Proof.Tests
end

section
/-! The register window and the agents' turns (spec 10_state.md): what a host write of a register does, and what a turn of
each agent leaves of the parameters and of OVR. -/

namespace Sys2Proof.Machine

/-! ## BUSY and register writes -/

theorem State.busy_eq_false_iff {s : State} : s.busy = false ↔ s.phase = .idle := by
  unfold State.busy
  cases s.phase <;> simp

/-- Acceptance (R27). -/
theorem writeReg_cmd_of_idle {s : State} (h : s.busy = false) (w : Word) : writeReg .cmd w s = s.accept w := by
  simp [writeReg, h]

/-- A dropped CMD write (R24). -/
theorem writeReg_cmd_of_busy {s : State} (h : s.busy = true) (w : Word) : writeReg .cmd w s = { s with ovr := true } := by
  simp [writeReg, h]

/-- Only CMD, STATUS and ARG0 to ARG2 take a write (R22). -/
theorem writeReg_of_notMem {r : Reg} (h : r ∉ [Reg.cmd, .status, .arg0, .arg1, .arg2]) (v : Word) (s : State) :
    writeReg r v s = s := by
  obtain ⟨rfl, -⟩ | ⟨rfl, -⟩ | ⟨rfl, -⟩ | ⟨hr, -⟩ | ⟨-, -, heq⟩ := writeReg_cases r v s
  · simp at h
  · simp at h
  · simp at h
  · exact absurd (List.mem_cons_of_mem _ (List.mem_cons_of_mem _ hr)) h
  · exact heq

@[simp] theorem writeReg_cfg (r : Reg) (v : Word) (s : State) : (writeReg r v s).cfg = s.cfg := by
  obtain ⟨-, -, h⟩ | ⟨-, -, h⟩ | ⟨-, -, h⟩ | ⟨-, a, b, c, h⟩ | ⟨-, -, h⟩ := writeReg_cases r v s <;> simp [h]

/-- What a register write makes of OVR: a dropped CMD write sets it, STATUS bit 2 clears it, no other write moves it
(R24, R25). -/
theorem writeReg_ovr_cases (r : Reg) (v : Word) (s : State) :
    (writeReg r v s).ovr = s.ovr ∨
    (r = .cmd ∧ s.busy = true ∧ (writeReg r v s).ovr = true) ∨
    (r = .status ∧ v.getLsbD 2 = true ∧ (writeReg r v s).ovr = false) := by
  obtain ⟨hr, hb, h⟩ | ⟨-, -, h⟩ | ⟨hr, hv, h⟩ | ⟨-, a, b, c, h⟩ | ⟨-, -, h⟩ := writeReg_cases r v s
  · exact .inr (.inl ⟨hr, hb, by rw [h]⟩)
  · exact .inl (by rw [h]; rfl)
  · exact .inr (.inr ⟨hr, hv, by rw [h]⟩)
  · exact .inl (by rw [h])
  · exact .inl (by rw [h])

/-! ## The turns -/

theorem engineTurn_of_command {s : State} {c : Latched} {pw : Option PutWork} {i : Instr}
    (hp : s.phase = .command c pw) (hd : decode c.cmd = .ok i) : engineTurn s = exec i s := by
  simp only [engineTurn, hp, hd]

/-- The engine's turn always answers a next state, in which the engine is idle; it keeps the parameters and OVR. -/
theorem engineTurn_completes (s : State) :
    ∃ t, engineTurn s = .next t ∧ t.phase = .idle ∧ t.cfg = s.cfg ∧ t.ovr = s.ovr := by
  obtain ⟨hp, h⟩ | ⟨-, h⟩ | ⟨c, w, i, -, -, h⟩ | ⟨c, w, e, -, -, h⟩ := engineTurn_cases s
  · exact ⟨s, h, hp, rfl, rfl⟩
  · exact ⟨_, h, rfl, rfl, rfl⟩
  · obtain ⟨t, ht, hidle, hkept⟩ := exec_next i s
    exact ⟨t, h.trans ht, hidle, hkept.cfg, hkept.ovr⟩
  · exact ⟨_, h, rfl, rfl, rfl⟩

theorem engineTurn_cfg_ovr {s t : State} (h : engineTurn s = .next t) : t.cfg = s.cfg ∧ t.ovr = s.ovr := by
  obtain ⟨u, hu, -, hkept⟩ := engineTurn_completes s
  rw [hu] at h
  cases h
  exact hkept

theorem workTurn_cfg_ovr (s : State) : (workTurn s).cfg = s.cfg ∧ (workTurn s).ovr = s.ovr := by
  obtain h | ⟨c, w, w', -, -, -, -, h⟩ := workTurn_cases s
  · simp [h]
  · simp [h]

theorem hostTurn_cfg {s t : State} (h : hostTurn s = .next t) : t.cfg = s.cfg := by
  obtain ⟨n, l, g, p, rfl⟩ | ⟨r, v, rest, -, rfl⟩ := hostTurn_next h
  · rfl
  · simp

/-- What the host's turn makes of OVR: only its next statement, when that is a CMD write while BUSY is 1 or a STATUS write
with bit 2 set, moves it. -/
theorem hostTurn_ovr_cases {s t : State} (h : hostTurn s = .next t) :
    t.ovr = s.ovr ∨
    (s.busy = true ∧ (∃ v rest, s.host = .wr (s.cfg.engineBase + Reg.cmd.offset) 4 v :: rest) ∧ t.ovr = true) ∨
    ((∃ v rest, s.host = .wr (s.cfg.engineBase + Reg.status.offset) 4 v :: rest ∧ v.getLsbD 2 = true) ∧
      t.ovr = false) := by
  obtain ⟨n, l, g, p, rfl⟩ | ⟨r, v, rest, hhost, rfl⟩ := hostTurn_next h
  · exact .inl rfl
  · obtain hsame | ⟨rfl, hbusy, hset⟩ | ⟨rfl, hbit, hclear⟩ := writeReg_ovr_cases r v (s.setHost rest)
    · exact .inl hsame
    · exact .inr (.inl ⟨hbusy, ⟨v, rest, hhost⟩, hset⟩)
    · exact .inr (.inr ⟨⟨v, rest, hhost, hbit⟩, hclear⟩)

theorem step_cfg {s t : State} (h : step s = .next t) : t.cfg = s.cfg := by
  obtain ⟨-, ⟨-, he⟩ | ⟨-, rfl⟩ | ⟨-, hh⟩ | ⟨-, rfl⟩⟩ := step_next h
  · exact (engineTurn_cfg_ovr he).1
  · exact (workTurn_cfg_ovr s.popTurn).1
  · exact (hostTurn_cfg hh).trans s.popTurn_cfg
  · rfl

/-- What a step makes of OVR (R38): it keeps it, or sets it by a dropped CMD write, or clears it by a STATUS write with
bit 2 or by reset. -/
theorem step_ovr_cases {s t : State} (h : step s = .next t) :
    t.ovr = s.ovr ∨
    (s.nextTurn = .host ∧ s.busy = true ∧
      (∃ v rest, s.host = .wr (s.cfg.engineBase + Reg.cmd.offset) 4 v :: rest) ∧ t.ovr = true) ∨
    (s.nextTurn = .host ∧
      (∃ v rest, s.host = .wr (s.cfg.engineBase + Reg.status.offset) 4 v :: rest ∧ v.getLsbD 2 = true) ∧
      t.ovr = false) ∨
    (s.nextTurn = .reset ∧ t.ovr = false) := by
  obtain ⟨-, ⟨-, he⟩ | ⟨-, rfl⟩ | ⟨hturn, hh⟩ | ⟨hturn, rfl⟩⟩ := step_next h
  · exact .inl (engineTurn_cfg_ovr he).2
  · exact .inl (workTurn_cfg_ovr s.popTurn).2
  · obtain hsame | ⟨hbusy, hcmd, hset⟩ | ⟨hstatus, hclear⟩ := hostTurn_ovr_cases hh
    · exact .inl hsame
    · exact .inr (.inl ⟨hturn, hbusy, hcmd, hset⟩)
    · exact .inr (.inr (.inl ⟨hturn, hstatus, hclear⟩))
  · exact .inr (.inr (.inr ⟨hturn, rfl⟩))

/-- A command runs alike whatever OVR is, and hands it on. -/
theorem exec_with_ovr {i : Instr} {s t : State} (b : Bool) (h : exec i s = .next t) :
    exec i { s with ovr := b } = .next { t with ovr := b } := by
  obtain ⟨-, hkept⟩ := exec_untouched h
  have hargs : { t with ovr := b } = { t with arg0 := s.arg0, arg1 := s.arg1, arg2 := s.arg2, ovr := b } := by
    rw [← hkept.arg0, ← hkept.arg1, ← hkept.arg2]
  rw [hargs]
  exact exec_unread i s.arg0 s.arg1 s.arg2 b rfl rfl h

/-! ## The statements of 10_state.md -/

/-- Settles O15: no turn of any agent moves the parameters. -/
theorem parametersNeverChange : Obligations.ParametersNeverChange :=
  ⟨fun _ => ⟨rfl, rfl, rfl⟩, fun _ _ => step_cfg⟩

/-- Settles O18, from what a step makes of OVR (`step_ovr_cases`). -/
theorem overrunFlagChangesOnlyAsStated : Obligations.OverrunFlagChangesOnlyAsStated := by
  refine ⟨fun s w hbusy => by rw [writeReg_cmd_of_busy hbusy], fun i s t b => exec_with_ovr b,
    fun s t h => ⟨fun hs ht => ?_, fun hs ht => ?_⟩⟩
  · obtain hsame | ⟨hturn, hbusy, hcmd, -⟩ | ⟨-, -, hclear⟩ | ⟨-, hclear⟩ := step_ovr_cases h
    · simp [hsame, hs] at ht
    · exact ⟨hturn, hbusy, hcmd⟩
    · simp [hclear] at ht
    · simp [hclear] at ht
  · obtain hsame | ⟨-, -, -, hset⟩ | ⟨hturn, hstatus, -⟩ | ⟨hturn, -⟩ := step_ovr_cases h
    · simp [hsame, hs] at ht
    · simp [hset] at ht
    · exact .inr ⟨hturn, hstatus⟩
    · exact .inl hturn

/-- Settles O9: an accepted word is the command in progress, and the engine's next turn completes it. -/
theorem acceptanceLatchesTheCommand : Obligations.AcceptanceLatchesTheCommand := by
  intro s w hidle
  rw [writeReg_cmd_of_idle hidle]
  refine ⟨rfl, rfl, rfl, fun i hi => engineTurn_of_command (s.accept_phase w) hi, ?_⟩
  obtain ⟨u, hu, hdone, -, -⟩ := engineTurn_completes (s.accept w)
  exact ⟨u, hu, State.busy_eq_false_iff.2 hdone⟩

/-- Settles O14: the registers that take a write are CMD, STATUS and ARG0 to ARG2. -/
theorem readOnlyRegistersIgnoreWrites : Obligations.ReadOnlyRegistersIgnoreWrites :=
  ⟨fun _ => rfl, by decide, by decide, by decide, by decide, fun _ v s h => writeReg_of_notMem h v s⟩

end Sys2Proof.Machine
end

section
/-! The host's accesses (spec 20_memory.md R50, R51): which offsets name a register, and what the host's turn makes of an
access that names none. -/

namespace Sys2Proof.Machine

/-! ## The register window -/

/-- Every register lies at an aligned offset of the window (R22). -/
theorem Reg.offset_aligned (r : Reg) : r.offset % 4 = 0 ∧ r.offset ≤ 0x3C := by
  cases r <;> decide

/-- The window has no hole: a register stands at each of its sixteen aligned offsets (R22). -/
theorem regAt_isSome_of_aligned {n : Nat} (haligned : n % 4 = 0) (hwindow : n ≤ 0x3C) : (regAt n).isSome := by
  have hslots : ∀ k < 16, (regAt (4 * k)).isSome := by decide
  have hn : n = 4 * (n / 4) := by omega
  rw [hn]
  exact hslots (n / 4) (by omega)

theorem exists_reg_offset_iff {n : Nat} : (∃ r : Reg, r.offset = n) ↔ n % 4 = 0 ∧ n ≤ 0x3C := by
  constructor
  · rintro ⟨r, rfl⟩
    exact r.offset_aligned
  · rintro ⟨haligned, hwindow⟩
    obtain ⟨r, hr⟩ := Option.isSome_iff_exists.1 (regAt_isSome_of_aligned haligned hwindow)
    exact ⟨r, (regAt_eq_some.1 hr).symm⟩

theorem windowReg_eq_none {base addr size : Nat} :
    windowReg base addr size = none ↔ ∀ r : Reg, ¬ (size = 4 ∧ addr = base + r.offset) := by
  simp only [Option.eq_none_iff_forall_ne_some, ne_eq, windowReg_eq_some]

/-! ## Accesses outside the interface -/

/-- The host has no step for a write that names no register (R51). -/
theorem hostTurn_wr_of_windowReg_none {s : State} {addr size : Nat} {v : Word} {rest : List HostStmt}
    (hhost : s.host = .wr addr size v :: rest) (hnone : windowReg s.cfg.engineBase addr size = none) :
    hostTurn s = .refused .accessOutsideInterface := by
  simp only [hostTurn, hhost, hnone]

/-- The host has no step for a read that names no register (R51). -/
theorem hostTurn_rd_of_windowReg_none {s : State} {addr size : Nat} {rest : List HostStmt}
    (hhost : s.host = .rd addr size :: rest) (hnone : windowReg s.cfg.engineBase addr size = none) :
    hostTurn s = .refused .accessOutsideInterface := by
  simp only [hostTurn, hhost, hnone]

/-! ## The statement of 20_memory.md -/

/-- Settles O16, from which accesses name a register (`windowReg_eq_some`, `windowReg_eq_none`). -/
theorem onlyAlignedWordAccessesExist : Obligations.OnlyAlignedWordAccessesExist := by
  refine ⟨⟨rfl, rfl⟩, fun n => exists_reg_offset_iff, fun base addr size r => windowReg_eq_some, ?_⟩
  intro s addr size v rest hnoreg hhost
  have hnone : windowReg s.cfg.engineBase addr size = none := windowReg_eq_none.2 hnoreg
  obtain hwr | hrd := hhost
  · exact hostTurn_wr_of_windowReg_none hwr hnone
  · exact hostTurn_rd_of_windowReg_none hrd hnone

end Sys2Proof.Machine
end

section
/-! The command word (spec 30_encoding.md): when the decoder answers each reason (R72, R73), and what becomes of an illegal
word in the engine. -/

namespace Sys2Proof.Machine

/-! ## Reserved opcodes and reserved immediate bits -/

/-- The opcodes that name no command, whatever the immediate, are the four ranges R73 lists. -/
theorem commandOf_eq_none_iff {opc : Byte} {imm : BitVec 24} :
    commandOf opc imm = none ↔
      0x03 ≤ opc.toNat ∧ opc.toNat ≤ 0x07 ∨ 0x09 ≤ opc.toNat ∧ opc.toNat ≤ 0x0F ∨
        0x15 ≤ opc.toNat ∧ opc.toNat ≤ 0x1F ∨ 0x28 ≤ opc.toNat := by
  unfold commandOf
  split
  case h_18 => simp only [true_iff, imp_false] at *; omega
  all_goals simp only [reduceCtorEq, false_iff]; omega

/-- A field of a word that keeps no bit of a mask is 0 where the mask covers the whole field. -/
theorem extractLsb'_eq_zero_of_and_eq_zero {n start len : Nat} {x mask : BitVec n}
    (hmask : mask.extractLsb' start len = BitVec.allOnes len) (h : x &&& mask = 0#n) :
    x.extractLsb' start len = 0#len := by
  have hfield : (x &&& mask).extractLsb' start len = 0#len := by rw [h, BitVec.extractLsb'_zero]
  rwa [BitVec.extractLsb'_and, hmask, BitVec.and_allOnes] at hfield

/-- The immediate bits outside ALLOWED(opc) are bits 23:16 of STR_PUSH, bits 23:3 of HE_HASH, and all those of any other
opcode (R71, R72). -/
theorem and_not_allowedImm_ne_zero {opc : Byte} {imm : BitVec 24}
    (h : opc = 0x02#8 ∧ imm.extractLsb' 16 8 ≠ 0#8 ∨ opc = 0x08#8 ∧ imm.extractLsb' 3 21 ≠ 0#21 ∨
      opc ≠ 0x02#8 ∧ opc ≠ 0x08#8 ∧ imm ≠ 0#24) :
    imm &&& ~~~(allowedImm opc) ≠ 0#24 := by
  intro hzero
  obtain ⟨rfl, hset⟩ | ⟨rfl, hset⟩ | ⟨hpush, hhash, hset⟩ := h
  · exact hset (extractLsb'_eq_zero_of_and_eq_zero (by decide) hzero)
  · exact hset (extractLsb'_eq_zero_of_and_eq_zero (by decide) hzero)
  · have hall : ~~~(allowedImm opc) = BitVec.allOnes 24 := by simp [allowedImm, hpush, hhash]
    rw [hall, BitVec.and_allOnes] at hzero
    exact hset hzero

/-! ## The decoder -/

theorem decode_of_commandOf_none {w : Word} (h : commandOf (opcodeOf w) (imm24Of w) = none) :
    decode w = .error .reservedOpcode := by
  simp only [decode, h]

/-- A word decodes to the command its opcode names when no immediate bit outside ALLOWED(opc) is set (R72). -/
theorem decode_eq_ok_iff {w : Word} {i : Instr} :
    decode w = .ok i ↔
      commandOf (opcodeOf w) (imm24Of w) = some i ∧ imm24Of w &&& ~~~(allowedImm (opcodeOf w)) = 0#24 := by
  unfold decode
  cases commandOf (opcodeOf w) (imm24Of w) with
  | none => simp
  | some j => by_cases himm : imm24Of w &&& ~~~(allowedImm (opcodeOf w)) = 0#24 <;> simp [himm]

theorem exists_decode_error_of_imm {w : Word} (h : imm24Of w &&& ~~~(allowedImm (opcodeOf w)) ≠ 0#24) :
    ∃ e, decode w = .error e := by
  cases hd : decode w with
  | ok i => exact absurd (decode_eq_ok_iff.1 hd).2 h
  | error e => exact ⟨e, rfl⟩

/-! ## Illegal words in the engine -/

/-- A word that does not decode completes with ILLEGAL and no other effect (R73). -/
theorem completesIllegal_of_decode_error {w : Word} {e : DecodeError} (h : decode w = .error e) : CompletesIllegal w := by
  rintro s c pw hphase rfl
  simp only [engineTurn, hphase, h]
  rfl

/-! ## The statements of 30_encoding.md -/

/-- Settles O5, from the reserved ranges (`commandOf_eq_none_iff`), the reserved bits (`and_not_allowedImm_ne_zero`),
acceptance (`writeReg_cmd_of_idle`) and completion (`completesIllegal_of_decode_error`). -/
theorem illegalWordsCompleteWithIllegal : Obligations.IllegalWordsCompleteWithIllegal := by
  refine ⟨fun w hopc => ?_, fun w himm => ?_, fun s w hidle => ?_, fun s c pw e hphase herr => ?_⟩
  · exact decode_of_commandOf_none (commandOf_eq_none_iff.2 hopc)
  · exact exists_decode_error_of_imm (and_not_allowedImm_ne_zero himm)
  · rw [writeReg_cmd_of_idle hidle, State.accept_phase]
  · exact completesIllegal_of_decode_error herr s c pw hphase rfl

/-- Settles O1: each of the words is closed, and the decoder computes on it. -/
theorem selectedWordsDecode : Obligations.SelectedWordsDecode :=
  ⟨rfl, rfl, rfl, rfl, rfl, rfl, rfl, rfl, rfl, rfl, rfl, rfl, rfl⟩

end Sys2Proof.Machine
end

section
/-! The hash function and the commands on the staged string (spec 40_hash_engine.md): what a machine with an even
multiplier does (R106), the fold of one code unit (R101), and the encodings and completions of NOP, STR_CLEAR, STR_PUSH
and HE_HASH (R102 to R105). -/

namespace Sys2Proof.Machine

open Sys2Proof.Laws

/-! ## The multiplier -/

theorem hmultOdd_eq_false {p : Config.Params} (heven : p.hmult.toNat % 2 = 0) : p.hmultOdd = false := by
  simp [Config.Params.hmultOdd, BitVec.getLsbD, heven]

/-- An even HMULT is no configuration of this hardware, whatever the other parameters are (R106). -/
theorem wellFormed_eq_false_of_even_hmult {p : Config.Params} (heven : p.hmult.toNat % 2 = 0) : p.wellFormed = false := by
  simp [Config.Params.wellFormed, hmultOdd_eq_false heven]

theorem step_of_not_wellFormed {s : State} (h : s.cfg.wellFormed = false) : step s = .refused .notAConfiguration := by
  simp [step, h]

/-! ## The fold -/

theorem hashOf_nil (p : Config.Params) (tab : List DWord) (ch : Nat) : hashOf p tab [] ch = p.hstart := rfl

theorem hashOf_concat (p : Config.Params) (tab : List DWord) (S : List CodeUnit) (u : CodeUnit) (ch : Nat) :
    hashOf p tab (S ++ [u]) ch = foldUnit p tab ch (hashOf p tab S ch) u :=
  List.foldl_concat ..

/-- A code unit costs two multiplies and two table entries, the low byte's first. -/
theorem foldUnit_eq (p : Config.Params) (tab : List DWord) (ch : Nat) (h : DWord) (u : CodeUnit) :
    foldUnit p tab ch h u =
      (((h * p.hmult) ^^^ tabRead tab (ch * 256 + (u.extractLsb' 0 8).toNat)) * p.hmult) ^^^
        tabRead tab (ch * 256 + (u.extractLsb' 8 8).toNat) := rfl

/-- Every table index the engine forms lies in the table (20_memory.md R54). -/
theorem tabIndex_lt {ch : Nat} (hch : ch < 8) (b : Byte) : ch * 256 + b.toNat < 2048 := by
  have hb : b.toNat < 256 := b.isLt
  omega

/-- The table entries of V-HE-1 that the hash of "A" on channel 0 folds in. -/
theorem tabRead_default_low_A : tabRead (scrambleTable .default) 0x41 = 0xB3524157AB4F1FAC#64 := by decide +kernel

theorem tabRead_default_zero : tabRead (scrambleTable .default) 0 = 0xCFB2B99D0CDB12A6#64 := by decide +kernel

/-- The worked step of V-HE-2: the low byte 0x41 folds in Tab(0x41), the high byte 0 folds in Tab(0). -/
theorem hashOf_default_A : hashOf .default (scrambleTable .default) [0x0041#16] 0 = 0xD6A14E842A204A7E#64 := by
  calc hashOf .default (scrambleTable .default) [0x0041#16] 0
      = (((Config.Params.default.hstart * Config.Params.default.hmult) ^^^ tabRead (scrambleTable .default) 0x41) *
          Config.Params.default.hmult) ^^^ tabRead (scrambleTable .default) 0 := rfl
    _ = 0xD6A14E842A204A7E#64 := by rw [tabRead_default_low_A, tabRead_default_zero]; decide

/-! ## Encodings -/

/-- A command word decodes to the command its opcode names when it sets no immediate bit outside ALLOWED(opc) (R72). -/
theorem decode_commandWord_eq_ok_iff {opc : Byte} {imm : BitVec 24} {i : Instr} :
    decode (commandWord opc imm) = .ok i ↔ commandOf opc imm = some i ∧ imm &&& ~~~(allowedImm opc) = 0#24 := by
  rw [decode_eq_ok_iff, EncodedWord.opcodeOf_commandWord, EncodedWord.imm24Of_commandWord]

theorem completesIllegal_commandWord {opc : Byte} {imm : BitVec 24} (h : imm &&& ~~~(allowedImm opc) ≠ 0#24) :
    CompletesIllegal (commandWord opc imm) := by
  obtain ⟨e, he⟩ : ∃ e, decode (commandWord opc imm) = .error e := exists_decode_error_of_imm <| by
    rwa [EncodedWord.opcodeOf_commandWord, EncodedWord.imm24Of_commandWord]
  exact completesIllegal_of_decode_error he

/-- A command with no immediate is encoded by its opcode with `imm24 = 0` only (R71, R73). -/
theorem encodedOnlyAs_of_commandOf {opc : Byte} {i : Instr} (hpush : opc ≠ 0x02#8) (hhash : opc ≠ 0x08#8)
    (h : commandOf opc 0#24 = some i) : EncodedOnlyAs opc i :=
  ⟨decode_commandWord_eq_ok_iff.2 ⟨h, BitVec.zero_and⟩, fun _ hm =>
    completesIllegal_commandWord (and_not_allowedImm_ne_zero (.inr (.inr ⟨hpush, hhash, hm⟩)))⟩

/-- A command's opcode and immediate name the command, with its operand (R71, R72). -/
theorem commandOf_opcode_imm24 (i : Instr) : commandOf i.opcode i.imm24 = some i := by
  cases i with
  | strPush u =>
    have hfield : (u.setWidth 24).extractLsb' 0 16 = u :=
      (BitVec.extractLsb'_setWidth_of_le (by decide)).trans BitVec.extractLsb'_eq_self
    exact congrArg (fun v => some (Instr.strPush v)) hfield
  | heHash ch => revert ch; decide
  | _ => rfl

/-- The encoder's word decodes to its command when it sets allowed immediate bits only. -/
theorem decode_encode_of_allowed {i : Instr} (h : EncodedWord.Statement i) : decode (encode i) = .ok i := by
  obtain ⟨-, -, hallowed⟩ := h
  exact decode_commandWord_eq_ok_iff.2 ⟨commandOf_opcode_imm24 i, hallowed⟩

/-- The word of STR_PUSH as R104 lays it out. -/
theorem encode_strPush (u : CodeUnit) : encode (.strPush u) = 0x02#8 ++ 0x00#8 ++ u := by
  calc encode (.strPush u)
      = 0x02#8 ++ u.setWidth 24 := rfl
    _ = 0x02#8 ++ (0x00#8 ++ u) := congrArg (0x02#8 ++ ·) (BitVec.setWidth_eq_append (by decide))
    _ = 0x02#8 ++ 0x00#8 ++ u := (BitVec.append_assoc (x₁ := 0x02#8) (x₂ := 0x00#8) (x₃ := u)).symm

/-- The word of HE_HASH as R105 lays it out. -/
theorem encode_heHash (ch : BitVec 3) : encode (.heHash ch) = 0x08#8 ++ 0#21 ++ ch := by
  revert ch; decide

/-! ## Completions -/

theorem exec_strPush_of_room {s : State} (hroom : s.str.length ≠ s.cfg.strMax) (u : CodeUnit) :
    exec (.strPush u) s = State.done { s with str := s.str ++ [u] } false :=
  if_neg hroom

theorem exec_strPush_of_full {s : State} (hfull : s.str.length = s.cfg.strMax) (u : CodeUnit) :
    exec (.strPush u) s = s.raise .strFull :=
  if_pos hfull

theorem readReg_strLen_of_idle {s : State} (h : s.busy = false) : (readReg .strLen s).1 = s.strLenWord := by
  simp [readReg, openRead, h]

/-! ## The statements of 40_hash_engine.md -/

/-- Settles O22, by the last code unit folded (`hashOf_concat`); the example is the worked step of V-HE-2. -/
theorem hashFoldsLowByteThenHighByte : Obligations.HashFoldsLowByteThenHighByte := by
  refine ⟨fun p tab S u ch hch => ⟨hashOf_nil p tab ch, ?_, tabIndex_lt hch _, tabIndex_lt hch _⟩, hashOf_default_A⟩
  rw [hashOf_concat, foldUnit_eq]

/-- Settles O17: a step is taken by a configuration of this hardware only. -/
theorem evenMultiplierIsRefused : Obligations.EvenMultiplierIsRefused :=
  ⟨fun _ heven => step_of_not_wellFormed (wellFormed_eq_false_of_even_hmult heven), rfl, by decide⟩

/-- Settles O23: neither command has an immediate, and neither has a path but its completion. -/
theorem nopAndStrClearComplete : Obligations.NopAndStrClearComplete := by
  refine ⟨encodedOnlyAs_of_commandOf (by decide) (by decide) rfl,
    encodedOnlyAs_of_commandOf (by decide) (by decide) rfl, fun s => rfl, fun s => ⟨rfl, ?_⟩⟩
  rw [readReg_strLen_of_idle rfl]
  rfl

/-- Settles O24, from the word (`encode_strPush`) and whether the buffer has room. -/
theorem strPushCompletes : Obligations.StrPushCompletes := by
  refine ⟨fun u => ?_, fun m hm => ?_, fun u s hroom => exec_strPush_of_room hroom u,
    fun u s hfull => exec_strPush_of_full hfull u⟩
  · rw [← encode_strPush]
    exact decode_encode_of_allowed (EncodedWord.strPush u)
  · exact completesIllegal_commandWord (and_not_allowedImm_ne_zero (.inl ⟨rfl, hm⟩))

/-- Settles O25: the words are the encoder's, and the completion has one path. -/
theorem heHashCompletes : Obligations.HeHashCompletes := by
  refine ⟨fun ch => ?_, fun m hm => ?_, fun ch s => rfl⟩
  · rw [← encode_heHash]
    exact decode_encode_of_allowed (EncodedWord.heHash ch)
  · exact completesIllegal_commandWord (and_not_allowedImm_ne_zero (.inr (.inl ⟨rfl, hm⟩)))

end Sys2Proof.Machine
end

section
/-! The Bloom unit (spec 41_bloom.md): the encodings and completions of its commands (R120 to R126), what each agent's turn
leaves of a filter (R121, R128), and that no string added is ever missed (R127). -/

namespace Sys2Proof.Machine

/-! ## Configuration -/

theorem tryConfigure_of_invalid {s : State} {L K : Int} (h : ¬ ((1 ≤ L ∧ L ≤ 31) ∧ 1 ≤ K ∧ K ≤ 8)) :
    s.tryConfigure L K = s.raise .invalidParam :=
  if_pos (by unfold Config.log2Max Config.kMax; omega)

/-- With both operands in range, the size is held against BF_MAX_LOG2 (R120). -/
theorem tryConfigure_of_valid {s : State} {L K : Int} (hL : 1 ≤ L ∧ L ≤ 31) (hK : 1 ≤ K ∧ K ≤ 8) :
    s.tryConfigure L K =
      if L > s.cfg.bfMaxLog2 then s.raise .resource else (s.configure L.toNat K.toNat).done false :=
  if_neg (by unfold Config.log2Max Config.kMax; omega)

theorem tryConfigureSized_of_invalid {s : State} {req K : Int} (h : ¬ (req ≤ 2 ^ 31 - 1 ∧ 1 ≤ K ∧ K ≤ 8)) :
    s.tryConfigureSized req K = s.raise .invalidParam :=
  if_pos (by unfold Config.kMax; omega)

/-- With the product and K in range, the derived size is held against BF_MAX_LOG2 (R122). -/
theorem tryConfigureSized_of_valid {s : State} {req K : Int} (hreq : req ≤ 2 ^ 31 - 1) (hK : 1 ≤ K ∧ K ≤ 8) :
    s.tryConfigureSized req K =
      if sizedLog2 req > s.cfg.bfMaxLog2 then s.raise .resource
      else (s.configure (sizedLog2 req) K.toNat).done false :=
  if_neg (by unfold Config.kMax; omega)

/-- A required size below `2^31` needs at most 31 bits, so the least `L` is one of 4 to 31. -/
theorem least_log2_le {req : Int} {L : Nat} (hreq : req ≤ 2 ^ 31 - 1) (hleast : ∀ L', 4 ≤ L' → req ≤ 2 ^ L' → L ≤ L') :
    L ≤ 31 :=
  hleast 31 (by decide) (by omega)

/-- `sizedLog2` is the least integer of at least 4 whose power of two is the required size or more (R122). -/
theorem sizedLog2_eq_of_least {req : Int} {L : Nat} (h4 : 4 ≤ L) (h31 : L ≤ 31) (hL : req ≤ 2 ^ L)
    (hleast : ∀ L', 4 ≤ L' → req ≤ 2 ^ L' → L ≤ L') : sizedLog2 req = L := by
  have hrange : (List.range (Config.log2Max + 1)).filter (Config.log2SizedMin ≤ ·) = List.range' 4 28 := by decide
  have hfind : (List.range' 4 28).find? (fun L => req ≤ 2 ^ L) = some L := by
    refine List.find?_range'_eq_some.2 ⟨decide_eq_true hL, List.mem_range'_1.2 ⟨h4, by omega⟩, fun j hj hlt => ?_⟩
    have hnot : ¬ req ≤ 2 ^ j := fun hle => absurd (hleast j hj hle) (by omega)
    simp [hnot]
  rw [sizedLog2, hrange, hfind, Option.getD_some]

/-! ## The gate -/

/-- BF_ADD completed on a configured unit: every probed cell set, and nothing else but the status moved (R124). -/
def State.added (s : State) : State := State.complete { s with bits := s.probes.foldl bitSet s.bits } .ok false

theorem exec_bfAdd_of_ready {s : State} (h : s.bfReady = true) : exec .bfAdd s = .next s.added := bfGate_true h _

theorem exec_bfContains_of_ready {s : State} (h : s.bfReady = true) :
    exec .bfContains s = s.done (s.probes.all (bitRead s.bits)) := bfGate_true h _

theorem exec_bfReadWord_of_ready {s : State} (h : s.bfReady = true) :
    exec .bfReadWord s =
      if u32 s.larg0 ≥ s.bfWords then s.raise .invalidParam
      else (s.setRes (s.bfWord (u32 s.larg0)) 0).done false := bfGate_true h _

/-! ## The probed cells -/

theorem mem_probes {s : State} {j : Nat} : j ∈ s.probes ↔ ∃ n, n < s.k ∧ s.probe n = j := by
  simp [State.probes]

/-- A completion moves nothing that a probe reads. -/
@[simp] theorem State.added_probes (s : State) : s.added.probes = s.probes := rfl

theorem mem_added_bits {s : State} {j : Nat} : j ∈ s.added.bits ↔ j ∈ s.bits ∨ j ∈ s.probes := mem_foldl_bitSet

/-- Adding again changes no cell (R124). -/
theorem added_added_bits {s : State} (hwf : BitStore.wf s.bits) : s.added.added.bits = s.added.bits :=
  foldl_bitSet_of_subset (foldl_bitSet_wf hwf) fun _ hj => mem_added_bits.2 (.inr (s.added_probes ▸ hj))

theorem all_probes_bitRead (s : State) :
    s.probes.all (bitRead s.bits) = decide (∀ n, n < s.k → bitRead s.bits (s.probe n) = true) := by
  rw [Bool.eq_iff_iff]
  simp [State.probes]

/-! ## Packing cells into a word -/

theorem getLsbD_one_shiftLeft {i : Nat} (hi : i < 32) (j : Nat) : (1#32 <<< j).getLsbD i = decide (j = i) := by
  calc (1#32 <<< j).getLsbD i
      = (BitVec.twoPow 32 j).getLsbD i := rfl
    _ = decide (j = i) := by simp [BitVec.getLsbD_twoPow]; omega

/-- A word that ORs in the bits of a list where a cell holds has, besides the bits it began with, exactly those. -/
theorem getLsbD_foldl_or (p : Nat → Prop) [DecidablePred p] {i : Nat} (hi : i < 32) (l : List Nat) (v : Word) :
    (l.foldl (fun v j => if p j then v ||| (1#32 <<< j) else v) v).getLsbD i = (v.getLsbD i || decide (i ∈ l ∧ p i)) := by
  induction l generalizing v with
  | nil => simp
  | cons j l ih =>
    rw [List.foldl_cons, ih]
    obtain rfl | hij := eq_or_ne i j
    · by_cases hp : p i <;> simp [hp, getLsbD_one_shiftLeft hi]
    · by_cases hp : p j <;> simp [hp, hij, hij.symm, getLsbD_one_shiftLeft hi]

/-- Bit `j` of word `w` is cell `32w + j`, and 0 above the array (R126). -/
theorem getLsbD_bfWord (s : State) (w : Nat) {j : Nat} (hj : j < 32) :
    (s.bfWord w).getLsbD j = (decide (32 * w + j < 2 ^ s.log2Bits) && bitRead s.bits (32 * w + j)) := by
  refine (getLsbD_foldl_or _ hj (List.range 32) 0).trans ?_
  simp [hj]

/-! ## What a command leaves of the Bloom unit -/

/-- The Bloom unit's own state (10_state.md R34). -/
def State.bloom (s : State) : Bool × Nat × Nat × BitStore := (s.bfReady, s.log2Bits, s.k, s.bits)

theorem bfGate_bloom {s t : State} {body : Result} (h : bfGate s body = .next t)
    (hbody : body = .next t → t.bloom = s.bloom) : t.bloom = s.bloom := by
  obtain ⟨-, rfl⟩ | ⟨-, h⟩ := bfGate_next h
  · rfl
  · exact hbody h

theorem ckGate_bloom {s t : State} {body : Result} (h : ckGate s body = .next t)
    (hbody : body = .next t → t.bloom = s.bloom) : t.bloom = s.bloom := by
  obtain ⟨-, rfl⟩ | ⟨-, rfl⟩ | ⟨-, h⟩ := ckGate_next h
  · rfl
  · rfl
  · exact hbody h

/-- Only BF_CONFIG, BF_CONFIG_SIZED and BF_ADD write the Bloom unit (R125, R126, R128). -/
theorem exec_bloom {i : Instr} {s t : State} (hi : i ∉ [Instr.bfConfig, .bfConfigSized, .bfAdd])
    (h : exec i s = .next t) : t.bloom = s.bloom := by
  cases i with
  | bfConfig | bfConfigSized | bfAdd => simp at hi
  | nop | strClear | heHash ch => cases h; rfl
  | strPush u =>
    by_cases hfull : s.str.length = s.cfg.strMax
    · rw [exec_strPush_of_full hfull] at h; cases h; rfl
    · rw [exec_strPush_of_room hfull] at h; cases h; rfl
  | bfContains => exact bfGate_bloom h fun h => by cases h; rfl
  | bfReadWord => exact bfGate_bloom h fun h => by split at h <;> cases h <;> rfl
  | ckInit => obtain ⟨-, rfl⟩ | ⟨-, -, rfl⟩ | ⟨-, -, rfl⟩ := tryInit_next h <;> rfl
  | ckPut | ckGet | ckRemove => exact ckGate_bloom h fun h => by split at h <;> cases h <;> rfl
  | ckSize | ckClear | ckCapacity => exact ckGate_bloom h fun h => by cases h; rfl
  | ckReadSlot =>
    refine ckGate_bloom h fun h => ?_
    split at h
    · cases h; rfl
    · split at h <;> cases h <;> rfl

/-- A configuration that completes with an error changes nothing of the Bloom unit (R121). -/
theorem exec_configuration_bloom_of_error {i : Instr} {s t : State} (hi : i = .bfConfig ∨ i = .bfConfigSized)
    (h : exec i s = .next t) (herr : t.err ≠ .ok) : t.bloom = s.bloom := by
  obtain rfl | rfl := hi
  · obtain ⟨-, rfl⟩ | ⟨-, -, rfl⟩ | ⟨-, -, rfl⟩ := tryConfigure_next h
    · rfl
    · rfl
    · exact absurd rfl herr
  · obtain ⟨-, rfl⟩ | ⟨-, -, rfl⟩ | ⟨-, -, rfl⟩ := tryConfigureSized_next h
    · rfl
    · rfl
    · exact absurd rfl herr

/-! ## What a run leaves of a filter -/

/-- The filter of `s` lives on in `t`: the same configuration and, unless initialisation is still to store it, the same
table, so that a string has the same probes; and no cell that held 1 was cleared. -/
structure FilterKept (s t : State) : Prop where
  cfg : t.cfg = s.cfg
  bfReady : t.bfReady = s.bfReady
  log2Bits : t.log2Bits = s.log2Bits
  k : t.k = s.k
  bits : s.bits ⊆ t.bits
  tab : s.phase ≠ .init → t.phase ≠ .init ∧ t.tab = s.tab

theorem FilterKept.of_eq {s t : State} (hcfg : t.cfg = s.cfg) (hbloom : t.bloom = s.bloom) (htab : t.tab = s.tab)
    (hphase : t.phase = .init → s.phase = .init) : FilterKept s t := by
  simp only [State.bloom, Prod.mk.injEq] at hbloom
  obtain ⟨hready, hlog, hk, hbits⟩ := hbloom
  exact ⟨hcfg, hready, hlog, hk, hbits ▸ List.Subset.refl _, fun hs => ⟨mt hphase hs, htab⟩⟩

theorem FilterKept.refl (s : State) : FilterKept s s := .of_eq rfl rfl rfl id

theorem FilterKept.trans {s t u : State} (hst : FilterKept s t) (htu : FilterKept t u) : FilterKept s u where
  cfg := htu.cfg.trans hst.cfg
  bfReady := htu.bfReady.trans hst.bfReady
  log2Bits := htu.log2Bits.trans hst.log2Bits
  k := htu.k.trans hst.k
  bits := List.Subset.trans hst.bits htu.bits
  tab hs := ⟨(htu.tab (hst.tab hs).1).1, (htu.tab (hst.tab hs).1).2.trans (hst.tab hs).2⟩

/-- A staged string has the same probes as long as the filter lives. -/
theorem FilterKept.probes_eq {s t : State} (h : FilterKept s t) (hs : s.phase ≠ .init) (hstr : t.str = s.str) :
    t.probes = s.probes := by
  have hprobe : t.probe = s.probe := by
    funext n
    simp only [State.probe, State.hash, State.mask, h.cfg, h.log2Bits, (h.tab hs).2, hstr]
  rw [State.probes, State.probes, hprobe, h.k]

theorem State.added_filterKept (s : State) : FilterKept s s.added :=
  ⟨rfl, rfl, rfl, rfl, fun _ hj => mem_added_bits.2 (.inl hj), fun _ => ⟨nofun, rfl⟩⟩

/-- Every command but a configuration without error keeps the filter: BF_ADD only sets cells, the others do not write it. -/
theorem exec_filterKept {i : Instr} {s t : State} (h : exec i s = .next t)
    (hconf : i = .bfConfig ∨ i = .bfConfigSized → t.err ≠ .ok) : FilterKept s t := by
  obtain ⟨hidle, hkept⟩ := exec_untouched h
  have hphase : t.phase = .init → s.phase = .init := fun hinit => by simp [hidle] at hinit
  by_cases hi : i = .bfConfig ∨ i = .bfConfigSized
  · exact .of_eq hkept.cfg (exec_configuration_bloom_of_error hi h (hconf hi)) hkept.tab hphase
  · by_cases hadd : i = .bfAdd
    · subst hadd
      obtain ⟨-, rfl⟩ | ⟨-, h⟩ := bfGate_next h
      · exact .of_eq rfl rfl rfl hphase
      · cases h; exact s.added_filterKept
    · exact .of_eq hkept.cfg (exec_bloom (by simp [hadd]; tauto) h) hkept.tab hphase

theorem engineTurn_filterKept {s t : State} (h : engineTurn s = .next t)
    (hconf : ∀ c w i, s.phase = .command c w → decode c.cmd = .ok i → i = .bfConfig ∨ i = .bfConfigSized → t.err ≠ .ok) :
    FilterKept s t := by
  obtain ⟨-, he⟩ | ⟨hinit, he⟩ | ⟨c, w, i, hp, hd, he⟩ | ⟨c, w, e, -, -, he⟩ := engineTurn_cases s
  · cases he.symm.trans h; exact .refl s
  · cases he.symm.trans h; exact ⟨rfl, rfl, rfl, rfl, List.Subset.refl _, fun hs => absurd hinit hs⟩
  · exact exec_filterKept (he.symm.trans h) (hconf c w i hp hd)
  · cases he.symm.trans h; exact .of_eq rfl rfl rfl nofun

theorem workTurn_filterKept (s : State) : FilterKept s (workTurn s) := by
  obtain h | ⟨c, w, w', -, -, -, -, h⟩ := workTurn_cases s <;> rw [h]
  · exact .refl s
  · exact .of_eq rfl rfl rfl nofun

theorem writeReg_filterKept (r : Reg) (v : Word) (s : State) : FilterKept s (writeReg r v s) := by
  obtain ⟨-, -, h⟩ | ⟨-, -, h⟩ | ⟨-, -, h⟩ | ⟨-, a, b, c, h⟩ | ⟨-, -, h⟩ := writeReg_cases r v s <;> rw [h]
  · exact .of_eq rfl rfl rfl id
  · exact .of_eq rfl rfl rfl nofun
  · exact .of_eq rfl rfl rfl id
  · exact .of_eq rfl rfl rfl id
  · exact .refl s

theorem hostTurn_filterKept {s t : State} (h : hostTurn s = .next t) : FilterKept s t := by
  obtain ⟨n, l, g, p, rfl⟩ | ⟨r, v, rest, -, rfl⟩ := hostTurn_next h
  · exact .of_eq rfl rfl rfl id
  · have hpop : FilterKept s (s.setHost rest) := .of_eq rfl rfl rfl id
    exact hpop.trans (writeReg_filterKept r v _)

theorem State.completing_of_command {s : State} {c : Latched} {w : Option PutWork} {i : Instr}
    (hturn : s.nextTurn = .engine) (hp : s.phase = .command c w) (hd : decode c.cmd = .ok i) :
    s.completing = some i := by
  simp [State.completing, hturn, hp, hd, Except.toOption]

/-- A step that neither completes a configuration without error nor asserts reset keeps the filter. -/
theorem step_filterKept {s t : State} (h : step s = .next t) (hno : ¬ s.renewsBloom) : FilterKept s t := by
  have hpop : FilterKept s s.popTurn := .of_eq rfl rfl rfl id
  obtain ⟨-, ⟨hturn, he⟩ | ⟨-, rfl⟩ | ⟨-, hh⟩ | ⟨hturn, -⟩⟩ := step_next h
  · refine hpop.trans (engineTurn_filterKept he fun c w i hp hd hi hok => hno (.inr ⟨?_, t, h, hok⟩))
    rw [State.completing_of_command hturn hp hd]
    exact hi.imp (congrArg some) (congrArg some)
  · exact hpop.trans (workTurn_filterKept _)
  · exact hpop.trans (hostTurn_filterKept hh)
  · exact absurd (.inl hturn) hno

theorem RunWithout.filterKept {s t : State} (h : RunWithout State.renewsBloom s t) : FilterKept s t := by
  induction h with
  | refl => exact .refl _
  | step _ hno hstep ih => exact ih.trans (step_filterKept hstep hno)

/-! ## The statements of 41_bloom.md -/

/-- Settles O34: BF_ADD leaves every probed cell 1, the run keeps the filter (`RunWithout.filterKept`), and so the same
string probes the same cells (`FilterKept.probes_eq`), which still hold 1. -/
theorem noFalseNegatives : Obligations.NoFalseNegatives := by
  intro s t u v hadd hok hrun hstr hcontains
  obtain ⟨-, rfl⟩ | ⟨hready, hbody⟩ := bfGate_next hadd
  · cases hok
  · obtain rfl : s.added = t := Host.Outcome.next.inj hbody
    have hkept : FilterKept s.added u := hrun.filterKept
    have hprobes : u.probes = s.probes := hkept.probes_eq nofun hstr
    have hall : u.probes.all (bitRead u.bits) = true := by
      refine List.all_eq_true.2 fun j hj => bitRead_eq_true.2 (hkept.bits (mem_added_bits.2 (.inr ?_)))
      rwa [← hprobes]
    rw [exec_bfContains_of_ready (hkept.bfReady.trans hready), hall] at hcontains
    cases hcontains
    exact ⟨rfl, rfl⟩

/-- Settles O26, by the checks in their order. -/
theorem bfConfigCompletes : Obligations.BfConfigCompletes := by
  refine ⟨encodedOnlyAs_of_commandOf (by decide) (by decide) rfl, fun s => ⟨fun hL hK hmax => ?_, fun hbad => ?_,
    fun hL hK hmax => ?_⟩⟩
  · exact (tryConfigure_of_valid hL hK).trans (if_neg (not_lt.2 hmax))
  · exact tryConfigure_of_invalid fun ⟨⟨h1, h31⟩, hK⟩ => hbad ⟨h1, h31, hK⟩
  · exact (tryConfigure_of_valid hL hK).trans (if_pos hmax)

/-- Settles O27: the least `L` is the derived one (`sizedLog2_eq_of_least`), then the checks in their order. -/
theorem bfConfigSizedCompletes : Obligations.BfConfigSizedCompletes := by
  refine ⟨encodedOnlyAs_of_commandOf (by decide) (by decide) rfl, fun s L => ⟨fun hreq hK h4 hL hleast => ?_,
    tryConfigureSized_of_invalid⟩⟩
  have h31 : L ≤ 31 := least_log2_le hreq hleast
  obtain rfl : sizedLog2 _ = L := sizedLog2_eq_of_least h4 h31 hL hleast
  exact ⟨h31, fun hmax => (tryConfigureSized_of_valid hreq hK).trans (if_neg (not_lt.2 hmax)),
    fun hmax => (tryConfigureSized_of_valid hreq hK).trans (if_pos hmax)⟩

/-- Settles O30: the cells after BF_ADD are those before and the probed ones (`mem_added_bits`), twice as once
(`added_added_bits`). -/
theorem bfAddSetsTheProbes : Obligations.BfAddSetsTheProbes := by
  refine ⟨encodedOnlyAs_of_commandOf (by decide) (by decide) rfl, fun s => ⟨fun hready => ?_, fun h => bfGate_false h _⟩⟩
  refine ⟨s.added, exec_bfAdd_of_ready hready, rfl, fun j => ?_, fun hwf => ⟨foldl_bitSet_wf hwf, fun u hu => ?_⟩⟩
  · rw [Bool.eq_iff_iff]
    simp only [bitRead_eq_true, mem_added_bits, mem_probes, Bool.or_eq_true, decide_eq_true_eq]
  · have hready' : s.added.bfReady = true := hready
    obtain rfl : s.added.added = u := Host.Outcome.next.inj ((exec_bfAdd_of_ready hready').symm.trans hu)
    exact added_added_bits hwf

/-- Settles O31: the answer is read off the probed cells (`all_probes_bitRead`), behind the gate. -/
theorem bfContainsCompletes : Obligations.BfContainsCompletes := by
  refine ⟨encodedOnlyAs_of_commandOf (by decide) (by decide) rfl, fun s => ⟨fun hready => ?_, fun h => bfGate_false h _⟩⟩
  rw [exec_bfContains_of_ready hready, all_probes_bitRead]
  rfl

/-- Settles O32, from the bits of the packed word (`getLsbD_bfWord`), the gate first and then the index. -/
theorem bfReadWordCompletes : Obligations.BfReadWordCompletes := by
  refine ⟨encodedOnlyAs_of_commandOf (by decide) (by decide) rfl, fun s => ⟨fun hready hidx => ?_, fun hready hidx => ?_,
    fun h => bfGate_false h _⟩⟩
  · exact ⟨s.bfWord (u32 s.larg0), (exec_bfReadWord_of_ready hready).trans (if_neg (not_le.2 hidx)),
      fun j hj => getLsbD_bfWord s _ hj⟩
  · exact (exec_bfReadWord_of_ready hready).trans (if_pos hidx)

end Sys2Proof.Machine
end

section
/-! The Cuckoo unit (spec 42_cuckoo.md): the candidate slots of a key (R140 to R142), the mode gate (R144), and the
encodings and completions of its commands (R145, R150, R151, R155 to R160). -/

namespace Sys2Proof.Machine

open Config (Params)

/-! ## Candidate slots -/

theorem keyHash_of_sext {p : Params} (h : p.khash = .sext) (x : Word) : keyHash p x = x.toInt := by
  simp only [keyHash, h]
  exact BitVec.toInt_signExtend_of_le (by decide)

theorem mag_of_sext {p : Params} (h : p.khash = .sext) (x : Word) : mag p x = x.toInt.natAbs :=
  congrArg Int.natAbs (keyHash_of_sext h x)

/-- The second slot is the first one moved by `CK_A * CK_B`, so it depends on the key by its first slot only (R142). -/
theorem h2_eq_h1_add (p : Params) (c : Nat) (x : Word) : h2 p c x = (h1 p c x + 629) % c := by
  calc h2 p c x
      = (629 + mag p x) % c := rfl
    _ = (mag p x % c + 629) % c := by rw [Nat.add_comm, Nat.mod_add_mod]

theorem h1_eq_h2_of_dvd {c : Nat} (h : c ∣ 629) (p : Params) (x : Word) : h1 p c x = h2 p c x := by
  obtain ⟨d, hd⟩ := h
  calc h1 p c x
      = h1 p c x % c := (Nat.mod_mod _ _).symm
    _ = (h1 p c x + c * d) % c := (Nat.add_mul_mod_self_left _ _ _).symm
    _ = h2 p c x := by rw [h2_eq_h1_add, hd]

/-! ## The mode gate -/

/-- A command whose meaning is behind the gate is gated, whatever its meaning is. -/
theorem gatedOut_of_ckGate {i : Instr} {body : State → Result} (h : ∀ s, exec i s = ckGate s (body s)) : GatedOut i :=
  fun s => ⟨fun hmode => (h s).trans (ckGate_uninit hmode _), fun hmode => (h s).trans (ckGate_failed hmode _)⟩

/-- Every Cuckoo command but CK_INIT is gated (R144). -/
theorem gatedOut_of_mem {i : Instr}
    (hi : i ∈ [Instr.ckPut, .ckGet, .ckRemove, .ckSize, .ckClear, .ckCapacity, .ckReadSlot]) : GatedOut i := by
  cases i with
  | ckPut | ckGet | ckRemove | ckSize | ckClear | ckCapacity | ckReadSlot => exact gatedOut_of_ckGate fun _ => rfl
  | nop | strClear | strPush | heHash | bfConfig | bfConfigSized | bfAdd | bfContains | bfReadWord | ckInit => simp at hi

/-! ## CK_INIT and FAILED -/

theorem tryInit_of_nonpos {s : State} {C : Int} (h : C ≤ 0) : s.tryInit C = s.raise .invalidParam := if_pos h

/-- A capacity of at least 1 is held against CAP_MAX (R145). -/
theorem tryInit_of_pos {s : State} {C : Int} (h : 1 ≤ C) :
    s.tryInit C =
      if C > s.cfg.capMax then s.raise .resource
      else State.done { s with ckMode := .ready, capacity := C.toNat, slots := [] } false :=
  if_neg (by omega)

/-- The Cuckoo unit's own state (10_state.md R35). -/
def State.cuckoo (s : State) : CkMode × Nat × SlotStore := (s.ckMode, s.capacity, s.slots)

/-- A command of another unit leaves the Cuckoo unit alone (41_bloom.md R128). -/
theorem exec_cuckoo {i : Instr} {s t : State}
    (hi : i ∉ [Instr.ckInit, .ckPut, .ckGet, .ckRemove, .ckSize, .ckClear, .ckCapacity, .ckReadSlot])
    (h : exec i s = .next t) : t.cuckoo = s.cuckoo := by
  cases i with
  | ckInit | ckPut | ckGet | ckRemove | ckSize | ckClear | ckCapacity | ckReadSlot => simp at hi
  | nop | strClear | heHash ch => cases h; rfl
  | strPush u =>
    by_cases hfull : s.str.length = s.cfg.strMax
    · rw [exec_strPush_of_full hfull] at h; cases h; rfl
    · rw [exec_strPush_of_room hfull] at h; cases h; rfl
  | bfConfig => obtain ⟨-, rfl⟩ | ⟨-, -, rfl⟩ | ⟨-, -, rfl⟩ := tryConfigure_next h <;> rfl
  | bfConfigSized => obtain ⟨-, rfl⟩ | ⟨-, -, rfl⟩ | ⟨-, -, rfl⟩ := tryConfigureSized_next h <;> rfl
  | bfAdd | bfContains =>
    obtain ⟨-, rfl⟩ | ⟨-, h⟩ := bfGate_next h
    · rfl
    · cases h; rfl
  | bfReadWord =>
    obtain ⟨-, rfl⟩ | ⟨-, h⟩ := bfGate_next h
    · rfl
    · split at h <;> cases h <;> rfl

/-- A unit in FAILED stays there unless the command is CK_INIT: the other Cuckoo commands are gated (R144), the rest do not
write the unit. -/
theorem exec_stays_failed {i : Instr} {s t : State} (hi : i ≠ .ckInit) (hfailed : s.ckMode = .failed)
    (h : exec i s = .next t) : t.ckMode = .failed := by
  by_cases hgated : i ∈ [Instr.ckPut, .ckGet, .ckRemove, .ckSize, .ckClear, .ckCapacity, .ckReadSlot]
  · cases ((gatedOut_of_mem hgated s).2 hfailed).symm.trans h
    exact hfailed
  · have hkept : t.cuckoo = s.cuckoo := exec_cuckoo (List.not_mem_cons_of_ne_of_not_mem hi hgated) h
    exact (congrArg Prod.fst hkept).trans hfailed

/-! ## The displacement loop -/

theorem State.putWork_of_fresh {s : State} {c : Latched} (h : s.phase = .command c none) :
    s.putWork = ⟨s.capacity, s.slots, [⟨c.arg0, c.arg1⟩], none⟩ := by
  simp [State.putWork, State.putStart, State.larg0, State.larg1, State.latched, h]

/-- A pair that neither candidate slot holds is not PRESENT; without DUP_PRECHECK none is (R149). -/
theorem present_eq_false {p : Params} {c : Nat} {m : SlotStore} {q : Pair}
    (h1st : slotRead m (h1 p c q.key) ≠ some q) (h2nd : p.dupPrecheck = true → slotRead m (h2 p c q.key) ≠ some q) :
    present p c m q = false := by
  cases hdup : p.dupPrecheck with
  | false => simp [present, hdup]
  | true => simp [present, h1st, h2nd hdup]

theorem attempt_of_empty {p : Params} {c fuel : Nat} {m : SlotStore} {cur : Pair} {pos : Nat}
    (h : slotRead m pos = none) : attempt p c (fuel + 1) m cur pos = .seated (slotWrite m pos (some cur)) := by
  rw [attempt, h]

/-- An item that meets another pair takes its slot, and the attempt goes on with that pair at its alternate slot (R150). -/
theorem attempt_of_other {p : Params} {c fuel : Nat} {m : SlotStore} {cur e : Pair} {pos : Nat}
    (h : slotRead m pos = some e) (hne : e ≠ cur) :
    attempt p c (fuel + 1) m cur pos = attempt p c fuel (slotWrite m pos (some cur)) e (alt p c e.key pos) := by
  rw [attempt, h]
  exact if_neg hne

/-- One displacement: the evicted pair finds its alternate slot Empty, so two writes end the attempt. -/
theorem attempt_of_displaced {p : Params} {c : Nat} (hc : 2 ≤ c) {m : SlotStore} {cur e : Pair} {pos : Nat}
    (h : slotRead m pos = some e) (hne : e ≠ cur) (halt : alt p c e.key pos ≠ pos)
    (hempty : slotRead m (alt p c e.key pos) = none) :
    attempt p c c m cur pos =
      .seated (slotWrite (slotWrite m pos (some cur)) (alt p c e.key pos) (some e)) := by
  obtain ⟨n, hn⟩ : ∃ n, c = n + 1 + 1 := ⟨c - 2, by omega⟩
  have hstill : slotRead (slotWrite m pos (some cur)) (alt p c e.key pos) = none := by
    rw [slotRead_slotWrite_some, if_neg halt, hempty]
  calc attempt p c c m cur pos
      = attempt p c (n + 1 + 1) m cur pos := by rw [← hn]
    _ = attempt p c (n + 1) (slotWrite m pos (some cur)) e (alt p c e.key pos) := attempt_of_other h hne
    _ = .seated (slotWrite (slotWrite m pos (some cur)) (alt p c e.key pos) (some e)) := attempt_of_empty hstill

/-- A put whose one item is seated by its first attempt ends at the capacity it began with (R146). -/
theorem finishPut_of_seated {p : Params} {c : Nat} {m m' : SlotStore} {q : Pair} (hnew : present p c m q = false)
    (h : attempt p c c m q (h1 p c q.key) = .seated m') : finishPut p ⟨c, m, [q], none⟩ = .seated c m' := by
  have hsettle : settle p ⟨c, m, [q], none⟩ = .all m' := by simp [settle, drain, hnew, h]
  exact finishPut_of_all hsettle

theorem exec_ckPut_of_seated {s : State} {c : Nat} {m : SlotStore} (h : s.ckMode = .ready)
    (hend : finishPut s.cfg s.putWork = .seated c m) :
    exec .ckPut s = State.done { s with capacity := c, slots := m } false := by
  refine (ckGate_ready h _).trans ?_
  rw [hend]

/-! ## Lookup and removal -/

theorem keyedValue_eq_some_iff {e : Option Pair} {x v : Word} : keyedValue e x = some v ↔ e = some ⟨x, v⟩ := by
  cases e with
  | none => simp [keyedValue]
  | some q =>
    obtain ⟨key, value⟩ := q
    simp [keyedValue]

theorem keyedValue_eq_none_iff {e : Option Pair} {x : Word} : keyedValue e x = none ↔ ∀ v, e ≠ some ⟨x, v⟩ := by
  simp only [Option.eq_none_iff_forall_ne_some, ne_eq, keyedValue_eq_some_iff]

theorem State.lookup_eq_or (s : State) (x : Word) :
    s.lookup x =
      (keyedValue (slotRead s.slots (h1 s.cfg s.capacity x)) x).or
        (keyedValue (slotRead s.slots (h2 s.cfg s.capacity x)) x) := by
  unfold State.lookup
  cases keyedValue (slotRead s.slots (h1 s.cfg s.capacity x)) x <;> rfl

theorem exec_ckGet_of_some {s : State} {v : Word} (h : s.ckMode = .ready) (hv : s.lookup s.larg0 = some v) :
    exec .ckGet s = (s.setRes v 0).done true := by
  refine (ckGate_ready h _).trans ?_
  rw [hv]

theorem exec_ckGet_of_none {s : State} (h : s.ckMode = .ready) (hnone : s.lookup s.larg0 = none) :
    exec .ckGet s = (s.setRes 0 0).done false := by
  refine (ckGate_ready h _).trans ?_
  rw [hnone]

/-- The slot CK_REMOVE clears: `h1` if it holds the pair, else `h2` if that does (R156). -/
theorem State.removeAt_eq_some_iff {s : State} {q : Pair} {i : Nat} :
    s.removeAt q = some i ↔
      slotRead s.slots (h1 s.cfg s.capacity q.key) = some q ∧ i = h1 s.cfg s.capacity q.key ∨
        slotRead s.slots (h1 s.cfg s.capacity q.key) ≠ some q ∧
          slotRead s.slots (h2 s.cfg s.capacity q.key) = some q ∧ i = h2 s.cfg s.capacity q.key := by
  by_cases h1st : slotRead s.slots (h1 s.cfg s.capacity q.key) = some q
  · simp [State.removeAt, h1st, eq_comm (a := i)]
  · by_cases h2nd : slotRead s.slots (h2 s.cfg s.capacity q.key) = some q <;>
      simp [State.removeAt, h1st, h2nd, eq_comm (a := i)]

theorem State.removeAt_eq_none {s : State} {q : Pair} (h1st : slotRead s.slots (h1 s.cfg s.capacity q.key) ≠ some q)
    (h2nd : slotRead s.slots (h2 s.cfg s.capacity q.key) ≠ some q) : s.removeAt q = none :=
  (if_neg h1st).trans (if_neg h2nd)

theorem exec_ckRemove_of_some {s : State} {i : Nat} (h : s.ckMode = .ready)
    (hi : s.removeAt ⟨s.larg0, s.larg1⟩ = some i) :
    exec .ckRemove s = State.done { s with slots := slotWrite s.slots i none } true := by
  refine (ckGate_ready h _).trans ?_
  rw [hi]

theorem exec_ckRemove_of_none {s : State} (h : s.ckMode = .ready) (hnone : s.removeAt ⟨s.larg0, s.larg1⟩ = none) :
    exec .ckRemove s = s.done false := by
  refine (ckGate_ready h _).trans ?_
  rw [hnone]

/-! ## Read-outs -/

/-- In canonical form the entries below the capacity are, slot for slot, the slots that read as Occupied. -/
theorem occupied_eq_length_filter {c : Nat} {m : SlotStore} (h : SlotStore.wf m) :
    occupied c m = ((List.range c).filter (fun i => (slotRead m i).isSome)).length := by
  have hnodup : ((m.filter (fun e => decide (e.1 < c))).map (·.1)).Nodup :=
    List.Pairwise.map _ (fun _ _ hlt => Nat.ne_of_lt hlt) (h.filter _)
  have hperm : ((m.filter (fun e => decide (e.1 < c))).map (·.1)).Perm
      ((List.range c).filter (fun i => (slotRead m i).isSome)) := by
    refine (List.perm_ext_iff_of_nodup hnodup (List.nodup_range.filter _)).2 fun i => ?_
    simp [Option.isSome_iff_exists, ← mem_iff_slotRead h, and_comm]
  calc occupied c m
      = ((m.filter (fun e => decide (e.1 < c))).map (·.1)).length := by simp [occupied, snapshot]
    _ = _ := hperm.length_eq

theorem exec_ckSize_of_ready {s : State} (h : s.ckMode = .ready) :
    exec .ckSize s = (s.setRes (BitVec.ofNat 32 (occupied s.capacity s.slots)) 0).done false := ckGate_ready h _

theorem exec_ckSize_res0_of_nil {s t : State} (h : exec .ckSize s = .next t) (hready : s.ckMode = .ready)
    (hnil : s.slots = []) : t.res0 = 0 := by
  rw [exec_ckSize_of_ready hready, hnil] at h
  cases h
  rfl

theorem exec_ckReadSlot_of_ge {s : State} (h : s.ckMode = .ready) (hidx : s.capacity ≤ u32 s.larg0) :
    exec .ckReadSlot s = s.raise .invalidParam :=
  (ckGate_ready h _).trans (if_pos hidx)

theorem exec_ckReadSlot_of_some {s : State} {q : Pair} (h : s.ckMode = .ready) (hidx : u32 s.larg0 < s.capacity)
    (hq : slotRead s.slots (u32 s.larg0) = some q) : exec .ckReadSlot s = (s.setRes q.key q.value).done true := by
  refine (ckGate_ready h _).trans ((if_neg (not_le.2 hidx)).trans ?_)
  rw [hq]

theorem exec_ckReadSlot_of_none {s : State} (h : s.ckMode = .ready) (hidx : u32 s.larg0 < s.capacity)
    (hnone : slotRead s.slots (u32 s.larg0) = none) : exec .ckReadSlot s = (s.setRes 0 0).done false := by
  refine (ckGate_ready h _).trans ((if_neg (not_le.2 hidx)).trans ?_)
  rw [hnone]

/-! ## The statements of 42_cuckoo.md -/

/-- Settles O35, from `h2_eq_h1_add`, `h1_eq_h2_of_dvd` and, under the default KHASH, the exact magnitude
(`mag_of_sext`). -/
theorem candidateSlots : Obligations.CandidateSlots := by
  intro p c x y hc
  refine ⟨rfl, rfl, h1_lt p hc x, h2_lt p hc x, h2_eq_h1_add p c x, fun hsame => ?_, fun hdvd => h1_eq_h2_of_dvd hdvd p x,
    fun hsext => ⟨keyHash_of_sext hsext x, ?_, ?_, ?_⟩⟩
  · rw [h2_eq_h1_add, h2_eq_h1_add, hsame]
  · rw [mag_of_sext hsext]; decide
  · rw [h1, mag_of_sext hsext]; decide
  · rw [h2, mag_of_sext hsext]; decide

/-- Settles O40: the put has one item, which is not PRESENT, and its attempt is one displacement
(`attempt_of_displaced`). -/
theorem ckPutDisplacesToTheAlternateSlot : Obligations.CkPutDisplacesToTheAlternateSlot := by
  refine ⟨fun p c x pos => rfl, fun s c e hfresh hready hcap hheld hne h2nd halt hempty => ?_⟩
  have hnew : present s.cfg s.capacity s.slots ⟨c.arg0, c.arg1⟩ = false :=
    present_eq_false (by simpa [hheld] using hne) h2nd
  have hend := finishPut_of_seated hnew (attempt_of_displaced hcap hheld hne halt hempty)
  rw [← State.putWork_of_fresh hfresh] at hend
  refine ⟨_, exec_ckPut_of_seated hready hend, rfl, fun j => ?_⟩
  rw [State.complete_slots, slotRead_slotWrite_some, slotRead_slotWrite_some]
  obtain rfl | hj := eq_or_ne j (h1 s.cfg s.capacity c.arg0)
  · rw [if_neg halt.symm, if_pos rfl, if_pos rfl]
  · rw [if_neg hj, if_neg hj]

/-- Settles O46: the value found is that of `h1`, else of `h2` (`State.lookup_eq_or`). -/
theorem ckGetCompletes : Obligations.CkGetCompletes := by
  refine ⟨encodedOnlyAs_of_commandOf (by decide) (by decide) rfl, gatedOut_of_mem (by decide), fun s hready =>
    ⟨fun v h1st => ?_, fun v h1st h2nd => ?_, fun h1st h2nd => ?_⟩⟩
  · refine exec_ckGet_of_some hready ?_
    rw [State.lookup_eq_or, keyedValue_eq_some_iff.2 h1st, Option.some_or]
  · refine exec_ckGet_of_some hready ?_
    rw [State.lookup_eq_or, keyedValue_eq_none_iff.2 h1st, keyedValue_eq_some_iff.2 h2nd, Option.none_or]
  · refine exec_ckGet_of_none hready ?_
    rw [State.lookup_eq_or, keyedValue_eq_none_iff.2 h1st, keyedValue_eq_none_iff.2 h2nd, Option.none_or]

/-- Settles O48: the slot named is the one CK_REMOVE clears (`State.removeAt_eq_some_iff`), and a cleared slot leaves every
other as it was. -/
theorem ckRemoveCompletes : Obligations.CkRemoveCompletes := by
  refine ⟨encodedOnlyAs_of_commandOf (by decide) (by decide) rfl, gatedOut_of_mem (by decide), fun s hready hwf =>
    ⟨fun i hi => ?_, fun h1st h2nd => exec_ckRemove_of_none hready (State.removeAt_eq_none h1st h2nd)⟩⟩
  exact ⟨_, exec_ckRemove_of_some hready (State.removeAt_eq_some_iff.2 hi), rfl, slotRead_slotWrite_none hwf i⟩

/-- Settles O50: the size counts the Occupied slots (`occupied_eq_length_filter`); the index is checked before the slot is
read. -/
theorem ckReadOutsComplete : Obligations.CkReadOutsComplete := by
  refine ⟨encodedOnlyAs_of_commandOf (by decide) (by decide) rfl, encodedOnlyAs_of_commandOf (by decide) (by decide) rfl,
    encodedOnlyAs_of_commandOf (by decide) (by decide) rfl, gatedOut_of_mem (by decide), gatedOut_of_mem (by decide),
    gatedOut_of_mem (by decide), fun s hready => ⟨fun hwf => ?_, ckGate_ready hready _, rfl, ?_, ?_, ?_⟩⟩
  · rw [exec_ckSize_of_ready hready, occupied_eq_length_filter hwf]
    rfl
  · exact exec_ckReadSlot_of_ge hready
  · exact fun hidx q => exec_ckReadSlot_of_some hready hidx
  · exact exec_ckReadSlot_of_none hready

/-- Settles O36: the gate stands before every command but CK_INIT (`gatedOut_of_mem`), the decoder before the gate. -/
theorem cuckooModeGate : Obligations.CuckooModeGate :=
  ⟨fun _ => gatedOut_of_mem, fun _ _ => completesIllegal_of_decode_error⟩

/-- Settles O37, by the checks in their order and `exec_stays_failed`. -/
theorem ckInitCompletes : Obligations.CkInitCompletes := by
  refine ⟨encodedOnlyAs_of_commandOf (by decide) (by decide) rfl, fun i s t h hfailed hleft => ?_, fun s =>
    ⟨fun hpos hmax => ⟨?_, slotRead_nil⟩, tryInit_of_nonpos, fun hpos hmax => ?_⟩⟩
  · by_contra hi
    exact hleft (exec_stays_failed hi hfailed h)
  · exact (tryInit_of_pos hpos).trans (if_neg (not_lt.2 hmax))
  · exact (tryInit_of_pos hpos).trans (if_pos hmax)

/-- Settles O51: the slots become the empty store, of which CK_SIZE counts no entry (`exec_ckSize_res0_of_nil`). -/
theorem ckClearCompletes : Obligations.CkClearCompletes := by
  refine ⟨encodedOnlyAs_of_commandOf (by decide) (by decide) rfl, gatedOut_of_mem (by decide), fun s hready =>
    ⟨_, ckGate_ready hready _, rfl, slotRead_nil, rfl, fun u hsize => exec_ckSize_res0_of_nil hsize hready rfl⟩⟩

end Sys2Proof.Machine
end

section
/-! Errors (spec 60_exceptions.md): how a command can end (R180, R181), and how the Cuckoo unit enters and leaves FAILED
(R186, 42_cuckoo.md R153). -/

namespace Sys2Proof.Machine

open Config (Params)

/-! ## The bound that a failing CK_PUT met -/

/-- A CK_PUT ends by FAIL only at a capacity that cannot grow within CAP_MAX (R153): every grow before it raised the
capacity. -/
theorem finishPut_exhausted {p : Params} {c : Nat} {w : PutWork} (h : finishPut p w = .exhausted c) :
    p.capMax < grownCap c := by
  induction hroom : p.capMax - w.cap using Nat.strong_induction_on generalizing w with
  | _ n ih =>
    cases hs : settle p w with
    | all m => rw [finishPut_of_all hs] at h; cases h
    | stuck m u rest =>
      rw [finishPut_of_stuck hs] at h
      split at h
      · next hlast => cases h; exact hlast
      · next hgrow =>
        refine ih (p.capMax - grownCap w.cap) ?_ h rfl
        unfold grownCap at hgrow ⊢
        omega

/-! ## How a command ends -/

/-- How a command `i` that completes from `s` in `t` can have ended: without error, by CK_INIT without error, by `raise` of
an error other than CAP_EXHAUSTED, or by FAIL (R181). -/
inductive Ending (i : Instr) (s t : State) : Prop where
  | ok (hi : i ≠ .ckInit) (herr : t.err = .ok) (hmode : t.ckMode = s.ckMode)
  | inited (hi : i = .ckInit) (herr : t.err = .ok) (hmode : t.ckMode = .ready) (hslots : t.slots = [])
  | raised (e : Err) (hne : e ≠ .ok ∧ e ≠ .capExhausted) (ht : t = s.complete e false)
  | exhausted (c : Nat) (hi : i = .ckPut) (hready : s.ckMode = .ready)
      (hend : finishPut s.cfg s.putWork = .exhausted c)
      (ht : t = State.complete
        { s with ckMode := .failed, capacity := c, slots := failedSlots s.draws c, draws := s.draws + 1 }
        .capExhausted false)

theorem bfGate_ending {i : Instr} {s t : State} {body : Result} (h : bfGate s body = .next t)
    (hbody : body = .next t → Ending i s t) : Ending i s t := by
  obtain ⟨-, ht⟩ | ⟨-, h⟩ := bfGate_next h
  · exact .raised .notConfigured (by decide) ht
  · exact hbody h

theorem ckGate_ending {i : Instr} {s t : State} {body : Result} (h : ckGate s body = .next t)
    (hbody : s.ckMode = .ready → body = .next t → Ending i s t) : Ending i s t := by
  obtain ⟨-, ht⟩ | ⟨-, ht⟩ | ⟨hready, h⟩ := ckGate_next h
  · exact .raised .notConfigured (by decide) ht
  · exact .raised .unitFailed (by decide) ht
  · exact hbody hready h

/-- Every command ends in one of these ways, in every state. -/
theorem exec_ending {i : Instr} {s t : State} (h : exec i s = .next t) : Ending i s t := by
  cases i with
  | nop | strClear | heHash ch => cases h; exact .ok nofun rfl rfl
  | strPush u =>
    by_cases hfull : s.str.length = s.cfg.strMax
    · rw [exec_strPush_of_full hfull] at h; cases h; exact .raised .strFull (by decide) rfl
    · rw [exec_strPush_of_room hfull] at h; cases h; exact .ok nofun rfl rfl
  | bfConfig =>
    obtain ⟨-, ht⟩ | ⟨-, -, ht⟩ | ⟨-, -, rfl⟩ := tryConfigure_next h
    · exact .raised .invalidParam (by decide) ht
    · exact .raised .resource (by decide) ht
    · exact .ok nofun rfl rfl
  | bfConfigSized =>
    obtain ⟨-, ht⟩ | ⟨-, -, ht⟩ | ⟨-, -, rfl⟩ := tryConfigureSized_next h
    · exact .raised .invalidParam (by decide) ht
    · exact .raised .resource (by decide) ht
    · exact .ok nofun rfl rfl
  | bfAdd | bfContains => exact bfGate_ending h fun h => by cases h; exact .ok nofun rfl rfl
  | bfReadWord =>
    refine bfGate_ending h fun h => ?_
    split at h <;> cases h
    · exact .raised .invalidParam (by decide) rfl
    · exact .ok nofun rfl rfl
  | ckInit =>
    obtain ⟨-, ht⟩ | ⟨-, -, ht⟩ | ⟨-, -, rfl⟩ := tryInit_next h
    · exact .raised .invalidParam (by decide) ht
    · exact .raised .resource (by decide) ht
    · exact .inited rfl rfl rfl rfl
  | ckPut =>
    refine ckGate_ending h fun hready _ => ?_
    obtain ⟨c, m, -, rfl⟩ | ⟨c, hend, ht⟩ := ckPut_next hready h
    · exact .ok nofun rfl rfl
    · exact .exhausted c rfl hready hend ht
  | ckGet | ckRemove => exact ckGate_ending h fun _ h => by split at h <;> cases h <;> exact .ok nofun rfl rfl
  | ckSize | ckClear | ckCapacity => exact ckGate_ending h fun _ h => by cases h; exact .ok nofun rfl rfl
  | ckReadSlot =>
    refine ckGate_ending h fun _ h => ?_
    split at h
    · cases h; exact .raised .invalidParam (by decide) rfl
    · split at h <;> cases h <;> exact .ok nofun rfl rfl

/-! ## The other units do not see the Cuckoo unit -/

/-- The state with another Cuckoo unit in it. -/
def State.withCuckoo (s : State) (mode : CkMode) (c : Nat) (m : SlotStore) : State :=
  { s with ckMode := mode, capacity := c, slots := m }

/-- An answer with its next state, if it has one, mapped by `f`. -/
def mapNext (f : State → State) : Result → Result
  | .next s => .next (f s)
  | .fault r => .fault r
  | .refused r => .refused r

/-- A command of another unit runs alike whatever the Cuckoo unit is, and hands it on (41_bloom.md R128). -/
theorem exec_withCuckoo_eq {i : Instr}
    (hi : i ∉ [Instr.ckInit, .ckPut, .ckGet, .ckRemove, .ckSize, .ckClear, .ckCapacity, .ckReadSlot])
    (s : State) (mode : CkMode) (c : Nat) (m : SlotStore) :
    exec i (s.withCuckoo mode c m) = mapNext (State.withCuckoo · mode c m) (exec i s) := by
  cases i with
  | ckInit | ckPut | ckGet | ckRemove | ckSize | ckClear | ckCapacity | ckReadSlot => simp at hi
  | nop | strClear | heHash ch => rfl
  | strPush u => simp only [exec, execStrPush, apply_ite (mapNext _)]; rfl
  | bfConfig => simp only [exec, execBfConfig, State.tryConfigure, apply_ite (mapNext _)]; rfl
  | bfConfigSized => simp only [exec, execBfConfigSized, State.tryConfigureSized, apply_ite (mapNext _)]; rfl
  | bfAdd => simp only [exec, execBfAdd, bfGate, apply_ite (mapNext _)]; rfl
  | bfContains => simp only [exec, execBfContains, bfGate, apply_ite (mapNext _)]; rfl
  | bfReadWord => simp only [exec, execBfReadWord, bfGate, apply_ite (mapNext _)]; rfl

theorem exec_withCuckoo {i : Instr} {s t : State}
    (hi : i ∉ [Instr.ckInit, .ckPut, .ckGet, .ckRemove, .ckSize, .ckClear, .ckCapacity, .ckReadSlot])
    (h : exec i s = .next t) (mode : CkMode) (c : Nat) (m : SlotStore) :
    exec i (s.withCuckoo mode c m) = .next (t.withCuckoo mode c m) := by
  rw [exec_withCuckoo_eq hi, h]
  rfl

theorem exec_with_ckMode {i : Instr} {s t : State}
    (hi : i ∉ [Instr.ckInit, .ckPut, .ckGet, .ckRemove, .ckSize, .ckClear, .ckCapacity, .ckReadSlot])
    (h : exec i s = .next t) (mode : CkMode) : exec i { s with ckMode := mode } = .next { t with ckMode := mode } := by
  have hkept := exec_cuckoo hi h
  simp only [State.cuckoo, Prod.mk.injEq] at hkept
  obtain ⟨-, hcap, hslots⟩ := hkept
  refine (exec_withCuckoo hi h mode s.capacity s.slots).trans ?_
  rw [State.withCuckoo, ← hcap, ← hslots]

/-! ## What a step makes of the Cuckoo unit -/

theorem workTurn_cuckoo (s : State) : (workTurn s).cuckoo = s.cuckoo := by
  obtain h | ⟨c, w, w', -, -, -, -, h⟩ := workTurn_cases s <;> exact (congrArg State.cuckoo h).trans rfl

theorem writeReg_cuckoo (r : Reg) (v : Word) (s : State) : (writeReg r v s).cuckoo = s.cuckoo := by
  obtain ⟨-, -, h⟩ | ⟨-, -, h⟩ | ⟨-, -, h⟩ | ⟨-, a, b, c, h⟩ | ⟨-, -, h⟩ := writeReg_cases r v s <;>
    exact (congrArg State.cuckoo h).trans rfl

theorem hostTurn_cuckoo {s t : State} (h : hostTurn s = .next t) : t.cuckoo = s.cuckoo := by
  obtain ⟨n, l, g, p, rfl⟩ | ⟨r, v, rest, -, rfl⟩ := hostTurn_next h
  · rfl
  · exact writeReg_cuckoo r v (s.setHost rest)

/-- A step leaves the Cuckoo unit alone, or completes a command, or is reset. -/
theorem step_cuckoo_cases {s t : State} (h : step s = .next t) :
    t.cuckoo = s.cuckoo ∨
    (∃ i, s.completing = some i ∧ exec i s.popTurn = .next t) ∨
    (s.nextTurn = .reset ∧ t = resetTurn s.popTurn) := by
  obtain ⟨-, ⟨hturn, he⟩ | ⟨-, rfl⟩ | ⟨-, hh⟩ | hreset⟩ := step_next h
  · obtain ⟨-, heq⟩ | ⟨-, heq⟩ | ⟨c, w, i, hp, hd, heq⟩ | ⟨c, w, e, -, -, heq⟩ := engineTurn_cases s.popTurn
    · cases heq.symm.trans he; exact .inl rfl
    · cases heq.symm.trans he; exact .inl rfl
    · exact .inr (.inl ⟨i, State.completing_of_command hturn hp hd, heq.symm.trans he⟩)
    · cases heq.symm.trans he; exact .inl rfl
  · exact .inl (workTurn_cuckoo s.popTurn)
  · exact .inl ((hostTurn_cuckoo hh).trans rfl)
  · exact .inr (.inr hreset)

/-! ## FAILED -/

/-- CK_INIT on a unit in FAILED makes an empty READY table, or ends in an error and leaves FAILED (R186). -/
theorem exec_ckInit_of_failed {s t : State} (hfailed : s.ckMode = .failed) (h : exec .ckInit s = .next t) :
    t.err = .ok ∧ t.ckMode = .ready ∧ (∀ i, slotRead t.slots i = none) ∨ t.err ≠ .ok ∧ t.ckMode = .failed := by
  cases exec_ending h with
  | ok hi => exact absurd rfl hi
  | inited _ herr hmode hslots => exact .inl ⟨herr, hmode, fun i => by rw [hslots, slotRead_nil]⟩
  | raised e hne ht => subst ht; exact .inr ⟨hne.1, hfailed⟩
  | exhausted c hi => cases hi

/-- A step leaves FAILED only by a CK_INIT that completes without error, or by reset (R186). -/
theorem step_of_failed {s t : State} (h : step s = .next t) (hfailed : s.ckMode = .failed) :
    t.ckMode = .failed ∨
    s.completing = some .ckInit ∧ t.ckMode = .ready ∧ t.err = .ok ∧ (∀ i, slotRead t.slots i = none) ∨
    s.nextTurn = .reset ∧ t.ckMode = .uninit := by
  obtain hkept | ⟨i, hcompl, he⟩ | ⟨hturn, rfl⟩ := step_cuckoo_cases h
  · exact .inl ((congrArg Prod.fst hkept).trans hfailed)
  · by_cases hi : i = .ckInit
    · subst hi
      obtain ⟨herr, hmode, hempty⟩ | ⟨-, hmode⟩ := exec_ckInit_of_failed (s := s.popTurn) hfailed he
      · exact .inr (.inl ⟨hcompl, hmode, herr, hempty⟩)
      · exact .inl hmode
    · exact .inl (exec_stays_failed (s := s.popTurn) hi hfailed he)
  · exact .inr (.inr ⟨hturn, rfl⟩)

/-- A command enters FAILED only as a CK_PUT that the bound CAP_MAX ends (R153). -/
theorem exec_enters_failed {i : Instr} {s t : State} (h : exec i s = .next t) (hs : s.ckMode ≠ .failed)
    (ht : t.ckMode = .failed) :
    i = .ckPut ∧ s.ckMode = .ready ∧ t.err = .capExhausted ∧ s.cfg.capMax < 2 * t.capacity + 1 := by
  cases exec_ending h with
  | ok _ _ hmode => exact absurd (hmode.symm.trans ht) hs
  | inited _ _ hmode => cases hmode.symm.trans ht
  | raised e _ heq => subst heq; exact absurd ht hs
  | exhausted c hi hready hend heq => subst heq; exact ⟨hi, hready, rfl, finishPut_exhausted hend⟩

theorem step_enters_failed {s t : State} (h : step s = .next t) (hs : s.ckMode ≠ .failed) (ht : t.ckMode = .failed) :
    s.completing = some .ckPut ∧ s.ckMode = .ready ∧ t.err = .capExhausted ∧ s.cfg.capMax < 2 * t.capacity + 1 := by
  obtain hkept | ⟨i, hcompl, he⟩ | ⟨-, rfl⟩ := step_cuckoo_cases h
  · exact absurd ((congrArg Prod.fst hkept).symm.trans ht) hs
  · obtain ⟨rfl, hfail⟩ := exec_enters_failed he hs ht
    exact ⟨hcompl, hfail⟩
  · cases ht

/-! ## The statements of 60_exceptions.md -/

/-- Settles O54, from the ways a command can end (`exec_ending`). -/
theorem errorsHaveNoOtherEffect : Obligations.ErrorsHaveNoOtherEffect := by
  refine ⟨fun w e => completesIllegal_of_decode_error, fun i s t h => ?_⟩
  cases exec_ending h with
  | ok _ herr | inited _ herr => exact ⟨fun hne => absurd herr hne, fun hex => by cases herr.symm.trans hex⟩
  | raised e hne ht => subst ht; exact ⟨fun _ _ => rfl, fun hex => absurd hex hne.2⟩
  | exhausted c hi _ _ ht => subst ht; exact ⟨fun _ hne => absurd rfl hne, fun _ => ⟨hi, rfl⟩⟩

/-- Settles O56: the gate (`gatedOut_of_mem`), CK_INIT (`exec_ckInit_of_failed`), the other units (`exec_with_ckMode`), and
what one step does to a unit that is in FAILED (`step_of_failed`) or comes into it (`step_enters_failed`). -/
theorem failedIsEnteredAndLeftAsStated : Obligations.FailedIsEnteredAndLeftAsStated := by
  refine ⟨fun i s hfailed hi => (gatedOut_of_mem hi s).2 hfailed, fun s t hfailed h => ?_, fun s => rfl,
    fun i s t m hi h => exec_with_ckMode ?_ h m, fun s t => step_of_failed, fun s t => step_enters_failed⟩
  · obtain ⟨herr, hready⟩ | ⟨herr, hstays⟩ := exec_ckInit_of_failed hfailed h
    · exact ⟨fun _ => hready, fun hne => absurd herr hne⟩
    · exact ⟨fun hok => absurd hok herr, fun _ => hstays⟩
  · cases i with
    | ckInit | ckPut | ckGet | ckRemove | ckSize | ckClear | ckCapacity | ckReadSlot => simp at hi
    | nop | strClear | strPush | heHash | bfConfig | bfConfigSized | bfAdd | bfContains | bfReadWord => simp

end Sys2Proof.Machine
end

section
/-! Writes of the operand registers (spec 10_state.md R26, 70_reset_and_hazards.md R212). -/

namespace Sys2Proof.Machine

/-- A command in progress runs alike whatever ARG0 to ARG2 hold, and hands them on: its operands are latched (R27, R212). -/
theorem exec_with_args {i : Instr} {s t : State} {c : Latched} {pw : Option PutWork} (hp : s.phase = .command c pw)
    (h : exec i s = .next t) (a0 a1 a2 : Word) :
    exec i { s with arg0 := a0, arg1 := a1, arg2 := a2 } = .next { t with arg0 := a0, arg1 := a1, arg2 := a2 } := by
  have hlatched : State.latched { s with arg0 := a0, arg1 := a1, arg2 := a2 } = s.latched := by
    simp only [State.latched, hp]
  have hwork : State.putWork { s with arg0 := a0, arg1 := a1, arg2 := a2 } = s.putWork := by
    cases pw with
    | none =>
      have hfresh := State.putWork_of_fresh (s := { s with arg0 := a0, arg1 := a1, arg2 := a2 }) hp
      exact hfresh.trans (State.putWork_of_fresh hp).symm
    | some w => simp only [State.putWork, hp]
  refine (exec_unread i a0 a1 a2 s.ovr hlatched hwork h).trans ?_
  rw [← (exec_untouched h).2.ovr]

/-- A write of ARG0 to ARG2 while a command is in progress changes nothing of what the command does (R212). -/
theorem exec_writeReg_arg {i : Instr} {s t : State} {c : Latched} {pw : Option PutWork} {r : Reg}
    (hp : s.phase = .command c pw) (hr : r ∈ [Reg.arg0, Reg.arg1, Reg.arg2]) (h : exec i s = .next t) (v : Word) :
    exec i (writeReg r v s) = .next (writeReg r v t) := by
  obtain ⟨-, hkept⟩ := exec_untouched h
  simp only [List.mem_cons, List.not_mem_nil, or_false] at hr
  obtain rfl | rfl | rfl := hr
  · exact (exec_with_args hp h v s.arg1 s.arg2).trans (by rw [← hkept.arg1, ← hkept.arg2]; rfl)
  · exact (exec_with_args hp h s.arg0 v s.arg2).trans (by rw [← hkept.arg0, ← hkept.arg2]; rfl)
  · exact (exec_with_args hp h s.arg0 s.arg1 v).trans (by rw [← hkept.arg0, ← hkept.arg1]; rfl)

/-- ARG0 to ARG2 read back what is written, busy or idle (R26, R211). -/
theorem readReg_writeReg_arg {r : Reg} (hr : r ∈ [Reg.arg0, Reg.arg1, Reg.arg2]) (v : Word) (s : State) :
    (readReg r (writeReg r v s)).1 = v := by
  simp only [List.mem_cons, List.not_mem_nil, or_false] at hr
  obtain rfl | rfl | rfl := hr <;> rfl

/-- Settles O11: the operands of the command in progress are latched (`exec_writeReg_arg`). -/
theorem operandWritesDoNotDisturbTheCommand : Obligations.OperandWritesDoNotDisturbTheCommand :=
  ⟨fun s v => ⟨rfl, rfl, rfl, fun _ hr => readReg_writeReg_arg hr v s⟩,
    fun _ t _ _ _ _ v hp hr h => ⟨exec_writeReg_arg hp hr h v, readReg_writeReg_arg hr v t⟩⟩

end Sys2Proof.Machine
end

section
/-! The stores of a unit that is not in use (spec 70_reset_and_hazards.md R202): the slots of a Cuckoo unit that is not READY
(10_state.md R35) and the bits of a Bloom unit that is not configured (R34) reach no read and no command. -/

namespace Sys2Proof.Machine

/-! ## Reads -/

theorem openRead_value (s : State) (v : Word) : (openRead s v).1 = if s.busy then Config.freeWord s.draws else v := by
  unfold openRead
  split <;> rfl

theorem readReg_status_value (s : State) :
    (readReg .status s).1 = if s.busy then s.busyStatusWord (Config.freeWord s.draws) else s.statusWord := by
  simp only [readReg]
  split <;> rfl

/-- The window shows neither store: there is no register of the bits or of the slots (R22). -/
theorem readReg_with_stores (r : Reg) (s : State) (b : BitStore) (m : SlotStore) :
    (readReg r { s with bits := b, slots := m }).1 = (readReg r s).1 := by
  cases r with
  | status => simp only [readReg_status_value]; rfl
  | res0 | res1 | bfCfg | ckCap | strLen => simp only [readReg, openRead_value]; rfl
  | id | cmd | arg0 | arg1 | arg2 | cfgCapMax | cfgStrMax | cfgBfMaxLog2 | reserved38 | reserved3C => rfl

/-! ## The slots of a Cuckoo unit that is not READY -/

/-- The state with other slots where its Cuckoo unit is not READY. -/
def State.withHiddenSlots (s : State) (m : SlotStore) : State :=
  { s with slots := if s.ckMode = .ready then s.slots else m }

theorem State.withHiddenSlots_of_not_ready {s : State} (h : s.ckMode ≠ .ready) (m : SlotStore) :
    s.withHiddenSlots m = { s with slots := m } := by
  rw [State.withHiddenSlots, if_neg h]

/-- In a mode other than READY a gated command raises one error, whatever else the state is (R144). -/
theorem GatedOut.raises {i : Instr} (hgated : GatedOut i) {mode : CkMode} (hmode : mode ≠ .ready) :
    ∃ e, ∀ s : State, s.ckMode = mode → exec i s = s.raise e := by
  cases mode with
  | uninit => exact ⟨.notConfigured, fun s => (hgated s).1⟩
  | ready => exact absurd rfl hmode
  | failed => exact ⟨.unitFailed, fun s => (hgated s).2⟩

/-- No command sees the slots of a unit that is not READY: CK_INIT empties them (R145), the other Cuckoo commands are gated
(R144), and the other units do not see them. -/
theorem exec_withHiddenSlots {s : State} (hmode : s.ckMode ≠ .ready) (i : Instr) (m : SlotStore) :
    exec i (s.withHiddenSlots m) = mapNext (State.withHiddenSlots · m) (exec i s) := by
  by_cases hinit : i = .ckInit
  · subst hinit
    simp only [exec, execCkInit, State.tryInit, apply_ite (mapNext _)]
    rfl
  by_cases hgated : i ∈ [Instr.ckPut, .ckGet, .ckRemove, .ckSize, .ckClear, .ckCapacity, .ckReadSlot]
  · obtain ⟨e, hraises⟩ := (gatedOut_of_mem hgated).raises hmode
    rw [hraises s rfl, hraises (s.withHiddenSlots m) rfl]
    rfl
  · have hother := List.not_mem_cons_of_ne_of_not_mem hinit hgated
    obtain ⟨t, ht, -⟩ := exec_next i s
    have hkept := exec_cuckoo hother ht
    simp only [State.cuckoo, Prod.mk.injEq] at hkept
    obtain ⟨hkeeps, hcap, -⟩ := hkept
    rw [State.withHiddenSlots_of_not_ready hmode, ht, mapNext, State.withHiddenSlots_of_not_ready (hkeeps ▸ hmode)]
    refine (exec_withCuckoo hother ht s.ckMode s.capacity m).trans ?_
    rw [State.withCuckoo, ← hkeeps, ← hcap]

/-! ## The other units do not see the Bloom unit -/

/-- The state with another Bloom unit in it. -/
def State.withBloom (s : State) (ready : Bool) (l k : Nat) (b : BitStore) : State :=
  { s with bfReady := ready, log2Bits := l, k := k, bits := b }

section
variable (s : State) (ready : Bool) (l k : Nat) (b : BitStore)

theorem ckGate_withBloom {body body' : Result} (h : body' = mapNext (State.withBloom · ready l k b) body) :
    ckGate (s.withBloom ready l k b) body' = mapNext (State.withBloom · ready l k b) (ckGate s body) := by
  subst h
  cases hmode : s.ckMode with
  | uninit => rw [ckGate_uninit hmode, ckGate_uninit (s := s.withBloom ready l k b) hmode]; rfl
  | ready => rw [ckGate_ready hmode, ckGate_ready (s := s.withBloom ready l k b) hmode]
  | failed => rw [ckGate_failed hmode, ckGate_failed (s := s.withBloom ready l k b) hmode]; rfl

/-- A command of another unit runs alike whatever the Bloom unit is, and hands it on. -/
theorem exec_withBloom_eq {i : Instr}
    (hi : i ∉ [Instr.bfConfig, .bfConfigSized, .bfAdd, .bfContains, .bfReadWord]) :
    exec i (s.withBloom ready l k b) = mapNext (State.withBloom · ready l k b) (exec i s) := by
  cases i with
  | bfConfig | bfConfigSized | bfAdd | bfContains | bfReadWord => simp at hi
  | nop | strClear | heHash ch => rfl
  | strPush u => simp only [exec, execStrPush, apply_ite (mapNext _)]; rfl
  | ckInit => simp only [exec, execCkInit, State.tryInit, apply_ite (mapNext _)]; rfl
  | ckSize | ckClear | ckCapacity => exact ckGate_withBloom s ready l k b rfl
  | ckPut =>
    refine ckGate_withBloom s ready l k b ?_
    change (match finishPut s.cfg s.putWork with | .seated c m => _ | .exhausted c => _) = _
    cases finishPut s.cfg s.putWork <;> rfl
  | ckGet =>
    refine ckGate_withBloom s ready l k b ?_
    change (match s.lookup s.larg0 with | some v => _ | none => _) = _
    cases s.lookup s.larg0 <;> rfl
  | ckRemove =>
    refine ckGate_withBloom s ready l k b ?_
    change (match s.removeAt ⟨s.larg0, s.larg1⟩ with | some i => _ | none => _) = _
    cases s.removeAt ⟨s.larg0, s.larg1⟩ <;> rfl
  | ckReadSlot =>
    refine ckGate_withBloom s ready l k b ?_
    rw [apply_ite (mapNext _)]
    refine if_congr Iff.rfl rfl ?_
    change (match slotRead s.slots (u32 s.larg0) with | some q => _ | none => _) = _
    cases slotRead s.slots (u32 s.larg0) <;> rfl

end

/-! ## The bits of a Bloom unit that is not configured -/

/-- The state with other bits where its Bloom unit is not configured. -/
def State.withHiddenBits (s : State) (b : BitStore) : State :=
  { s with bits := if s.bfReady = true then s.bits else b }

theorem State.withHiddenBits_of_unconfigured {s : State} (h : s.bfReady = false) (b : BitStore) :
    s.withHiddenBits b = { s with bits := b } := by
  simp [State.withHiddenBits, h]

/-- A Bloom command other than a configuration raises NOT_CONFIGURED on an unconfigured unit (R124 to R126). -/
theorem exec_of_unconfigured {i : Instr} (hi : i ∈ [Instr.bfAdd, .bfContains, .bfReadWord]) {s : State}
    (h : s.bfReady = false) : exec i s = s.raise .notConfigured := by
  simp only [List.mem_cons, List.not_mem_nil, or_false] at hi
  obtain rfl | rfl | rfl := hi <;> exact bfGate_false h _

/-- No command sees the bits of an unconfigured unit: a configuration empties them (R121), the other Bloom commands are
gated, and the other units do not see them. -/
theorem exec_withHiddenBits {s : State} (hready : s.bfReady = false) (i : Instr) (b : BitStore) :
    exec i (s.withHiddenBits b) = mapNext (State.withHiddenBits · b) (exec i s) := by
  by_cases hconf : i = .bfConfig ∨ i = .bfConfigSized
  · obtain rfl | rfl := hconf
    · simp only [exec, execBfConfig, State.tryConfigure, apply_ite (mapNext _)]; rfl
    · simp only [exec, execBfConfigSized, State.tryConfigureSized, apply_ite (mapNext _)]; rfl
  by_cases hgated : i ∈ [Instr.bfAdd, .bfContains, .bfReadWord]
  · rw [exec_of_unconfigured hgated hready, exec_of_unconfigured hgated (s := s.withHiddenBits b) hready]
    rfl
  · have hother : i ∉ [Instr.bfConfig, .bfConfigSized, .bfAdd, .bfContains, .bfReadWord] := by
      obtain ⟨hconfig, hsized⟩ := not_or.1 hconf
      exact List.not_mem_cons_of_ne_of_not_mem hconfig (List.not_mem_cons_of_ne_of_not_mem hsized hgated)
    obtain ⟨t, ht, -⟩ := exec_next i s
    have hkept : t.bloom = s.bloom := exec_bloom (mt (List.mem_append_left [.bfContains, .bfReadWord]) hother) ht
    simp only [State.bloom, Prod.mk.injEq] at hkept
    obtain ⟨hconfigured, hlog, hk, -⟩ := hkept
    rw [State.withHiddenBits_of_unconfigured hready, ht, mapNext,
      State.withHiddenBits_of_unconfigured (hconfigured.trans hready)]
    refine (exec_withBloom_eq s s.bfReady s.log2Bits s.k b hother).trans ?_
    rw [ht, mapNext, State.withBloom, ← hconfigured, ← hlog, ← hk]

/-- Settles O53, from `exec_withHiddenSlots`, `exec_withHiddenBits` and that no register shows a store
(`readReg_with_stores`). -/
theorem slotsOutsideReadyAreUnobservable : Obligations.SlotsOutsideReadyAreUnobservable := by
  intro i s t h
  refine ⟨fun m hmode => ⟨?_, fun r => readReg_with_stores r s s.bits m⟩,
    fun b hready => ⟨?_, fun r => readReg_with_stores r s b s.slots⟩⟩
  · rw [← State.withHiddenSlots_of_not_ready hmode, exec_withHiddenSlots hmode, h]; rfl
  · rw [← State.withHiddenBits_of_unconfigured hready, exec_withHiddenBits hready, h]; rfl

end Sys2Proof.Machine
end

section
/-! Reset (spec 70_reset_and_hazards.md R201, R202). -/

namespace Sys2Proof.Machine

theorem engineTurn_resetWith (p : Config.Params) :
    engineTurn (State.resetWith p) = .next (State.resetWith p).endInit := rfl

/-- After reset no STATUS field is set, BUSY 0 among them (R25, R202). -/
theorem readReg_status_endInit_resetWith (p : Config.Params) :
    (readReg .status (State.resetWith p).endInit).1 = 0 := by
  calc (readReg .status (State.resetWith p).endInit).1
      = statusOf false false false false false false Err.ok.code := rfl
    _ = 0 := by decide

/-- Settles O19: the reset values, and the reads of the state in which initialisation ends (`engineTurn_resetWith`). -/
theorem resetValues : Obligations.ResetValues := by
  intro p
  refine ⟨rfl, rfl, rfl, rfl, rfl, rfl, rfl, rfl, rfl, rfl, rfl, rfl, rfl, rfl, rfl, rfl,
    _, engineTurn_resetWith p, rfl, rfl, ?_⟩
  exact ⟨rfl, rfl, readReg_status_endInit_resetWith p, rfl, rfl, rfl, rfl, rfl, rfl, rfl, rfl, rfl, rfl, rfl⟩

end Sys2Proof.Machine
end

section
/-! Decoding and encoding agree (spec 30_encoding.md sections 1 and 2, 20_memory.md section 1). -/

namespace Sys2Proof.Machine

open Sys2Proof.Laws

/-! ## From the command to its word and back -/

/-- Every command sets only immediate bits that its opcode allows (R71, R72). -/
theorem encodedWord_statement (i : Instr) : EncodedWord.Statement i := by
  cases i with
  | strPush u => exact EncodedWord.strPush u
  | heHash ch => exact EncodedWord.heHash ch
  | _ => exact EncodedWord.statement_of_allowed _ (by decide)

theorem decode_encode (i : Instr) : decode (encode i) = .ok i :=
  decode_encode_of_allowed (encodedWord_statement i)

theorem decodeBytes_encodeBytes (i : Instr) (rest : List Byte) :
    decodeBytes (encodeBytes i ++ rest) = .ok (i, rest) := by
  simp only [encodeBytes, List.cons_append, List.nil_append, decodeBytes, EncodedWord.wordOfBytes_byteOfWord,
    decode_encode]

/-- Settles O2, from the command's word (`decode_encode`) and the order of its bytes on the bus
(`wordOfBytes_byteOfWord`). -/
theorem decodeOfEncodeIsTheCommand : Obligations.DecodeOfEncodeIsTheCommand :=
  fun i rest _ => ⟨decode_encode i, decodeBytes_encodeBytes i rest⟩

/-! ## From the word to its command and back -/

/-- A word is the command word of its own two fields (R70). -/
theorem commandWord_fields (w : Word) : commandWord (opcodeOf w) (imm24Of w) = w := by
  refine BitVec.eq_of_getLsbD_eq fun j hj => ?_
  rw [EncodedWord.getLsbD_commandWord]
  by_cases hlow : j < 24
  · simp [hlow, imm24Of]
  · have hhigh : j - 24 < 8 := by omega
    have hback : 24 + (j - 24) = j := by omega
    simp [hlow, hhigh, hback, opcodeOf]

/-- An operand field holds the whole immediate when no bit above it is set. -/
theorem setWidth_extractLsb'_of_high_zero {imm : BitVec 24} {len : Nat}
    (h : ∀ j, len ≤ j → imm.getLsbD j = false) : (imm.extractLsb' 0 len).setWidth 24 = imm := by
  refine BitVec.eq_of_getLsbD_eq fun j hj => ?_
  rw [BitVec.getLsbD_setWidth, BitVec.getLsbD_extractLsb', Nat.zero_add]
  by_cases hlow : j < len
  · simp only [hj, hlow, decide_true, Bool.true_and]
  · simp only [hlow, decide_false, Bool.and_false, h j (Nat.le_of_not_lt hlow)]

/-- The bits that a mask of the low `len` bits leaves out are clear in an immediate that the mask allows. -/
theorem getLsbD_of_allowed {imm : BitVec 24} {len : Nat}
    (h : imm &&& ~~~(BitVec.setWidth 24 (BitVec.allOnes len)) = 0#24) (j : Nat) (hj : len ≤ j) : imm.getLsbD j = false := by
  by_cases hwidth : j < 24
  · have hbit : (imm &&& ~~~(BitVec.setWidth 24 (BitVec.allOnes len))).getLsbD j = false := by rw [h, BitVec.getLsbD_zero]
    have hmask : (BitVec.allOnes len).getLsbD j = false := BitVec.getLsbD_of_ge _ _ hj
    simpa only [BitVec.getLsbD_and, BitVec.getLsbD_not, BitVec.getLsbD_setWidth, hmask, hwidth, decide_true, Bool.and_false,
      Bool.not_false, Bool.and_true] using hbit
  · exact BitVec.getLsbD_of_ge _ _ (Nat.le_of_not_lt hwidth)

/-- The command an opcode names has that opcode (R72). -/
theorem opcode_of_commandOf {opc : Byte} {imm : BitVec 24} {i : Instr} (h : commandOf opc imm = some i) :
    i.opcode = opc := by
  unfold commandOf at h
  split at h
  case h_18 => cases h
  all_goals next hopc => cases h; exact BitVec.eq_of_toNat_eq hopc.symm

/-- The command an opcode names carries the immediate when its bits are allowed (R71). -/
theorem imm24_of_commandOf {opc : Byte} {imm : BitVec 24} {i : Instr} (h : commandOf opc imm = some i)
    (hallowed : imm &&& ~~~(allowedImm opc) = 0#24) : i.imm24 = imm := by
  obtain rfl := opcode_of_commandOf h
  cases i with
  | strPush u =>
    cases h
    exact setWidth_extractLsb'_of_high_zero (getLsbD_of_allowed hallowed)
  | heHash ch =>
    cases h
    exact setWidth_extractLsb'_of_high_zero (getLsbD_of_allowed hallowed)
  | _ => exact (BitVec.and_allOnes.symm.trans hallowed).symm

/-- Settles O3: the two fields of a word that decodes are those of its command (`opcode_of_commandOf`,
`imm24_of_commandOf`). -/
theorem encodeOfDecodeIsTheWord : Obligations.EncodeOfDecodeIsTheWord := by
  intro w i h
  obtain ⟨hcommand, hallowed⟩ := decode_eq_ok_iff.1 h
  rw [encode, opcode_of_commandOf hcommand, imm24_of_commandOf hcommand hallowed, commandWord_fields]

/-! ## Which words are legal -/

/-- The listed opcodes are those outside the reserved ranges (R72, R73). -/
theorem mem_opcodes_iff {opc : Byte} {imm : BitVec 24} :
    opc ∈ [0x00#8, 0x01#8, 0x02#8, 0x08#8, 0x10#8, 0x11#8, 0x12#8, 0x13#8, 0x14#8,
      0x20#8, 0x21#8, 0x22#8, 0x23#8, 0x24#8, 0x25#8, 0x26#8, 0x27#8] ↔ ∃ i, commandOf opc imm = some i := by
  rw [← Option.ne_none_iff_exists', ne_eq, commandOf_eq_none_iff]
  have hbyte : opc.toNat < 256 := opc.isLt
  simp only [List.mem_cons, List.not_mem_nil, or_false, ← BitVec.toNat_inj, BitVec.toNat_ofNat]
  omega

/-- Settles O4: a word decodes when its opcode is listed (`mem_opcodes_iff`) and its immediate allowed. -/
theorem legalWordsAreThoseOfTheOpcodeMap : Obligations.LegalWordsAreThoseOfTheOpcodeMap := by
  intro w
  simp only [decode_eq_ok_iff, exists_and_right]
  exact and_congr_left' mem_opcodes_iff.symm

end Sys2Proof.Machine
end

section
/-! Hidden work on a CK_PUT (spec 10_state.md R40, 20_memory.md R60): internal work moves nothing but the hidden state, which
no read shows, no host's turn depends on, and no completion sees. -/

namespace Sys2Proof.Machine

/-! ## Internal work -/

/-- Internal work moves the phase only. -/
theorem workTurn_eq_with_phase (s : State) : workTurn s = { s with phase := (workTurn s).phase } := by
  obtain h | ⟨c, w, w', -, -, -, -, h⟩ := workTurn_cases s <;> rw [h]

theorem workTurn_phase_command {s : State} {c : Latched} {pw : Option PutWork} (hp : s.phase = .command c pw) :
    ∃ pw', (workTurn s).phase = .command c pw' := by
  obtain h | ⟨c', w, w', hp', -, -, -, h⟩ := workTurn_cases s
  · exact ⟨pw, by rw [h, hp]⟩
  · cases hp.symm.trans hp'
    exact ⟨some w', by rw [h]⟩

/-- How far a CK_PUT in progress is depends on the command in progress and the Cuckoo unit only. -/
theorem State.putWork_congr {s t : State} {c : Latched} {pw : Option PutWork} (hs : s.phase = .command c pw)
    (ht : t.phase = .command c pw) (hcuckoo : t.cuckoo = s.cuckoo) : t.putWork = s.putWork := by
  simp only [State.cuckoo, Prod.mk.injEq] at hcuckoo
  obtain ⟨-, hcap, hslots⟩ := hcuckoo
  cases pw with
  | none => rw [State.putWork_of_fresh hs, State.putWork_of_fresh ht, hcap, hslots]
  | some w => simp only [State.putWork, hs, ht]

/-- What internal work makes of the phase depends on the command in progress, the parameters and the Cuckoo unit only. -/
theorem workTurn_phase_congr {s t : State} {c : Latched} {pw : Option PutWork} (hs : s.phase = .command c pw)
    (ht : t.phase = .command c pw) (hcfg : t.cfg = s.cfg) (hcuckoo : t.cuckoo = s.cuckoo) :
    (workTurn t).phase = (workTurn s).phase := by
  have hmode : t.ckMode = s.ckMode := congrArg Prod.fst hcuckoo
  have hwork : t.putWork = s.putWork := State.putWork_congr hs ht hcuckoo
  simp only [workTurn, hs, ht, hmode, hcfg, hwork]
  split
  · cases putStep s.cfg s.putWork <;> simp only [hs, ht]
  · rw [hs, ht]

/-- The engine completes a command in the same state however far its hidden work has come (R40, R60). -/
theorem engineTurn_workTurn (s : State) : engineTurn (workTurn s) = engineTurn s := by
  obtain h | ⟨c, w, w', hp, hd, hready, hstep, h⟩ := workTurn_cases s
  · rw [h]
  · rw [h, engineTurn_of_command rfl hd, engineTurn_of_command hp hd]
    have hend : finishPut s.cfg w' = finishPut s.cfg s.putWork := finishPut_putStep hstep
    refine (ckGate_ready (s := { s with phase := .command c (some w') }) hready _).trans
      (.trans ?_ (ckGate_ready hready _).symm)
    change (match finishPut s.cfg w' with | .seated c m => _ | .exhausted c => _) = _
    rw [hend]
    cases finishPut s.cfg s.putWork <;> rfl

/-! ## What the host sees of the engine -/

/-- The state with another phase and another schedule. -/
def State.rephased (s : State) (p : Phase) (q : List Turn) : State := { s with phase := p, sched := q }

section
variable {s : State} {c : Latched} {pw : Option PutWork} (hp : s.phase = .command c pw)
include hp

theorem State.busy_of_command : s.busy = true := by
  simp only [State.busy, hp]

/-- A read shows of the phase BUSY only, and nothing of the schedule (10_state.md R22). -/
theorem readReg_rephased (r : Reg) (pw' : Option PutWork) (q : List Turn) :
    readReg r (s.rephased (.command c pw') q) = ((readReg r s).1, (readReg r s).2.rephased (.command c pw') q) := by
  have hbusy := State.busy_of_command hp
  have hbusy' : (s.rephased (.command c pw') q).busy = true := rfl
  cases r with
  | status | res0 | res1 | bfCfg | ckCap | strLen => simp only [readReg, openRead, hbusy, hbusy', if_true]; rfl
  | id | cmd | arg0 | arg1 | arg2 | cfgCapMax | cfgStrMax | cfgBfMaxLog2 | reserved38 | reserved3C => rfl

theorem hostReadReg_rephased (r : Reg) (pw' : Option PutWork) (q : List Turn) :
    hostReadReg r (s.rephased (.command c pw') q) =
      ((hostReadReg r s).1, (hostReadReg r s).2.rephased (.command c pw') q) := by
  simp only [hostReadReg, readReg_rephased hp]
  rfl

theorem writeReg_rephased (r : Reg) (v : Word) (pw' : Option PutWork) (q : List Turn) :
    writeReg r v (s.rephased (.command c pw') q) = (writeReg r v s).rephased (.command c pw') q := by
  have hbusy := State.busy_of_command hp
  cases r with
  | cmd => rw [writeReg_cmd_of_busy hbusy, writeReg_cmd_of_busy rfl]; rfl
  | status => simp only [writeReg, apply_ite (State.rephased · (.command c pw') q)]; rfl
  | arg0 | arg1 | arg2 | id | res0 | res1 | bfCfg | ckCap | strLen => rfl
  | cfgCapMax | cfgStrMax | cfgBfMaxLog2 | reserved38 | reserved3C => rfl

/-- While a command is in progress the host's turn does not depend on its hidden state, nor on the schedule. -/
theorem hostTurn_rephased (pw' : Option PutWork) (q : List Turn) :
    hostTurn (s.rephased (.command c pw') q) = mapNext (State.rephased · (.command c pw') q) (hostTurn s) := by
  have hsame : (s.rephased (.command c pw') q).host = s.host := rfl
  cases hhost : s.host with
  | nil => simp only [hostTurn, hsame, hhost]; rfl
  | cons stmt rest =>
    have hread := fun r => hostReadReg_rephased hp r pw' q
    cases stmt with
    | wr addr size v =>
      simp only [hostTurn, hsame, hhost]
      change (match windowReg s.cfg.engineBase addr size with | some r => _ | none => _) = _
      cases windowReg s.cfg.engineBase addr size with
      | none => rfl
      | some r => exact congrArg _ (writeReg_rephased (s := s.setHost rest) hp r v pw' q)
    | rd addr size =>
      simp only [hostTurn, hsame, hhost]
      change (match windowReg s.cfg.engineBase addr size with | some r => _ | none => _) = _
      cases windowReg s.cfg.engineBase addr size with
      | none => rfl
      | some r =>
        have hmoved := hostReadReg_rephased (s := s.setHost rest) hp r pw' q
        exact congrArg (fun x => Host.Outcome.next x.2) hmoved
    | wait => simp only [hostTurn, hsame, hhost, hread]; split <;> rfl
    | check => simp only [hostTurn, hsame, hhost, hread]; split <;> rfl
    | slotLoop what => simp only [hostTurn, hsame, hhost, hread]; rfl
    | slot what i n => simp only [hostTurn, hsame, hhost]; split <;> rfl
    | collectIf what => simp only [hostTurn, hsame, hhost, hread]; rfl
    | collect what => simp only [hostTurn, hsame, hhost, hread]; rfl

/-- While a command is in progress the host's turn moves neither the phase nor the schedule. -/
theorem hostTurn_phase_sched {t : State} (h : hostTurn s = .next t) : t.phase = .command c pw ∧ t.sched = s.sched := by
  have hsame : s.rephased (.command c pw) s.sched = s := by rw [← hp]; rfl
  have hmoved := hostTurn_rephased hp pw s.sched
  rw [hsame, h] at hmoved
  have ht : t = t.rephased (.command c pw) s.sched := Host.Outcome.next.inj hmoved
  rw [ht]
  exact ⟨rfl, rfl⟩

/-- While a command is in progress a host's turn and a piece of internal work come to the same in either order. -/
theorem hostTurn_workTurn : hostTurn (workTurn s) = mapNext workTurn (hostTurn s) := by
  obtain ⟨pw', hp'⟩ := workTurn_phase_command hp
  have hwork : workTurn s = s.rephased (.command c pw') s.sched := by rw [workTurn_eq_with_phase, hp']; rfl
  rw [hwork, hostTurn_rephased hp]
  cases h : hostTurn s with
  | fault f => rfl
  | refused f => rfl
  | next t =>
    obtain ⟨hphase, hsched⟩ := hostTurn_phase_sched hp h
    have hsame := workTurn_phase_congr hp hphase (hostTurn_cfg h) (hostTurn_cuckoo h)
    refine congrArg Host.Outcome.next (Eq.trans ?_ (workTurn_eq_with_phase t).symm)
    rw [hsame, hp', ← hsched]
    rfl

end

/-- Internal work shows in no register (R40). -/
theorem readReg_workTurn (s : State) (r : Reg) : (readReg r (workTurn s)).1 = (readReg r s).1 := by
  obtain h | ⟨c, w, w', hp, -, -, -, h⟩ := workTurn_cases s
  · rw [h]
  · have hmoved := readReg_rephased hp r (some w') s.sched
    rw [h]
    exact (congrArg Prod.fst hmoved :)

/-! ## Runs -/

/-- `n` steps of the machine. -/
def runSteps (n : Nat) (s : State) : Result := Host.Core.run Sys2Proof.core n s

/-- What follows a step that answers a next state; nothing follows one that stops. -/
def bindNext {σ φ ρ τ : Type} (r : Host.Outcome σ φ ρ) (f : σ → Host.Outcome τ φ ρ) : Host.Outcome τ φ ρ :=
  match r with
  | .next t => f t
  | .fault e => .fault e
  | .refused e => .refused e

theorem core_run_succ (M : Host.Core) (n : Nat) (s : M.State) : M.run (n + 1) s = bindNext (M.step s) (M.run n) := by
  unfold Host.Core.run
  cases M.step s <;> rfl

theorem runSteps_succ (n : Nat) (s : State) : runSteps (n + 1) s = bindNext (step s) (runSteps n) :=
  core_run_succ Sys2Proof.core n s

theorem runSteps_one (s : State) : runSteps 1 s = step s := by
  rw [runSteps_succ]
  cases step s <;> rfl

theorem runSteps_of_not_wellFormed {s : State} (h : s.cfg.wellFormed = false) (n : Nat) :
    runSteps (n + 1) s = .refused .notAConfiguration := by
  rw [runSteps_succ, step_of_not_wellFormed h]
  rfl

/-! ## Runs of a command in progress -/

/-- The state with another schedule. -/
def State.withSched (s : State) (q : List Turn) : State := { s with sched := q }

section
variable {s : State} (hcfg : s.cfg.wellFormed = true) (q : List Turn)
include hcfg

theorem step_withSched_engine : step (s.withSched (.engine :: q)) = engineTurn (s.withSched q) := if_pos hcfg
theorem step_withSched_work : step (s.withSched (.work :: q)) = .next (workTurn (s.withSched q)) := if_pos hcfg
theorem step_withSched_host : step (s.withSched (.host :: q)) = hostTurn (s.withSched q) := if_pos hcfg

end

section
variable {s : State} {c : Latched} {pw : Option PutWork} (hp : s.phase = .command c pw)
include hp

/-- Where the schedule says nothing, the engine completes the command in progress (70_reset_and_hazards.md R216). -/
theorem step_withSched_nil (hcfg : s.cfg.wellFormed = true) : step (s.withSched []) = engineTurn (s.withSched []) := by
  have hturn : (s.withSched []).nextTurn = .engine := if_pos (State.busy_of_command (s := s.withSched []) hp)
  refine (if_pos hcfg).trans ?_
  rw [hturn]
  rfl

theorem hostTurn_withSched (q : List Turn) : hostTurn (s.withSched q) = mapNext (State.withSched · q) (hostTurn s) := by
  have hsame : s.withSched q = s.rephased (.command c pw) q := by rw [← hp]; rfl
  rw [hsame, hostTurn_rephased hp]
  cases h : hostTurn s with
  | fault e => rfl
  | refused e => rfl
  | next t =>
    refine congrArg Host.Outcome.next ?_
    change t.rephased _ q = t.withSched q
    rw [← (hostTurn_phase_sched hp h).1]
    rfl

theorem workTurn_withSched (q : List Turn) : workTurn (s.withSched q) = (workTurn s).withSched q := by
  rw [workTurn_eq_with_phase, workTurn_phase_congr (t := s.withSched q) hp hp rfl rfl, workTurn_eq_with_phase s]
  rfl

end

/-- A piece of work before the host's turns and the completion changes nothing of how the run ends. -/
theorem runSteps_workTurn (n : Nat) {s : State} {c : Latched} {pw : Option PutWork} (hcfg : s.cfg.wellFormed = true)
    (hp : s.phase = .command c pw) :
    runSteps (n + 1) ((workTurn s).withSched (List.replicate n .host ++ [.engine])) =
      runSteps (n + 1) (s.withSched (List.replicate n .host ++ [.engine])) := by
  induction n generalizing s pw with
  | zero =>
    have hcfg' : (workTurn s).cfg.wellFormed = true := by rw [(workTurn_cfg_ovr s).1, hcfg]
    rw [runSteps_one, runSteps_one]
    calc step ((workTurn s).withSched [.engine])
        = engineTurn ((workTurn s).withSched []) := step_withSched_engine hcfg' []
      _ = engineTurn (s.withSched []) := by rw [← workTurn_withSched hp, engineTurn_workTurn]
      _ = step (s.withSched [.engine]) := (step_withSched_engine hcfg []).symm
  | succ n ih =>
    have hcfg' : (workTurn s).cfg.wellFormed = true := by rw [(workTurn_cfg_ovr s).1, hcfg]
    obtain ⟨pw', hp'⟩ := workTurn_phase_command hp
    rw [List.replicate_succ, List.cons_append, runSteps_succ, runSteps_succ _ (s.withSched _),
      step_withSched_host hcfg, step_withSched_host hcfg', hostTurn_withSched hp, hostTurn_withSched hp', hostTurn_workTurn hp]
    cases h : hostTurn s with
    | fault e => rfl
    | refused e => rfl
    | next t => exact ih (hostTurn_cfg h ▸ hcfg) (hostTurn_phase_sched hp h).1

/-- The host's turns of a schedule. -/
def hostTurns (ts : List Turn) : List Turn := ts.filter (fun x => decide (x = .host))

theorem hostTurns_eq_replicate (ts : List Turn) : hostTurns ts = List.replicate (hostTurns ts).length .host :=
  List.eq_replicate_of_mem fun _ hx => of_decide_eq_true (List.mem_filter.1 hx).2

/-- However host turns and pieces of work come before the completion, the run ends as the one without the work (R40). -/
theorem runSteps_without_work (ts : List Turn) (hts : ∀ x ∈ ts, x = .work ∨ x = .host) {s : State} {c : Latched}
    {pw : Option PutWork} (hcfg : s.cfg.wellFormed = true) (hp : s.phase = .command c pw) :
    runSteps (ts.length + 1) (s.withSched (ts ++ [.engine])) =
      runSteps ((hostTurns ts).length + 1) (s.withSched (hostTurns ts ++ [.engine])) := by
  induction ts generalizing s pw with
  | nil => rfl
  | cons x ts ih =>
    obtain ⟨hx, hrest⟩ := List.forall_mem_cons.1 hts
    rw [List.length_cons, List.cons_append, runSteps_succ]
    obtain rfl | rfl := hx
    · have hcfg' : (workTurn s).cfg.wellFormed = true := by rw [(workTurn_cfg_ovr s).1, hcfg]
      obtain ⟨pw', hp'⟩ := workTurn_phase_command hp
      have hskip := runSteps_workTurn (hostTurns ts).length hcfg hp
      rw [← hostTurns_eq_replicate] at hskip
      rw [step_withSched_work hcfg, workTurn_withSched hp]
      exact (ih hrest hcfg' hp').trans hskip
    · have hfirst : hostTurns (.host :: ts) = .host :: hostTurns ts := List.filter_cons_of_pos rfl
      rw [hfirst, List.length_cons, List.cons_append, runSteps_succ, step_withSched_host hcfg, step_withSched_host hcfg,
        hostTurn_withSched hp, hostTurn_withSched hp]
      cases h : hostTurn s with
      | fault e => rfl
      | refused e => rfl
      | next t => exact ih hrest (hostTurn_cfg h ▸ hcfg) (hostTurn_phase_sched hp h).1

/-- Pieces of work and then the default completion end as the completion alone (R40). -/
theorem runSteps_only_work (n : Nat) {s : State} {c : Latched} {pw : Option PutWork} (hcfg : s.cfg.wellFormed = true)
    (hp : s.phase = .command c pw) :
    runSteps (n + 1) (s.withSched (List.replicate n .work)) = step (s.withSched []) := by
  induction n generalizing s pw with
  | zero => exact runSteps_one _
  | succ n ih =>
    have hcfg' : (workTurn s).cfg.wellFormed = true := by rw [(workTurn_cfg_ovr s).1, hcfg]
    obtain ⟨pw', hp'⟩ := workTurn_phase_command hp
    rw [List.replicate_succ, runSteps_succ, step_withSched_work hcfg, workTurn_withSched hp]
    calc runSteps (n + 1) ((workTurn s).withSched (List.replicate n .work))
        = engineTurn ((workTurn s).withSched []) := (ih hcfg' hp').trans (step_withSched_nil hp' hcfg')
      _ = engineTurn (s.withSched []) := by rw [← workTurn_withSched hp, engineTurn_workTurn]
      _ = step (s.withSched []) := (step_withSched_nil hp hcfg).symm

/-- Settles O43: work shows in no register (`readReg_workTurn`), commutes with the host's turn (`hostTurn_workTurn`), and
drops out of a run up to the completion (`runSteps_without_work`, `runSteps_only_work`). -/
theorem hiddenWorkIsUnobservable : Obligations.HiddenWorkIsUnobservable := by
  refine ⟨readReg_workTurn, fun s c pw hp => ?_, fun s c pw ts hp hts hsched => ?_, fun s c pw n hp hsched => ?_⟩
  · rw [hostTurn_workTurn hp]
    cases hostTurn s <;> rfl
  · have hsame : s.withSched (ts ++ [.engine]) = s := by rw [← hsched]; rfl
    change runSteps (ts.length + 1) s = runSteps ((hostTurns ts).length + 1) (s.withSched (hostTurns ts ++ [.engine]))
    cases hcfg : s.cfg.wellFormed with
    | false =>
      exact (runSteps_of_not_wellFormed hcfg _).trans
        (runSteps_of_not_wellFormed (s := s.withSched (hostTurns ts ++ [.engine])) hcfg _).symm
    | true => rw [← runSteps_without_work ts hts hcfg hp, hsame]
  · have hsame : s.withSched (List.replicate n .work) = s := by rw [← hsched]; rfl
    change runSteps (n + 1) s = step (s.withSched [])
    cases hcfg : s.cfg.wellFormed with
    | false => rw [runSteps_of_not_wellFormed hcfg, step_of_not_wellFormed (s := s.withSched []) hcfg]
    | true => rw [← runSteps_only_work n hcfg hp, hsame]

end Sys2Proof.Machine
end

section
/-! What each command may write (spec 41_bloom.md R128, 10_state.md R28 and R37): the frame of every command on every path, and
who writes the results. -/

namespace Sys2Proof.Machine

/-! ## The frame of every command -/

/-- The fields that command `i` may write, besides the status of its completion, are all that can differ from `s` to `t`. -/
def InFrame (i : Instr) (s t : State) : Prop :=
  match i with
  | .nop | .bfContains => t = { s with result := t.result, err := t.err, phase := .idle }
  | .strClear | .strPush _ => t = { s with str := t.str, result := t.result, err := t.err, phase := .idle }
  | .heHash _ | .bfReadWord | .ckGet | .ckSize | .ckCapacity | .ckReadSlot =>
    t = { s with res0 := t.res0, res1 := t.res1, result := t.result, err := t.err, phase := .idle }
  | .bfConfig | .bfConfigSized =>
    t = { s with bfReady := t.bfReady, log2Bits := t.log2Bits, k := t.k, bits := t.bits
                 result := t.result, err := t.err, phase := .idle }
  | .bfAdd => t = { s with bits := t.bits, result := t.result, err := t.err, phase := .idle }
  | .ckInit =>
    t = { s with ckMode := t.ckMode, capacity := t.capacity, slots := t.slots
                 result := t.result, err := t.err, phase := .idle }
  | .ckPut =>
    t = { s with ckMode := t.ckMode, capacity := t.capacity, slots := t.slots, draws := t.draws
                 result := t.result, err := t.err, phase := .idle }
  | .ckRemove | .ckClear => t = { s with slots := t.slots, result := t.result, err := t.err, phase := .idle }

/-- The commands that may leave RESULT 1 (10_state.md R37). -/
def Answers (i : Instr) : Prop := i = .bfContains ∨ i = .ckGet ∨ i = .ckRemove ∨ i = .ckReadSlot

/-- What a command that completes from `s` in `t` has done: it has kept to its frame, and has left RESULT 1 only if it may. -/
structure Effects (i : Instr) (s t : State) : Prop where
  frame : InFrame i s t
  answers : t.result = true → Answers i

/-- An error without other effect is within the effects of every command. -/
theorem effects_raise (i : Instr) (s : State) (e : Err) : Effects i s (s.complete e false) :=
  ⟨by cases i <;> rfl, nofun⟩

/-- What holds of every error of the gate and of the command behind it holds of a Bloom command. -/
theorem bfGate_induct {P : State → Prop} {s t : State} {body : Result} (h : bfGate s body = .next t)
    (hraise : ∀ e, P (s.complete e false)) (hbody : body = .next t → P t) : P t := by
  obtain ⟨-, rfl⟩ | ⟨-, h⟩ := bfGate_next h
  · exact hraise _
  · exact hbody h

/-- What holds of every error of the gate and of the command behind it holds of a gated Cuckoo command. -/
theorem ckGate_induct {P : State → Prop} {s t : State} {body : Result} (h : ckGate s body = .next t)
    (hraise : ∀ e, P (s.complete e false)) (hbody : s.ckMode = .ready → body = .next t → P t) : P t := by
  obtain ⟨-, rfl⟩ | ⟨-, rfl⟩ | ⟨hready, h⟩ := ckGate_next h
  · exact hraise _
  · exact hraise _
  · exact hbody hready h

theorem exec_effects {i : Instr} {s t : State} (h : exec i s = .next t) : Effects i s t := by
  cases i with
  | nop | strClear | heHash ch => cases h; exact ⟨rfl, nofun⟩
  | strPush u =>
    by_cases hfull : s.str.length = s.cfg.strMax
    · rw [exec_strPush_of_full hfull] at h; cases h; exact effects_raise _ s _
    · rw [exec_strPush_of_room hfull] at h; cases h; exact ⟨rfl, nofun⟩
  | bfConfig =>
    obtain ⟨-, rfl⟩ | ⟨-, -, rfl⟩ | ⟨-, -, rfl⟩ := tryConfigure_next h
    · exact effects_raise _ s _
    · exact effects_raise _ s _
    · exact ⟨rfl, nofun⟩
  | bfConfigSized =>
    obtain ⟨-, rfl⟩ | ⟨-, -, rfl⟩ | ⟨-, -, rfl⟩ := tryConfigureSized_next h
    · exact effects_raise _ s _
    · exact effects_raise _ s _
    · exact ⟨rfl, nofun⟩
  | bfAdd => exact bfGate_induct h (effects_raise _ s) fun h => by cases h; exact ⟨rfl, nofun⟩
  | bfContains => exact bfGate_induct h (effects_raise _ s) fun h => by cases h; exact ⟨rfl, fun _ => by simp [Answers]⟩
  | bfReadWord => exact bfGate_induct h (effects_raise _ s) fun h => by split at h <;> cases h <;> exact ⟨rfl, nofun⟩
  | ckInit =>
    obtain ⟨-, rfl⟩ | ⟨-, -, rfl⟩ | ⟨-, -, rfl⟩ := tryInit_next h
    · exact effects_raise _ s _
    · exact effects_raise _ s _
    · exact ⟨rfl, nofun⟩
  | ckPut => exact ckGate_induct h (effects_raise _ s) fun _ h => by split at h <;> cases h <;> exact ⟨rfl, nofun⟩
  | ckGet | ckRemove =>
    exact ckGate_induct h (effects_raise _ s) fun _ h => by
      split at h <;> cases h <;> exact ⟨rfl, fun _ => by simp [Answers]⟩
  | ckSize | ckClear | ckCapacity =>
    exact ckGate_induct h (effects_raise _ s) fun _ h => by cases h; exact ⟨rfl, nofun⟩
  | ckReadSlot =>
    refine ckGate_induct h (effects_raise _ s) fun _ h => ?_
    split at h
    · cases h; exact effects_raise _ s _
    · split at h <;> cases h <;> exact ⟨rfl, fun _ => by simp [Answers]⟩

theorem exec_inFrame {i : Instr} {s t : State} (h : exec i s = .next t) : InFrame i s t := (exec_effects h).frame

/-- Settles O52: the frame of each command (`exec_inFrame`), and that it hands on whatever the other unit holds
(`exec_withBloom_eq`, `exec_withCuckoo`). -/
theorem unitsAreIndependent : Obligations.UnitsAreIndependent := by
  intro i s t h
  have hframe := exec_inFrame h
  refine ⟨?_, ?_, ?_, ?_, ?_, ?_, ?_, ?_, fun hi ready l k b => ?_, fun hi mode c m => exec_withCuckoo hi h mode c m⟩
  · rintro (rfl | rfl) <;> exact hframe
  · rintro (rfl | ⟨u, rfl⟩) <;> exact hframe
  · rintro (⟨ch, rfl⟩ | rfl | rfl | rfl | rfl | rfl) <;> exact hframe
  · rintro (rfl | rfl) <;> exact hframe
  · rintro rfl; exact hframe
  · rintro rfl; exact hframe
  · rintro rfl; exact hframe
  · rintro (rfl | rfl) <;> exact hframe
  · refine (exec_withBloom_eq s ready l k b hi).trans ?_
    rw [h]
    rfl

/-! ## Who writes the results -/

/-- The commands that may write RES0 and RES1 (10_state.md R28). -/
def WritesRes (i : Instr) : Prop :=
  (∃ ch, i = .heHash ch) ∨ i = .bfReadWord ∨ i = .ckGet ∨ i = .ckSize ∨ i = .ckCapacity ∨ i = .ckReadSlot

theorem exec_res_of_not_writesRes {i : Instr} {s t : State} (hi : ¬ WritesRes i) (h : exec i s = .next t) :
    t.res0 = s.res0 ∧ t.res1 = s.res1 := by
  have hframe := exec_inFrame h
  cases i with
  | heHash | bfReadWord | ckGet | ckSize | ckCapacity | ckReadSlot => simp [WritesRes] at hi
  | nop | strClear | strPush | bfConfig | bfConfigSized | bfAdd | bfContains | ckInit | ckPut | ckRemove | ckClear =>
    exact ⟨(congrArg State.res0 hframe :), (congrArg State.res1 hframe :)⟩

/-- A command that ends in an error writes no result (R28, R37). -/
theorem exec_res_of_error {i : Instr} {s t : State} (h : exec i s = .next t) (herr : t.err ≠ .ok) :
    t.res0 = s.res0 ∧ t.res1 = s.res1 ∧ t.result = false := by
  cases exec_ending h with
  | ok _ hok | inited _ hok => exact absurd hok herr
  | raised e _ ht | exhausted c _ _ _ ht => subst ht; exact ⟨rfl, rfl, rfl⟩

/-- Settles O55: a command that is not named writes no result (`exec_res_of_not_writesRes`, `exec_effects`),
and neither does one that ends in an error (`exec_res_of_error`). -/
theorem resultsAreWrittenByTheNamedCommands : Obligations.ResultsAreWrittenByTheNamedCommands := by
  intro i s t h
  have herror := exec_res_of_error h
  refine ⟨fun hwritten => ?_, fun hanswer => ?_⟩
  · by_contra hnot
    have hsame : t.res0 = s.res0 ∧ t.res1 = s.res1 := by
      by_cases hok : t.err = .ok
      · exact exec_res_of_not_writesRes (fun hi => hnot ⟨hok, hi⟩) h
      · exact ⟨(herror hok).1, (herror hok).2.1⟩
    exact hwritten.elim (· hsame.1) (· hsame.2)
  · refine ⟨?_, (exec_effects h).answers hanswer⟩
    by_contra herr
    simp [(herror herr).2.2] at hanswer

end Sys2Proof.Machine
end

section
/-! CK_PUT (spec 42_cuckoo.md R146 to R154): the equations of its run, the puts that move at most one slot, and the multimap. -/

namespace Sys2Proof.Machine

open Config (Params)

/-! ## The equations of the run -/

theorem present_eq_true_iff {p : Params} {c : Nat} {m : SlotStore} {q : Pair} :
    present p c m q = true ↔
      p.dupPrecheck = true ∧ (slotRead m (h1 p c q.key) = some q ∨ slotRead m (h2 p c q.key) = some q) := by
  simp [present]

theorem attempt_of_same {p : Params} {c fuel : Nat} {m : SlotStore} {cur : Pair} {pos : Nat}
    (h : slotRead m pos = some cur) : attempt p c (fuel + 1) m cur pos = .seated m := by
  rw [attempt, h]
  exact if_pos rfl

section
variable {p : Params} {c : Nat} {m : SlotStore} {q : Pair} (rest : List Pair)

theorem drain_of_present (h : present p c m q = true) : drain p c (q :: rest) m = drain p c rest m := if_pos h

theorem drain_of_seated {m' : SlotStore} (h : present p c m q = false)
    (hend : attempt p c c m q (h1 p c q.key) = .seated m') : drain p c (q :: rest) m = drain p c rest m' := by
  simp [drain, h, hend]

theorem drain_of_unseated {m' : SlotStore} {u : Pair} (h : present p c m q = false)
    (hend : attempt p c c m q (h1 p c q.key) = .unseated m' u) : drain p c (q :: rest) m = .stuck m' u rest := by
  simp [drain, h, hend]

end

/-- Settles O42: the equations of the attempt and of the worklist, and the run's end by what stopped the worklist
(`finishPut_of_all`, `finishPut_of_stuck`). -/
theorem worklistLoopGrowsWithinCapMax : Obligations.WorklistLoopGrowsWithinCapMax := by
  refine ⟨fun s c => State.putWork_of_fresh, fun p c n m cur pos => ⟨rfl, attempt_of_empty, attempt_of_same,
    fun e => attempt_of_other⟩, fun p c m q rest => ⟨present_eq_true_iff, rfl, drain_of_present rest, fun hnew =>
    ⟨fun m' => drain_of_seated rest hnew, fun m' u => drain_of_unseated rest hnew⟩, rfl⟩, fun p w =>
    ⟨fun m => finishPut_of_all, fun m u rest hstuck => ⟨fun hlast => ?_, fun hgrow => ?_⟩⟩⟩
  · exact (finishPut_of_stuck hstuck).trans (if_pos hlast)
  · exact (finishPut_of_stuck hstuck).trans (if_neg (not_lt.2 hgrow))

/-! ## Puts that move at most one slot -/

/-- A put whose one item is PRESENT ends with the table as it was (R149). -/
theorem finishPut_of_present {p : Params} {c : Nat} {m : SlotStore} {q : Pair} (h : present p c m q = true) :
    finishPut p ⟨c, m, [q], none⟩ = .seated c m :=
  finishPut_of_all (drain_of_present [] h)

theorem exec_ckPut_of_exhausted {s : State} {c : Nat} (h : s.ckMode = .ready)
    (hend : finishPut s.cfg s.putWork = .exhausted c) : exec .ckPut s = s.failPut c := by
  refine (ckGate_ready h _).trans ?_
  rw [hend]

/-- Settles O38: a seated put by `exec_ckPut_of_seated`, an exhausted one by FAIL, past the bound it met
(`finishPut_exhausted`). -/
theorem ckPutCompletes : Obligations.CkPutCompletes := by
  refine ⟨encodedOnlyAs_of_commandOf (by decide) (by decide) rfl, gatedOut_of_mem (by decide), fun s hready =>
    ⟨fun c m hend => exec_ckPut_of_seated hready hend, fun c hend => ?_, ?_⟩⟩
  · exact ⟨_, exec_ckPut_of_exhausted hready hend, rfl, finishPut_exhausted hend⟩
  · obtain ⟨t, ht, -⟩ := exec_next .ckPut s
    exact ⟨t, ht⟩

/-- Settles O39: the pair is not PRESENT, and its attempt ends at once in the Empty slot (`attempt_of_empty`). -/
theorem ckPutSeatsInEmptyPrimarySlot : Obligations.CkPutSeatsInEmptyPrimarySlot := by
  intro s c hfresh hready hcap hempty h2nd
  have hnew : present s.cfg s.capacity s.slots ⟨c.arg0, c.arg1⟩ = false :=
    present_eq_false (by simp [hempty]) h2nd
  obtain ⟨n, hn⟩ := Nat.exists_eq_add_of_le' hcap
  have hattempt : attempt s.cfg s.capacity s.capacity s.slots ⟨c.arg0, c.arg1⟩ (h1 s.cfg s.capacity c.arg0) =
      .seated (slotWrite s.slots (h1 s.cfg s.capacity c.arg0) (some ⟨c.arg0, c.arg1⟩)) := by
    rw [hn] at hempty ⊢
    exact attempt_of_empty hempty
  have hend := finishPut_of_seated hnew hattempt
  rw [← State.putWork_of_fresh hfresh] at hend
  exact ⟨exec_ckPut_of_seated hready hend, fun j => slotRead_slotWrite_some ..⟩

/-- Settles O41: a PRESENT pair is dropped (`finishPut_of_present`); one that is not, and that `h1` holds, is met at the
first probe (`attempt_of_same`). -/
theorem ckPutOfPresentPairChangesNothing : Obligations.CkPutOfPresentPairChangesNothing := by
  intro s c hfresh hready
  have hcompletes : finishPut s.cfg ⟨s.capacity, s.slots, [⟨c.arg0, c.arg1⟩], none⟩ = .seated s.capacity s.slots →
      exec .ckPut s = .next { s with err := .ok, result := false, phase := .idle } := fun hend => by
    rw [← State.putWork_of_fresh hfresh] at hend
    exact exec_ckPut_of_seated hready hend
  refine ⟨fun hdup hheld => hcompletes (finishPut_of_present (present_eq_true_iff.2 ⟨hdup, hheld⟩)),
    fun hcap hheld => hcompletes ?_⟩
  cases hpresent : present s.cfg s.capacity s.slots ⟨c.arg0, c.arg1⟩ with
  | true => exact finishPut_of_present hpresent
  | false =>
    obtain ⟨n, hn⟩ := Nat.exists_eq_add_of_le' hcap
    refine finishPut_of_seated hpresent ?_
    rw [hn] at hheld ⊢
    exact attempt_of_same hheld

/-! ## The multimap -/

/-- What a CK_PUT in mode READY that completes without error makes of the table, from any state that meets the invariant:
the capacity follows the growth rule within CAP_MAX, the table is in good order and holds the pairs it held and the one put;
and a PRESENT pair moves nothing. -/
theorem ckPut_seated {s : State} {c : Nat} {m : SlotStore} (hinv : Inv s) (hready : s.ckMode = .ready)
    (hend : finishPut s.cfg s.putWork = .seated c m) :
    (∃ n, c + 1 = 2 ^ n * (s.capacity + 1)) ∧ (1 ≤ c ∧ c ≤ s.cfg.capMax) ∧ TableOk s.cfg c m ∧
      (∀ q, q ∈ SlotStore.pairs m ↔ q ∈ SlotStore.pairs s.slots ∨ q = ⟨s.larg0, s.larg1⟩) ∧
      ((⟨s.larg0, s.larg1⟩ :: SlotStore.pairs s.slots).Nodup →
        (SlotStore.pairs m).Perm (⟨s.larg0, s.larg1⟩ :: SlotStore.pairs s.slots)) := by
  obtain ⟨hcap, hmax, hok⟩ := hinv.cuckoo.tableOk hready
  rw [hinv.finishPut_putWork] at hend
  have hspec := finishPut_spec s.cfg _ s.putStart (le_refl _) rfl hcap hok
  rw [hend] at hspec
  obtain ⟨hgrowth, hbound, hpos, htable, hmem, hperm⟩ := hspec
  exact ⟨hgrowth, ⟨hpos, hbound hmax⟩, htable, fun q => by simpa [State.putStart] using hmem q, hperm⟩

/-- A CK_PUT of a pair that the table holds moves nothing under DUP_PRECHECK (R149). -/
theorem ckPut_of_held {s : State} {c : Nat} {m : SlotStore} (hinv : Inv s) (hready : s.ckMode = .ready)
    (hdup : s.cfg.dupPrecheck = true) (hheld : ⟨s.larg0, s.larg1⟩ ∈ SlotStore.pairs s.slots)
    (hend : finishPut s.cfg s.putWork = .seated c m) : c = s.capacity ∧ m = s.slots := by
  rw [hinv.finishPut_putWork] at hend
  have hsame := finishPut_of_present (hinv.present_of_mem hready hdup hheld)
  cases hsame.symm.trans hend
  exact ⟨rfl, rfl⟩

/-- A CK_PUT that completes without error is a seated one (R146). -/
theorem ckPut_next_ok {s t : State} (hready : s.ckMode = .ready) (h : exec .ckPut s = .next t) (herr : t.err = .ok) :
    ∃ c m, finishPut s.cfg s.putWork = .seated c m ∧ t = State.complete { s with capacity := c, slots := m } .ok false := by
  obtain hseated | ⟨c, -, rfl⟩ := ckPut_next hready h
  · exact hseated
  · cases herr

theorem length_pairs (m : SlotStore) : (SlotStore.pairs m).length = m.length := List.length_map ..

/-- Settles O44: the pairs are those held and the one put, each once where they are distinct (`ckPut_seated`), and a pair
held before moves nothing (`ckPut_of_held`). -/
theorem ckPutAddsThePairAndLosesNone : Obligations.CkPutAddsThePairAndLosesNone := by
  intro s t hinv hready h herr
  obtain ⟨c, m, hend, rfl⟩ := ckPut_next_ok hready h herr
  obtain ⟨-, -, htable, hmem, hperm⟩ := ckPut_seated hinv hready hend
  have hwf := hinv.cuckoo.canonical
  refine ⟨fun q => ?_, fun hdup => ⟨fun hheld => ?_, fun hnew => ?_⟩⟩
  · rw [State.complete_slots, ← mem_pairs_iff_slotRead htable.wf, hmem, mem_pairs_iff_slotRead hwf]
  · obtain ⟨-, rfl⟩ := ckPut_of_held hinv hready hdup ((mem_pairs_iff_slotRead hwf).2 hheld) hend
    rfl
  · have hfresh : ⟨s.larg0, s.larg1⟩ ∉ SlotStore.pairs s.slots := fun hheld => by
      obtain ⟨i, hi⟩ := (mem_pairs_iff_slotRead hwf).1 hheld
      exact hnew i hi
    have hlength := (hperm (List.nodup_cons.2 ⟨hfresh, hinv.cuckoo.distinct hready hdup⟩)).length_eq
    rwa [List.length_cons, length_pairs, length_pairs] at hlength

/-! ## The capacity -/

/-- A command other than CK_INIT and CK_PUT keeps the capacity. -/
theorem exec_capacity {i : Instr} {s t : State} (hinit : i ≠ .ckInit) (hput : i ≠ .ckPut) (h : exec i s = .next t) :
    t.capacity = s.capacity := by
  have hframe := exec_inFrame h
  cases i with
  | ckInit => exact absurd rfl hinit
  | ckPut => exact absurd rfl hput
  | nop | strClear | strPush | heHash | bfConfig | bfConfigSized | bfAdd | bfContains | bfReadWord | ckGet | ckRemove |
    ckSize | ckClear | ckCapacity | ckReadSlot => exact (congrArg State.capacity hframe :)

/-- A CK_PUT, seated or not, grows the capacity by the growth rule and keeps it within CAP_MAX (R152, R153). -/
theorem exec_ckPut_capacity {s t : State} (hinv : Inv s) (hready : s.ckMode = .ready) (h : exec .ckPut s = .next t) :
    (∃ n, t.capacity + 1 = 2 ^ n * (s.capacity + 1)) ∧ 1 ≤ t.capacity ∧ t.capacity ≤ s.cfg.capMax := by
  obtain ⟨c, m, hend, rfl⟩ | ⟨c, hend, rfl⟩ := ckPut_next hready h
  · obtain ⟨hgrowth, ⟨hpos, hmax⟩, -⟩ := ckPut_seated hinv hready hend
    exact ⟨hgrowth, hpos, hmax⟩
  · obtain ⟨hcap, hmax, hok⟩ := hinv.cuckoo.tableOk hready
    rw [hinv.finishPut_putWork] at hend
    have hspec := finishPut_spec s.cfg _ s.putStart (le_refl _) rfl hcap hok
    rw [hend] at hspec
    obtain ⟨hgrowth, hbound, hpos, -⟩ := hspec
    exact ⟨hgrowth, hpos, hbound hmax⟩

/-- Settles O45: only a CK_PUT in mode READY moves the capacity, by the growth rule (`exec_ckPut_capacity`). -/
theorem capacityOnlyGrowsByTheGrowthRule : Obligations.CapacityOnlyGrowsByTheGrowthRule := by
  intro i s t hinv hinit h
  have hkept : t.capacity = s.capacity → t.capacity + 1 = 2 ^ 0 * (s.capacity + 1) ∧
      (s.ckMode = .ready → t.capacity ≤ s.cfg.capMax) ∧ (i ≠ .ckPut → 0 = 0) := fun heq =>
    ⟨by rw [heq, pow_zero, one_mul], fun hready => heq ▸ (hinv.cuckoo.tableOk hready).2.1, fun _ => rfl⟩
  by_cases hput : i = .ckPut
  · subst hput
    obtain ⟨-, rfl⟩ | ⟨-, rfl⟩ | ⟨hready, -⟩ := ckGate_next h
    · exact ⟨0, hkept rfl⟩
    · exact ⟨0, hkept rfl⟩
    · obtain ⟨⟨n, hn⟩, -, hmax⟩ := exec_ckPut_capacity hinv hready h
      exact ⟨n, hn, fun _ => hmax, fun hne => absurd rfl hne⟩
  · exact ⟨0, hkept (exec_capacity hinit hput h)⟩

/-! ## Lookup and removal -/

/-- A value found is that of a pair the table holds under the key. -/
theorem State.lookup_held {s : State} {x v : Word} (h : s.lookup x = some v) : ∃ j, slotRead s.slots j = some ⟨x, v⟩ := by
  rw [State.lookup_eq_or, Option.or_eq_some_iff] at h
  obtain h1st | ⟨-, h2nd⟩ := h
  · exact ⟨_, keyedValue_eq_some_iff.1 h1st⟩
  · exact ⟨_, keyedValue_eq_some_iff.1 h2nd⟩

/-- Every key the table holds is found: its pair lies at a candidate slot (10_state.md R41). -/
theorem Inv.lookup_of_held {s : State} (hinv : Inv s) (hready : s.ckMode = .ready) {i : Nat} {x v : Word}
    (hi : slotRead s.slots i = some ⟨x, v⟩) : ∃ v', s.lookup x = some v' := by
  rw [State.lookup_eq_or, ← Option.isSome_iff_exists, Option.isSome_or, Bool.or_eq_true]
  have hcandidate := hinv.cuckoo.reachable hready i ⟨x, v⟩ (mem_of_slotRead hi)
  obtain rfl | rfl := hcandidate
  · exact .inl (Option.isSome_iff_exists.2 ⟨v, keyedValue_eq_some_iff.2 hi⟩)
  · exact .inr (Option.isSome_iff_exists.2 ⟨v, keyedValue_eq_some_iff.2 hi⟩)

/-- Settles O47: the key is found (`Inv.lookup_of_held`), with the value of a pair held (`State.lookup_held`). -/
theorem ckGetFindsEveryHeldKey : Obligations.CkGetFindsEveryHeldKey := by
  intro s i v hinv hready hi
  obtain ⟨v', hv'⟩ := hinv.lookup_of_held hready hi
  exact ⟨_, exec_ckGet_of_some hready hv', rfl, rfl, State.lookup_held hv'⟩

/-- A CK_GET that answers 1 gives the value of a pair the table holds under the key. -/
theorem exec_ckGet_held {s t : State} (h : exec .ckGet s = .next t) (hresult : t.result = true) :
    ∃ j, slotRead s.slots j = some ⟨s.larg0, t.res0⟩ := by
  obtain ⟨-, rfl⟩ | ⟨-, rfl⟩ | ⟨hready, -⟩ := ckGate_next h
  · cases hresult
  · cases hresult
  · cases hv : s.lookup s.larg0 with
    | none => rw [exec_ckGet_of_none hready hv] at h; cases h; cases hresult
    | some v => rw [exec_ckGet_of_some hready hv] at h; cases h; exact State.lookup_held hv

/-- A slot store whose pairs are distinct holds a pair at one slot only. -/
theorem slot_unique {m : SlotStore} (hdistinct : (SlotStore.pairs m).Nodup) {i j : Nat} {q : Pair}
    (hi : slotRead m i = some q) (hj : slotRead m j = some q) : i = j := by
  have hinj := List.inj_on_of_nodup_map hdistinct
  exact congrArg Prod.fst (hinj (mem_of_slotRead hi) (mem_of_slotRead hj) rfl)

/-- Settles O49: the pair was at the one slot that CK_REMOVE cleared (`slot_unique`), and CK_GET answers a held pair only
(`exec_ckGet_held`). -/
theorem removedPairIsGone : Obligations.RemovedPairIsGone := by
  intro s t hinv hready hdup h hresult
  have hgone : ∀ i, slotRead t.slots i ≠ some ⟨s.larg0, s.larg1⟩ := by
    cases hat : s.removeAt ⟨s.larg0, s.larg1⟩ with
    | none => rw [exec_ckRemove_of_none hready hat] at h; cases h; cases hresult
    | some k =>
      rw [exec_ckRemove_of_some hready hat] at h
      cases h
      have hk : slotRead s.slots k = some ⟨s.larg0, s.larg1⟩ := by
        obtain ⟨hheld, rfl⟩ | ⟨-, hheld, rfl⟩ := State.removeAt_eq_some_iff.1 hat <;> exact hheld
      intro i hi
      rw [State.complete_slots, slotRead_slotWrite_none hinv.cuckoo.canonical] at hi
      split at hi
      · cases hi
      · next hne => exact hne (slot_unique (hinv.cuckoo.distinct hready hdup) hi hk)
  refine ⟨hgone, fun c u hkey hget ⟨hanswer, hvalue⟩ => ?_⟩
  obtain ⟨j, hj⟩ := exec_ckGet_held hget hanswer
  have hlarg : State.larg0 { t with phase := .command c none } = s.larg0 := hkey
  rw [hlarg, hvalue] at hj
  exact hgone j hj

end Sys2Proof.Machine
end

section
/-! The scrambling table (spec 40_hash_engine.md R100) and what a configuration, the probes and a step leave of the Bloom filter
(41_bloom.md R121 and R123, 10_state.md R41). -/

namespace Sys2Proof.Machine

/-! ## The scrambling table -/

theorem length_tableFrom (p : Config.Params) (n : Nat) (h : DWord) : (tableFrom p n h).length = n := by
  induction n generalizing h with
  | zero => rfl
  | succ n ih => rw [tableFrom, List.length_cons, ih]

/-- The first entry is TROUNDS rounds from the seed. -/
theorem tabRead_tableFrom_zero (p : Config.Params) (n : Nat) (h : DWord) :
    tabRead (tableFrom p (n + 1) h) 0 = scrambleRounds p Config.trounds h := rfl

/-- Each further entry is TROUNDS rounds from the entry before it: the seed runs on (R100). -/
theorem tabRead_tableFrom_succ (p : Config.Params) {n i : Nat} (hi : i + 1 < n) (h : DWord) :
    tabRead (tableFrom p n h) (i + 1) = scrambleRounds p Config.trounds (tabRead (tableFrom p n h) i) := by
  induction i generalizing n h with
  | zero => obtain ⟨k, rfl⟩ := Nat.exists_eq_add_of_le' hi; rfl
  | succ i ih =>
    obtain ⟨k, rfl⟩ := Nat.exists_eq_add_of_lt hi
    exact ih (by omega) _

/-- `n + 1` rounds are `n` rounds and then one more. -/
theorem scrambleRounds_succ (p : Config.Params) (n : Nat) (h : DWord) :
    scrambleRounds p (n + 1) h = scrambleRound p (scrambleRounds p n h) := by
  induction n generalizing h with
  | zero => rfl
  | succ n ih => exact ih (scrambleRound p h)

/-- Settles O21, from the entries of a table built from a running seed (`tabRead_tableFrom_succ`). -/
theorem scramblingTableRecurrence : Obligations.ScramblingTableRecurrence := by
  refine ⟨fun p => ⟨length_tableFrom p _ _, tabRead_tableFrom_zero p _ _, fun i hi => tabRead_tableFrom_succ p hi _,
    fun h => rfl, scrambleRounds_succ p⟩, fun n h => ⟨rfl, rfl⟩, rfl, rfl, rfl⟩

/-! ## The Bloom filter -/

/-- A configuration without error makes a new, empty filter (R121). -/
theorem exec_configuration_of_ok {i : Instr} {s t : State} (hi : i = .bfConfig ∨ i = .bfConfigSized)
    (h : exec i s = .next t) (hok : t.err = .ok) : t.bfReady = true ∧ t.bits = [] := by
  obtain rfl | rfl := hi
  · obtain ⟨-, rfl⟩ | ⟨-, -, rfl⟩ | ⟨-, -, rfl⟩ := tryConfigure_next h
    · cases hok
    · cases hok
    · exact ⟨rfl, rfl⟩
  · obtain ⟨-, rfl⟩ | ⟨-, -, rfl⟩ | ⟨-, -, rfl⟩ := tryConfigureSized_next h
    · cases hok
    · cases hok
    · exact ⟨rfl, rfl⟩

/-- A command that is no configuration keeps the filter's configuration. -/
theorem exec_keeps_configuration {i : Instr} {s t : State} (hconfig : i ≠ .bfConfig) (hsized : i ≠ .bfConfigSized)
    (h : exec i s = .next t) : t.bfReady = s.bfReady ∧ t.log2Bits = s.log2Bits ∧ t.k = s.k := by
  have hkept : FilterKept s t := exec_filterKept h fun hi => absurd hi (not_or.2 ⟨hconfig, hsized⟩)
  exact ⟨hkept.bfReady, hkept.log2Bits, hkept.k⟩

/-- Settles O28, by how the configuration ended (`exec_configuration_of_ok`, `exec_configuration_bloom_of_error`). -/
theorem configurationMakesAnEmptyFilter : Obligations.ConfigurationMakesAnEmptyFilter := by
  refine ⟨fun i s t hi h => ⟨fun hok => ?_, fun herr => ?_⟩, fun i s t => exec_keeps_configuration⟩
  · obtain ⟨hready, hbits⟩ := exec_configuration_of_ok hi h hok
    refine ⟨hready, fun j => by rw [hbits, bitRead_nil], rfl, if_pos hready⟩
  · have hkept := exec_configuration_bloom_of_error hi h herr
    simp only [State.bloom, Prod.mk.injEq] at hkept
    obtain ⟨hready, hlog, hk, hbits⟩ := hkept
    exact ⟨hready, hlog, hk, hbits, by simp only [State.bfCfgWord, hready, hlog, hk]⟩

/-- Settles O29: a probe is the low bits of the hash (`probe_eq`). -/
theorem probesAreInRange : Obligations.ProbesAreInRange := by
  intro s hlog
  refine ⟨by simp [State.probes], fun n hn => ⟨by simp [State.probes, hn], probe_eq hlog n, ?_, fun hstr => ?_⟩⟩
  · rw [probe_eq hlog]
    exact Nat.mod_lt _ (Nat.two_pow_pos _)
  · rw [probe_eq hlog, State.hash, hstr, hashOf_nil]

/-- Settles O33: such a step keeps the filter (`step_filterKept`). -/
theorem bloomBitsAreNeverCleared : Obligations.BloomBitsAreNeverCleared :=
  fun _ _ h hno _ hj => bitRead_eq_true.2 ((step_filterKept h hno).bits (bitRead_eq_true.1 hj))

end Sys2Proof.Machine
end

section
/-! Reads of the register window, busy and idle (spec 10_state.md R22 and R25 to R33, 70_reset_and_hazards.md R211), and dropped
and accepted CMD writes (R210). -/

namespace Sys2Proof.Machine

/-! ## Reads while BUSY is 1 -/

theorem openRead_of_busy {s : State} (h : s.busy = true) (v : Word) :
    openRead s v = (Config.freeWord s.draws, s.drawn) := if_pos h

theorem openRead_of_idle {s : State} (h : s.busy = false) (v : Word) : openRead s v = (v, s) := by
  simp [openRead, h]

theorem readReg_status_of_busy {s : State} (h : s.busy = true) :
    readReg .status s = (s.busyStatusWord (Config.freeWord s.draws), s.drawn) := if_pos h

theorem readReg_status_of_idle {s : State} (h : s.busy = false) : readReg .status s = (s.statusWord, s) := by
  simp [readReg, h]

/-- The open fields of STATUS while BUSY is 1 are bits of the free value (R211). -/
theorem busyStatusWord_fields (s : State) (f : Word) :
    (s.busyStatusWord f).extractLsb' 3 3 = f.extractLsb' 3 3 ∧ (s.busyStatusWord f).extractLsb' 8 8 = f.extractLsb' 8 8 := by
  refine ⟨BitVec.eq_of_getLsbD_eq fun j hj => ?_, errField_statusOf ..⟩
  simp only [State.busyStatusWord, BitVec.getLsbD_extractLsb', getLsbD_statusOf]
  interval_cases j <;> rfl

/-- Settles O12: the open reads are free values (`openRead_of_busy`), the fixed ones do not look at BUSY, and STATUS shows
BUSY and OVR among bits of a free value. -/
theorem readsWhileBusy : Obligations.ReadsWhileBusy := by
  intro s hbusy
  obtain ⟨hflags, herr⟩ := busyStatusWord_fields s (Config.freeWord s.draws)
  obtain ⟨hlow, hhigh⟩ := statusOf_reserved true ((Config.freeWord s.draws).getLsbD 1) s.ovr
    ((Config.freeWord s.draws).getLsbD 3) ((Config.freeWord s.draws).getLsbD 4) ((Config.freeWord s.draws).getLsbD 5)
    ((Config.freeWord s.draws).extractLsb' 8 8)
  refine ⟨rfl, rfl, rfl, rfl, rfl, rfl, rfl, rfl, rfl, rfl, fun r hr => ?_, ?_⟩
  · simp only [List.mem_cons, List.not_mem_nil, or_false] at hr
    obtain rfl | rfl | rfl | rfl | rfl := hr <;> exact openRead_of_busy hbusy _
  · rw [readReg_status_of_busy hbusy]
    exact ⟨rfl, getLsbD_statusOf .., getLsbD_statusOf .., getLsbD_statusOf .., hflags, herr, hlow, hhigh⟩

/-! ## Reads while the engine is idle -/

/-- BF_CFG as a number: the two fields do not overlap (10_state.md R29). -/
theorem toNat_bfCfgWord {s : State} (hinv : BloomInv s) (hcfg : s.cfg.wellFormed = true) :
    s.log2Bits < 32 ∧ s.k < 16 ∧ s.bfCfgWord.toNat = 256 * s.k + s.log2Bits := by
  obtain ⟨⟨-, hmax⟩, -, -⟩ := wellFormed_ranges hcfg
  cases hready : s.bfReady with
  | false =>
    obtain ⟨hlog, hk⟩ := hinv.unconfigured hready
    simp [State.bfCfgWord, hready, hlog, hk]
  | true =>
    have hlog := hinv.log2Bits_range hready
    have hk : 1 ≤ s.k ∧ s.k ≤ 8 := hinv.k_range hready
    refine ⟨by omega, by omega, ?_⟩
    have hlow : s.log2Bits < 2 ^ 8 := by omega
    rw [State.bfCfgWord, if_pos hready, BitVec.toNat_or, BitVec.toNat_shiftLeft, BitVec.toNat_ofNat, BitVec.toNat_ofNat,
      Nat.mod_eq_of_lt (by omega : s.k < 2 ^ 32), Nat.mod_eq_of_lt (by omega : s.log2Bits < 2 ^ 32),
      Nat.mod_eq_of_lt (by rw [Nat.shiftLeft_eq]; omega), ← Nat.shiftLeft_add_eq_or_of_lt hlow, Nat.shiftLeft_eq]
    omega

/-- The fields of BF_CFG (R29), and 0 in its reserved bits (R33). -/
theorem bfCfgWord_fields {s : State} (hinv : Inv s) :
    (s.bfCfgWord.extractLsb' 0 5).toNat = s.log2Bits ∧ (s.bfCfgWord.extractLsb' 8 4).toNat = s.k ∧
      s.bfCfgWord.extractLsb' 5 3 = 0#3 ∧ s.bfCfgWord.extractLsb' 12 20 = 0#20 := by
  obtain ⟨hlog, hk, hword⟩ := toNat_bfCfgWord hinv.bloom hinv.cfg
  simp only [← BitVec.toNat_inj, BitVec.extractLsb'_toNat, hword, Nat.shiftRight_eq_div_pow, BitVec.toNat_ofNat]
  omega

/-- Settles O13: an idle engine's registers read as they are, STATUS bit by bit (`getLsbD_statusOf`), BF_CFG by its two
fields (`bfCfgWord_fields`). -/
theorem readsWhileIdle : Obligations.ReadsWhileIdle := by
  refine ⟨rfl, fun s hidle => ?_⟩
  obtain ⟨hlow, hhigh⟩ := statusOf_reserved s.busy s.result s.ovr s.ckFailed s.bfReady s.ckReady s.err.code
  have hopen := openRead_of_idle hidle
  rw [readReg_status_of_idle hidle]
  refine ⟨rfl, rfl, rfl, rfl, rfl, hopen _, hopen _, hopen _, hopen _, rfl, rfl, rfl, rfl, rfl, rfl,
    (getLsbD_statusOf ..).trans hidle, getLsbD_statusOf .., getLsbD_statusOf .., getLsbD_statusOf .., getLsbD_statusOf ..,
    getLsbD_statusOf .., hlow, errField_statusOf .., hhigh, readReg_idle hidle .bfCfg, fun hinv => ?_⟩
  have hread : (readReg .bfCfg s).1 = s.bfCfgWord := congrArg Prod.fst (hopen s.bfCfgWord)
  obtain ⟨hlog, hk, hmid, htop⟩ := bfCfgWord_fields hinv
  rw [hread]
  exact ⟨hlog, hk, hmid, htop, fun hready => if_neg (by simp [hready])⟩

/-! ## Writes of CMD and STATUS -/

/-- STATUS shows OVR, busy or idle (10_state.md R25, R211). -/
theorem readReg_status_ovr (s : State) : (readReg .status s).1.getLsbD 2 = s.ovr := by
  rw [readReg_status_value]
  split <;> exact getLsbD_statusOf ..

/-- Settles O10: a dropped CMD write (`writeReg_cmd_of_busy`), the two STATUS writes, and OVR as STATUS shows it
(`readReg_status_ovr`). -/
theorem commandWriteWhileBusyIsDropped : Obligations.CommandWriteWhileBusyIsDropped := by
  refine ⟨fun s w hbusy => ?_, fun s v => ⟨fun hset => ?_, fun hclear => ?_⟩⟩
  · rw [readReg_status_ovr, writeReg_cmd_of_busy hbusy]
    exact ⟨rfl, rfl⟩
  · have hwrite : writeReg .status v s = { s with ovr := false } := if_pos hset
    rw [readReg_status_ovr, hwrite]
    exact ⟨rfl, rfl⟩
  · exact if_neg (Bool.eq_false_iff.1 hclear)

end Sys2Proof.Machine
end

section
/-! Single steps (spec 10_state.md section 2, 70_reset_and_hazards.md sections 1 to 3): the completion of a legal command, of an
issued word and of whatever keeps the engine busy, reset, and two CMD writes in a row. -/

namespace Sys2Proof.Machine

/-! ## The engine's turn -/

theorem step_engine {s : State} (hcfg : s.cfg.wellFormed = true) (hturn : s.nextTurn = .engine) :
    step s = engineTurn s.popTurn := by
  simp only [step, hcfg, hturn, if_true]

/-- Settles O6: the engine's turn decodes LCMD (`engineTurn_of_command`). -/
theorem stepRunsTheDecodedCommand : Obligations.StepRunsTheDecodedCommand :=
  fun s _ _ _ hcfg hturn hp hd => (step_engine hcfg hturn).trans (engineTurn_of_command (s := s.popTurn) hp hd)

/-- A table word that decodes is a legal command word (30_encoding.md R74). -/
theorem decode_of_decodeTableWord {w : Nat} {i : Instr} (h : decodeTableWord 32 w = some i) :
    decode (BitVec.ofNat 32 (w % 2 ^ 32)) = .ok i := by
  unfold decodeTableWord at h
  rw [if_pos (Nat.mod_lt w (Nat.two_pow_pos 32))] at h
  simp only [decodeBytes, Laws.EncodedWord.wordOfBytes_byteOfWord] at h
  cases hd : decode (BitVec.ofNat 32 (w % 2 ^ 32)) with
  | ok j => rw [hd] at h; cases h; rfl
  | error e => rw [hd] at h; cases h

/-- What making the engine ready to accept leaves alone. -/
theorem readyToAccept_kept (s : State) :
    s.readyToAccept.cfg = s.cfg ∧ s.readyToAccept.sched = s.sched ∧
      (s.readyToAccept.arg0 = s.arg0 ∧ s.readyToAccept.arg1 = s.arg1 ∧ s.readyToAccept.arg2 = s.arg2) ∧
      s.readyToAccept.str = s.str ∧ s.readyToAccept.bits = s.bits ∧ s.readyToAccept.cuckoo = s.cuckoo := by
  unfold State.readyToAccept
  cases s.phase <;> exact ⟨rfl, rfl, ⟨rfl, rfl, rfl⟩, rfl, rfl, rfl⟩

/-- Settles O7: the issued word is in LCMD and the next turn is the engine's. -/
theorem issuedWordRunsNext : Obligations.IssuedWordRunsNext := by
  intro s w i hcfg hw
  obtain ⟨hkeepsCfg, -, ⟨h0, h1, h2⟩, hstr, hbits, hcuckoo⟩ := readyToAccept_kept s
  simp only [State.cuckoo, Prod.mk.injEq] at hcuckoo
  obtain ⟨hmode, hcap, hslots⟩ := hcuckoo
  have hword : BitVec.ofNat 32 (w % 2 ^ 32) = BitVec.ofNat 32 w := by
    rw [← BitVec.toNat_inj, BitVec.toNat_ofNat, BitVec.toNat_ofNat, Nat.mod_mod]
  have hstep := stepRunsTheDecodedCommand (s.withFetchWord 32 w) _ none i (hkeepsCfg ▸ hcfg) rfl rfl
    (decode_of_decodeTableWord hw)
  refine ⟨_, hstep, rfl, ?_, hstr, hbits, hslots, hmode, hcap⟩
  rw [← hword, ← h0, ← h1, ← h2]
  rfl

/-- Settles O8: the default turn of a busy engine is the engine's, which completes whatever is in progress
(`engineTurn_completes`). -/
theorem busyEngineCompletes : Obligations.BusyEngineCompletes := by
  intro s hcfg hbusy hsched
  have hturn : s.nextTurn = .engine := by simp only [State.nextTurn, hsched, hbusy, if_true]
  obtain ⟨t, ht, hidle, -⟩ := engineTurn_completes s.popTurn
  exact ⟨t, (step_engine hcfg hturn).trans ht, State.busy_eq_false_iff.2 hidle⟩

/-! ## Reset -/

/-- Settles O20, by the turn of the platform and, during initialisation, those of the host and of the engine. -/
theorem resetAbandonsTheCommandAndInitialises : Obligations.ResetAbandonsTheCommandAndInitialises := by
  refine ⟨fun s hcfg hturn => ?_, fun s hinit => ?_⟩
  · simp only [step, hcfg, hturn, if_true]
    rfl
  · have hbusy : s.busy = true := by simp only [State.busy, hinit]
    refine ⟨hbusy, writeReg_cmd_of_busy hbusy, by simp only [workTurn, hinit], ?_⟩
    simp only [engineTurn, hinit]
    rfl

/-! ## Two CMD writes in a row -/

/-- The engine's turn on a command leaves alone what every command does, legal or not. -/
theorem engineTurn_untouched {s t : State} {c : Latched} {pw : Option PutWork} (hp : s.phase = .command c pw)
    (h : engineTurn s = .next t) : t.phase = .idle ∧ Untouched s t := by
  obtain ⟨hq, -⟩ | ⟨hq, -⟩ | ⟨c', w, i, -, -, heq⟩ | ⟨c', w, e, -, -, heq⟩ := engineTurn_cases s
  · cases hp.symm.trans hq
  · cases hp.symm.trans hq
  · exact exec_untouched (heq.symm.trans h)
  · cases heq.symm.trans h
    exact ⟨rfl, ⟨rfl, rfl, rfl, rfl, rfl, rfl, rfl, rfl, rfl, rfl⟩⟩

/-- A host's write of a register is its next statement. -/
theorem hostTurn_hostWr {s : State} {r : Reg} {v : Word} {rest : List HostStmt}
    (h : s.host = hostWr s.cfg.engineBase r v :: rest) : hostTurn s = .next (writeReg r v (s.setHost rest)) := by
  have hwindow : windowReg s.cfg.engineBase (s.cfg.engineBase + r.offset) 4 = some r := windowReg_eq_some.2 ⟨rfl, rfl⟩
  simp only [hostTurn, h, hostWr, hwindow]

theorem step_host {s : State} (hcfg : s.cfg.wellFormed = true) (hturn : s.nextTurn = .host) :
    step s = hostTurn s.popTurn := by
  simp only [step, hcfg, hturn, if_true]

/-- An idle engine accepts the host's CMD write (10_state.md R27). -/
theorem step_hostWr_cmd_of_idle {s : State} {w : Word} {rest : List HostStmt} (hcfg : s.cfg.wellFormed = true)
    (hturn : s.nextTurn = .host) (hidle : s.phase = .idle) (hhost : s.host = hostWr s.cfg.engineBase .cmd w :: rest) :
    step s = .next ((s.popTurn.setHost rest).accept w) := by
  have hnot : (s.popTurn.setHost rest).busy = false := State.busy_eq_false_iff.2 hidle
  rw [step_host hcfg hturn, hostTurn_hostWr (s := s.popTurn) hhost, writeReg_cmd_of_idle hnot]

/-- A busy engine drops it (R210). -/
theorem step_hostWr_cmd_of_busy {s : State} {w : Word} {rest : List HostStmt} (hcfg : s.cfg.wellFormed = true)
    (hturn : s.nextTurn = .host) (hbusy : s.busy = true) (hhost : s.host = hostWr s.cfg.engineBase .cmd w :: rest) :
    step s = .next { s.popTurn.setHost rest with ovr := true } := by
  have hstill : (s.popTurn.setHost rest).busy = true := hbusy
  rw [step_host hcfg hturn, hostTurn_hostWr (s := s.popTurn) hhost, writeReg_cmd_of_busy hstill]

theorem runSteps_succ_of_next {s t : State} (h : step s = .next t) (n : Nat) : runSteps (n + 1) s = runSteps n t := by
  rw [runSteps_succ, h]
  rfl

/-- Settles O60: the first write is accepted; the second is dropped before the completion and accepted after it. -/
theorem secondCommandIsDroppedOrAccepted : Obligations.SecondCommandIsDroppedOrAccepted := by
  intro s w1 w2 hcfg hidle hhost
  set u : State := (s.popTurn.setHost [hostWr s.cfg.engineBase .cmd w2]).accept w1
  have hfirst : s.nextTurn = .host → step s = .next u := fun hturn => step_hostWr_cmd_of_idle hcfg hturn hidle hhost
  refine ⟨fun hsched => ?_, fun hsched => ?_⟩
  · have hturn : s.nextTurn = .host := by simp only [State.nextTurn, hsched]
    have hturn2 : u.nextTurn = .host := by simp [u, State.nextTurn, State.popTurn, hsched]
    have hsecond := step_hostWr_cmd_of_busy (s := u) (w := w2) (rest := []) hcfg hturn2 rfl rfl
    have hrun := (runSteps_succ_of_next (hfirst hturn) 1).trans ((runSteps_one u).trans hsecond)
    exact ⟨_, hrun, rfl, rfl, rfl⟩
  · have hturn : s.nextTurn = .host := by simp only [State.nextTurn, hsched]
    have hturn2 : u.nextTurn = .engine := by simp [u, State.nextTurn, State.popTurn, hsched]
    obtain ⟨t, ht, -⟩ := engineTurn_completes u.popTurn
    obtain ⟨htidle, hkept⟩ := engineTurn_untouched rfl ht
    have hcompletes : step u = .next t := (step_engine (s := u) hcfg hturn2).trans ht
    have hturn3 : t.nextTurn = .host := by simp [u, State.nextTurn, State.popTurn, hsched, hkept.sched]
    have hthird := step_hostWr_cmd_of_idle (s := t) (w := w2) (rest := []) (hkept.cfg ▸ hcfg) hturn3 htidle
      (by rw [hkept.host, hkept.cfg]; rfl)
    have hrun := (runSteps_succ_of_next (hfirst hturn) 2).trans
      ((runSteps_succ_of_next hcompletes 1).trans ((runSteps_one t).trans hthird))
    refine ⟨_, hrun, hkept.ovr, ?_, rfl⟩
    change Latched.mk w2 t.arg0 t.arg1 t.arg2 = _
    rw [hkept.arg0, hkept.arg1, hkept.arg2]
    rfl

end Sys2Proof.Machine
end

section
/-! The invariant (spec 10_state.md R41, with R31, R34 to R36): it holds after reset, and every turn of every agent keeps it. -/

namespace Sys2Proof.Machine

open Config (Params)

/-! ## The parts of the invariant -/

/-- What the Bloom invariant speaks of is the parameters and the unit. -/
theorem BloomInv.congr {s t : State} (h : BloomInv s) (hcfg : t.cfg = s.cfg) (hbloom : t.bloom = s.bloom) : BloomInv t := by
  simp only [State.bloom, Prod.mk.injEq] at hbloom
  obtain ⟨hready, hlog, hk, hbits⟩ := hbloom
  obtain ⟨h1, h2, h3, h4, h5⟩ := h
  exact ⟨by rwa [hready, hlog, hk], by rwa [hready, hlog, hcfg], by rwa [hready, hk], by rwa [hready, hlog, hbits],
    by rwa [hbits]⟩

/-- What the Cuckoo invariant speaks of is the parameters and the unit. -/
theorem CuckooInv.congr {s t : State} (h : CuckooInv s) (hcfg : t.cfg = s.cfg) (hcuckoo : t.cuckoo = s.cuckoo) :
    CuckooInv t := by
  simp only [State.cuckoo, Prod.mk.injEq] at hcuckoo
  obtain ⟨hmode, hcap, hslots⟩ := hcuckoo
  obtain ⟨h1, h2, h3, h4, h5, h6⟩ := h
  exact ⟨by rwa [hmode, hcap], by rwa [hmode, hcap, hcfg], by rwa [hmode, hcap, hslots], by rwa [hslots],
    by rwa [hmode, hcap, hslots, hcfg], by rwa [hmode, hslots, hcfg]⟩

/-- A READY table in good order, with distinct pairs under DUP_PRECHECK, meets the Cuckoo invariant. -/
theorem CuckooInv.of_ready {s : State} (hready : s.ckMode = .ready) (hcap : 1 ≤ s.capacity ∧ s.capacity ≤ s.cfg.capMax)
    (htable : TableOk s.cfg s.capacity s.slots)
    (hdistinct : s.cfg.dupPrecheck = true → (SlotStore.pairs s.slots).Nodup) : CuckooInv s where
  uninit h := by cases hready.symm.trans h
  capacity_range _ := hcap
  slots_range _ := htable.range
  canonical := htable.wf
  reachable _ := htable.reachable
  distinct _ := hdistinct

/-- An empty READY table meets it (42_cuckoo.md R145, R158). -/
theorem CuckooInv.of_empty {s : State} (hready : s.ckMode = .ready) (hcap : 1 ≤ s.capacity ∧ s.capacity ≤ s.cfg.capMax)
    (hempty : s.slots = []) : CuckooInv s :=
  .of_ready hready hcap (hempty ▸ TableOk.nil ..) fun _ => by rw [hempty]; exact List.nodup_nil

/-! ## Reset -/

theorem resetWith_inv {p : Params} (h : p.wellFormed = true) : Inv (State.resetWith p) where
  cfg := h
  str := Nat.zero_le _
  bloom := ⟨fun _ => ⟨rfl, rfl⟩, nofun, nofun, nofun, .nil⟩
  cuckoo := ⟨fun _ => rfl, fun hne => absurd rfl hne, fun hne => absurd rfl hne, .nil, nofun, nofun⟩
  tab hne := absurd rfl hne
  hidden := nofun

/-- Settles O57: the units are unconfigured, their stores empty, and initialisation is still going on. -/
theorem resetMeetsTheInvariant : Obligations.ResetMeetsTheInvariant :=
  ⟨resetWith_inv (by decide), fun _ => resetWith_inv⟩

/-! ## Commands -/

/-- The staged string still fits: STR_PUSH is refused on a full buffer (R31, 40_hash_engine.md R104). -/
theorem exec_str_le {i : Instr} {s t : State} (h : exec i s = .next t) (hle : s.str.length ≤ s.cfg.strMax) :
    t.str.length ≤ s.cfg.strMax := by
  have hframe := exec_inFrame h
  cases i with
  | strClear => cases h; exact Nat.zero_le _
  | strPush u =>
    by_cases hfull : s.str.length = s.cfg.strMax
    · rw [exec_strPush_of_full hfull] at h; cases h; exact hle
    · rw [exec_strPush_of_room hfull] at h
      cases h
      rw [State.complete_str, List.length_append, List.length_singleton]
      omega
  | nop | heHash | bfConfig | bfConfigSized | bfAdd | bfContains | bfReadWord | ckInit | ckPut | ckGet | ckRemove | ckSize |
    ckClear | ckCapacity | ckReadSlot =>
    have hsame : t.str = s.str := (congrArg State.str hframe :)
    exact hsame ▸ hle

/-- A new filter with its parameters in range meets the Bloom invariant (R34, 41_bloom.md R121). -/
theorem configure_bloomInv {s : State} {L K : Nat} (hL : 1 ≤ L ∧ L ≤ s.cfg.bfMaxLog2) (hK : 1 ≤ K ∧ K ≤ 8) (e : Err) (r : Bool) :
    BloomInv ((s.configure L K).complete e r) :=
  ⟨nofun, fun _ => hL, fun _ => hK, fun _ _ hi => absurd hi List.not_mem_nil, .nil⟩

/-- A probed cell lies in the array (R34, 41_bloom.md R123). -/
theorem Inv.probe_lt {s : State} (h : Inv s) (hready : s.bfReady = true) {j : Nat} (hj : j ∈ s.probes) :
    j < 2 ^ s.log2Bits := by
  obtain ⟨n, -, rfl⟩ := mem_probes.1 hj
  obtain ⟨⟨-, hmax⟩, -, -⟩ := wellFormed_ranges h.cfg
  rw [probe_eq ((h.bloom.log2Bits_range hready).2.trans hmax)]
  exact Nat.mod_lt _ (Nat.two_pow_pos _)

theorem exec_bloomInv {i : Instr} {s t : State} (hinv : Inv s) (h : exec i s = .next t) : BloomInv t := by
  have hcfg := (exec_untouched h).2.cfg
  cases i with
  | bfConfig =>
    obtain ⟨-, rfl⟩ | ⟨-, -, rfl⟩ | ⟨⟨hL, hK⟩, hmax, rfl⟩ := tryConfigure_next h
    · exact hinv.bloom.congr rfl rfl
    · exact hinv.bloom.congr rfl rfl
    · exact configure_bloomInv (by omega) (by omega) _ _
  | bfConfigSized =>
    obtain ⟨-, rfl⟩ | ⟨-, -, rfl⟩ | ⟨⟨-, hK⟩, hmax, rfl⟩ := tryConfigureSized_next h
    · exact hinv.bloom.congr rfl rfl
    · exact hinv.bloom.congr rfl rfl
    · have hrange := sizedLog2_range (s32 s.larg0 * s32 s.larg1)
      exact configure_bloomInv (by omega) (by omega) _ _
  | bfAdd =>
    obtain ⟨-, rfl⟩ | ⟨hready, h⟩ := bfGate_next h
    · exact hinv.bloom.congr rfl rfl
    · obtain rfl : s.added = t := Host.Outcome.next.inj h
      obtain ⟨hunconf, hlog, hk, hbits, hwf⟩ := hinv.bloom
      exact ⟨hunconf, hlog, hk,
        fun _ j hj => (mem_added_bits.1 hj).elim (hbits hready j) (hinv.probe_lt hready), foldl_bitSet_wf hwf⟩
  | nop | strClear | strPush | heHash | bfContains | bfReadWord | ckInit | ckPut | ckGet | ckRemove | ckSize | ckClear |
    ckCapacity | ckReadSlot => exact hinv.bloom.congr hcfg (exec_bloom (by simp) h)

/-- A unit in FAILED: its slots are free values below the capacity (42_cuckoo.md R153). -/
theorem failed_cuckooInv {s : State} {c : Nat} (hc : 1 ≤ c ∧ c ≤ s.cfg.capMax) (n : Nat) (e : Err) (r : Bool) :
    CuckooInv (State.complete { s with ckMode := .failed, capacity := c, slots := failedSlots s.draws c, draws := n } e r) :=
  ⟨nofun, fun _ => hc, fun _ _ _ => failedSlots_range, failedSlots_wf _ _, nofun, nofun⟩

theorem exec_ckPut_cuckooInv {s t : State} (hinv : Inv s) (hready : s.ckMode = .ready) (h : exec .ckPut s = .next t) :
    CuckooInv t := by
  obtain ⟨-, hcap⟩ := exec_ckPut_capacity hinv hready h
  obtain ⟨c, m, hend, rfl⟩ | ⟨c, -, rfl⟩ := ckPut_next hready h
  · obtain ⟨-, -, htable, -, hperm⟩ := ckPut_seated hinv hready hend
    refine .of_ready hready hcap htable fun hdup => ?_
    by_cases hheld : ⟨s.larg0, s.larg1⟩ ∈ SlotStore.pairs s.slots
    · obtain ⟨-, rfl⟩ := ckPut_of_held hinv hready hdup hheld hend
      exact hinv.cuckoo.distinct hready hdup
    · have hnodup := List.nodup_cons.2 ⟨hheld, hinv.cuckoo.distinct hready hdup⟩
      exact (hperm hnodup).nodup_iff.2 hnodup
  · exact failed_cuckooInv hcap _ _ _

theorem exec_cuckooInv {i : Instr} {s t : State} (hinv : Inv s) (h : exec i s = .next t) : CuckooInv t := by
  have hcfg := (exec_untouched h).2.cfg
  have hraise : ∀ e, CuckooInv (s.complete e false) := fun e => hinv.cuckoo.congr rfl rfl
  cases i with
  | ckInit =>
    obtain ⟨-, rfl⟩ | ⟨-, -, rfl⟩ | ⟨hpos, hmax, rfl⟩ := tryInit_next h
    · exact hraise _
    · exact hraise _
    · exact .of_empty rfl ⟨by simp; omega, by simp; omega⟩ rfl
  | ckPut => exact ckGate_induct h hraise fun hready _ => exec_ckPut_cuckooInv hinv hready h
  | ckRemove =>
    refine ckGate_induct h hraise fun hready _ => ?_
    obtain ⟨hpos, hmax, htable⟩ := hinv.cuckoo.tableOk hready
    cases hat : s.removeAt ⟨s.larg0, s.larg1⟩ with
    | none => rw [exec_ckRemove_of_none hready hat] at h; cases h; exact hinv.cuckoo.congr rfl rfl
    | some k =>
      rw [exec_ckRemove_of_some hready hat] at h
      cases h
      exact .of_ready hready ⟨hpos, hmax⟩ (htable.clear k) fun hdup =>
        (hinv.cuckoo.distinct hready hdup).sublist (slotWrite_none_pairs_sublist s.slots k)
  | ckClear =>
    refine ckGate_induct h hraise fun hready hbody => ?_
    cases hbody
    obtain ⟨hpos, hmax, -⟩ := hinv.cuckoo.tableOk hready
    exact .of_empty hready ⟨hpos, hmax⟩ rfl
  | ckGet | ckSize | ckCapacity | ckReadSlot =>
    exact hinv.cuckoo.congr hcfg (congrArg State.cuckoo (exec_inFrame h) :)
  | nop | strClear | strPush | heHash | bfConfig | bfConfigSized | bfAdd | bfContains | bfReadWord =>
    exact hinv.cuckoo.congr hcfg (exec_cuckoo (by simp) h)

/-- Every command keeps the invariant, once initialisation has ended. -/
theorem exec_inv {i : Instr} {s t : State} (hinv : Inv s) (hphase : s.phase ≠ .init) (h : exec i s = .next t) : Inv t := by
  obtain ⟨hidle, hkept⟩ := exec_untouched h
  refine ⟨hkept.cfg ▸ hinv.cfg, hkept.cfg ▸ exec_str_le h hinv.str, exec_bloomInv hinv h, exec_cuckooInv hinv h, fun _ => ?_,
    fun c w hp => by simp [hidle] at hp⟩
  rw [hkept.tab, hkept.cfg, hinv.tab hphase]

/-! ## Turns -/

/-- The start of a CK_PUT in progress is given by its latched operands (10_state.md R27). -/
theorem State.putStart_of_command {s : State} {c : Latched} {pw : Option PutWork} (h : s.phase = .command c pw) :
    s.putStart = ⟨s.capacity, s.slots, [⟨c.arg0, c.arg1⟩], none⟩ := by
  simp [State.putStart, State.larg0, State.larg1, State.latched, h]

/-- A state that differs from one that meets the invariant in what the invariant does not speak of meets it: the registers,
the free values drawn, the schedule and the host. -/
theorem Inv.congr {s t : State} (h : Inv s) (hcfg : t.cfg = s.cfg) (hstr : t.str = s.str) (hbloom : t.bloom = s.bloom)
    (hcuckoo : t.cuckoo = s.cuckoo) (htab : t.tab = s.tab) (hphase : t.phase = s.phase) : Inv t := by
  refine ⟨hcfg ▸ h.cfg, hcfg ▸ hstr ▸ h.str, h.bloom.congr hcfg hbloom, h.cuckoo.congr hcfg hcuckoo, ?_, fun c w hp => ?_⟩
  · rw [hphase, htab, hcfg]
    exact h.tab
  · have hp' := hphase.symm.trans hp
    obtain ⟨hput, hready, hend⟩ := h.hidden c w hp'
    simp only [State.cuckoo, Prod.mk.injEq] at hcuckoo
    obtain ⟨hmode, hcap, hslots⟩ := hcuckoo
    rw [State.putStart_of_command hp'] at hend
    rw [State.putStart_of_command hp, hcfg, hcap, hslots]
    exact ⟨hput, hmode.trans hready, hend⟩

/-- A change of the phase keeps the invariant where the table is built and no hidden state is left. -/
theorem Inv.of_no_hidden {s t : State} (h : Inv s) (hcfg : t.cfg = s.cfg) (hstr : t.str = s.str) (hbloom : t.bloom = s.bloom)
    (hcuckoo : t.cuckoo = s.cuckoo) (htab : t.tab = scrambleTable s.cfg) (hnone : ∀ c w, t.phase ≠ .command c (some w)) :
    Inv t :=
  ⟨hcfg ▸ h.cfg, hcfg ▸ hstr ▸ h.str, h.bloom.congr hcfg hbloom, h.cuckoo.congr hcfg hcuckoo, fun _ => hcfg ▸ htab,
    fun c w hp => absurd hp (hnone c w)⟩

theorem engineTurn_inv {s t : State} (hinv : Inv s) (h : engineTurn s = .next t) : Inv t := by
  obtain ⟨-, heq⟩ | ⟨-, heq⟩ | ⟨c, w, i, hp, -, heq⟩ | ⟨c, w, e, hp, -, heq⟩ := engineTurn_cases s
  · cases heq.symm.trans h
    exact hinv
  · cases heq.symm.trans h
    exact hinv.of_no_hidden rfl rfl rfl rfl rfl nofun
  · exact exec_inv hinv (by simp [hp]) (heq.symm.trans h)
  · cases heq.symm.trans h
    exact hinv.of_no_hidden rfl rfl rfl rfl (hinv.tab (by simp [hp])) nofun

/-- Internal work keeps the invariant: it leads the CK_PUT where it was leading (R40). -/
theorem workTurn_inv {s : State} (hinv : Inv s) : Inv (workTurn s) := by
  obtain h | ⟨c, w, w', hp, hput, hready, hstep, h⟩ := workTurn_cases s
  · rwa [h]
  · rw [h]
    refine ⟨hinv.cfg, hinv.str, hinv.bloom.congr rfl rfl, hinv.cuckoo.congr rfl rfl, fun _ => hinv.tab (by simp [hp]),
      fun c' u hp' => ?_⟩
    cases hp'
    refine ⟨hput, hready, ?_⟩
    calc finishPut s.cfg w'
        = finishPut s.cfg s.putWork := finishPut_putStep hstep
      _ = finishPut s.cfg s.putStart := hinv.finishPut_putWork
      _ = _ := by rw [State.putStart_of_command hp]; rfl

theorem writeReg_inv {s : State} (hinv : Inv s) (r : Reg) (v : Word) : Inv (writeReg r v s) := by
  obtain ⟨-, -, h⟩ | ⟨-, hidle, h⟩ | ⟨-, -, h⟩ | ⟨-, a, b, c, h⟩ | ⟨-, -, h⟩ := writeReg_cases r v s <;> rw [h]
  · exact hinv.congr rfl rfl rfl rfl rfl rfl
  · have hphase : s.phase ≠ .init := by simp [State.busy_eq_false_iff.1 hidle]
    exact hinv.of_no_hidden rfl rfl rfl rfl (hinv.tab hphase) fun _ _ hp => by cases hp
  · exact hinv.congr rfl rfl rfl rfl rfl rfl
  · exact hinv.congr rfl rfl rfl rfl rfl rfl
  · exact hinv

theorem hostTurn_inv {s t : State} (hinv : Inv s) (h : hostTurn s = .next t) : Inv t := by
  obtain ⟨n, l, g, p, rfl⟩ | ⟨r, v, rest, -, rfl⟩ := hostTurn_next h
  · exact hinv.congr rfl rfl rfl rfl rfl rfl
  · have hpopped : Inv (s.setHost rest) := hinv.congr rfl rfl rfl rfl rfl rfl
    exact writeReg_inv hpopped r v

theorem resetTurn_inv {s : State} (h : s.cfg.wellFormed = true) : Inv (resetTurn s) :=
  (resetWith_inv h).congr rfl rfl rfl rfl rfl rfl

/-- Settles O58, by whose turn the step is. -/
theorem stepKeepsTheInvariant : Obligations.StepKeepsTheInvariant := by
  intro s t hinv h
  have hpopped : Inv s.popTurn := hinv.congr rfl rfl rfl rfl rfl rfl
  obtain ⟨hcfg, ⟨-, he⟩ | ⟨-, rfl⟩ | ⟨-, hh⟩ | ⟨-, rfl⟩⟩ := step_next h
  · exact engineTurn_inv hpopped he
  · exact workTurn_inv hpopped
  · exact hostTurn_inv hpopped hh
  · exact resetTurn_inv hcfg

end Sys2Proof.Machine
end

section
/-! KEYS and VALUES (spec 42_cuckoo.md R175, 30_encoding.md R76): the host's traversal of the slots, run with nothing scheduled. -/

namespace Sys2Proof.Machine

/-! ## Runs -/

/-- Some number of steps leads from `s` to `t`. -/
def Reaches (s t : State) : Prop := ∃ n, runSteps n s = .next t

theorem Reaches.refl (s : State) : Reaches s s := ⟨0, rfl⟩

theorem Reaches.head {s t u : State} (hstep : step s = .next t) (h : Reaches t u) : Reaches s u := by
  obtain ⟨n, hn⟩ := h
  exact ⟨n + 1, (runSteps_succ_of_next hstep n).trans hn⟩

theorem Reaches.trans {s t u : State} (hst : Reaches s t) (htu : Reaches t u) : Reaches s u := by
  obtain ⟨n, hn⟩ := hst
  induction n generalizing s with
  | zero =>
    obtain rfl : s = t := Host.Outcome.next.inj hn
    exact htu
  | succ n ih =>
    rw [runSteps_succ] at hn
    cases hstep : step s with
    | next v => rw [hstep] at hn; exact .head hstep (ih hn)
    | fault e => rw [hstep] at hn; cases hn
    | refused e => rw [hstep] at hn; cases hn

theorem State.popTurn_of_nil {s : State} (h : s.sched = []) : s.popTurn = s := by
  have htail : s.sched.tail = s.sched := by rw [h]; rfl
  rw [State.popTurn, htail]

/-- With nothing scheduled an idle engine leaves the turn to the host (70_reset_and_hazards.md R216). -/
theorem step_of_idle {s : State} (hcfg : s.cfg.wellFormed = true) (hidle : s.phase = .idle) (hsched : s.sched = []) :
    step s = hostTurn s := by
  have hbusy : s.busy = false := State.busy_eq_false_iff.2 hidle
  have hturn : s.nextTurn = .host := by simp [State.nextTurn, hsched, hbusy]
  rw [step_host hcfg hturn, State.popTurn_of_nil hsched]

/-- With nothing scheduled a command in progress completes next (R216). -/
theorem step_of_command {s : State} {c : Latched} {pw : Option PutWork} {i : Instr} (hcfg : s.cfg.wellFormed = true)
    (hp : s.phase = .command c pw) (hsched : s.sched = []) (hd : decode c.cmd = .ok i) : step s = exec i s := by
  have hturn : s.nextTurn = .engine := by simp [State.nextTurn, hsched, State.busy_of_command hp]
  rw [step_engine hcfg hturn, State.popTurn_of_nil hsched, engineTurn_of_command hp hd]

/-- An idle read of a register is kept in the host's reads, and nothing else moves. -/
theorem hostReadReg_of_idle {s : State} (hidle : s.phase = .idle) (r : Reg) :
    hostReadReg r s =
      ((readReg r s).1, { s with reads := s.reads ++ [(s.cfg.engineBase + r.offset, (readReg r s).1)] }) := by
  simp only [hostReadReg, readReg_idle (State.busy_eq_false_iff.2 hidle)]

/-! ## A traversal under way -/

/-- Between two of the host's statements: the engine of `s` is idle with the Cuckoo unit as it was, nothing is scheduled, `g`
has been collected and `p` is left of the host's program. -/
structure Traversing (s t : State) (g : List Word) (p : List HostStmt) : Prop where
  cfg : t.cfg = s.cfg
  phase : t.phase = .idle
  sched : t.sched = []
  cuckoo : t.cuckoo = s.cuckoo
  gathered : t.gathered = g
  host : t.host = p

/-- What CK_READ_SLOT answers below the capacity (42_cuckoo.md R160): whether the slot is Occupied, and its pair if so. -/
theorem exec_ckReadSlot_answers {s : State} (hready : s.ckMode = .ready) (hidx : u32 s.larg0 < s.capacity) :
    ∃ t, exec .ckReadSlot s = .next t ∧ t.cuckoo = s.cuckoo ∧ t.result = (slotRead s.slots (u32 s.larg0)).isSome ∧
      ∀ q, slotRead s.slots (u32 s.larg0) = some q → t.res0 = q.key ∧ t.res1 = q.value := by
  cases hslot : slotRead s.slots (u32 s.larg0) with
  | none => exact ⟨_, exec_ckReadSlot_of_none hready hidx hslot, rfl, rfl, nofun⟩
  | some q =>
    exact ⟨_, exec_ckReadSlot_of_some hready hidx hslot, rfl, rfl, fun r hr => by cases hr; exact ⟨rfl, rfl⟩⟩

section
variable {s t : State} {g : List Word} {rest : List HostStmt}

theorem Traversing.step_eq {p : List HostStmt} (h : Traversing s t g p) (hcfg : s.cfg.wellFormed = true) :
    step t = hostTurn t :=
  step_of_idle (h.cfg ▸ hcfg) h.phase h.sched

theorem Traversing.setHost {p : List HostStmt} (h : Traversing s t g p) (p' : List HostStmt) :
    Traversing s (t.setHost p') g p' :=
  ⟨h.cfg, h.phase, h.sched, h.cuckoo, h.gathered, rfl⟩

theorem Traversing.stage {p : List HostStmt} (h : Traversing s t g p) (v : Word) :
    Traversing s (writeReg .arg0 v t) g p :=
  ⟨h.cfg, h.phase, h.sched, h.cuckoo, h.gathered, h.host⟩

/-- DO of a command with its arguments in place (R76): the command word, the completion, and the WAIT that ends with it. -/
theorem Traversing.run_command {i : Instr} {u : State}
    (h : Traversing s t g (hostWr s.cfg.engineBase .cmd (encode i) :: .wait :: rest)) (hcfg : s.cfg.wellFormed = true)
    (hexec : exec i ((t.setHost (.wait :: rest)).accept (encode i)) = .next u) (hcuckoo : u.cuckoo = t.cuckoo) :
    ∃ v, Reaches t v ∧ Traversing s v g rest ∧ v.res0 = u.res0 ∧ v.res1 = u.res1 ∧ v.result = u.result := by
  have hcfgt : t.cfg.wellFormed = true := h.cfg ▸ hcfg
  have hidle : (t.setHost (.wait :: rest)).busy = false := State.busy_eq_false_iff.2 h.phase
  have hissue : step t = .next ((t.setHost (.wait :: rest)).accept (encode i)) := by
    rw [h.step_eq hcfg, hostTurn_hostWr (h.cfg ▸ h.host), writeReg_cmd_of_idle hidle]
  have hcomplete : step ((t.setHost (.wait :: rest)).accept (encode i)) = .next u :=
    (step_of_command (s := (t.setHost (.wait :: rest)).accept (encode i)) hcfgt rfl h.sched (decode_encode i)).trans hexec
  obtain ⟨huidle, hkept⟩ := exec_untouched hexec
  have hhost : u.host = .wait :: rest := hkept.host
  have hwait : step u = .next ((hostReadReg .status u).2.setHost rest) := by
    have hdone : (readReg .status u).1.getLsbD 0 = false := by
      rw [readReg_status_of_idle (State.busy_eq_false_iff.2 huidle)]
      exact (getLsbD_statusOf ..).trans (State.busy_eq_false_iff.2 huidle)
    rw [step_of_idle (hkept.cfg ▸ hcfgt) huidle (hkept.sched.trans h.sched)]
    simp only [hostTurn, hhost, hostReadReg_of_idle huidle, hdone]
    rfl
  rw [hostReadReg_of_idle huidle] at hwait
  refine ⟨_, .head hissue (.head hcomplete (.head hwait (.refl _))), ⟨?_, huidle, ?_, ?_, ?_, rfl⟩, rfl, rfl, rfl⟩
  · exact hkept.cfg.trans h.cfg
  · exact hkept.sched.trans h.sched
  · exact hcuckoo.trans h.cuckoo
  · exact hkept.gathered.trans h.gathered

/-- What CK_CAPACITY leaves in RES0 (42_cuckoo.md R159). -/
theorem Traversing.run_ckCapacity
    (h : Traversing s t g (hostDo s.cfg.engineBase .ckCapacity [] ++ rest)) (hcfg : s.cfg.wellFormed = true)
    (hready : s.ckMode = .ready) :
    ∃ v, Reaches t v ∧ Traversing s v g rest ∧ v.res0 = BitVec.ofNat 32 s.capacity := by
  have hkept := h.cuckoo
  simp only [State.cuckoo, Prod.mk.injEq] at hkept
  obtain ⟨hmode, hcap, -⟩ := hkept
  obtain ⟨v, hreach, hv, hres, -⟩ := h.run_command hcfg
    (ckGate_ready (s := (t.setHost (.wait :: rest)).accept (encode .ckCapacity)) (hmode.trans hready) _) rfl
  exact ⟨v, hreach, hv, hres.trans (congrArg (BitVec.ofNat 32) hcap)⟩

/-- What CK_READ_SLOT leaves of slot `i` in RESULT, RES0 and RES1 (R160). -/
theorem Traversing.run_ckReadSlot {i : Nat}
    (h : Traversing s t g (hostDo s.cfg.engineBase .ckReadSlot [BitVec.ofNat 32 i] ++ rest))
    (hcfg : s.cfg.wellFormed = true) (hready : s.ckMode = .ready) (hi : i < s.capacity) (hmax : s.capacity < 2 ^ 32) :
    ∃ v, Reaches t v ∧ Traversing s v g rest ∧ v.result = (slotRead s.slots i).isSome ∧
      ∀ q, slotRead s.slots i = some q → v.res0 = q.key ∧ v.res1 = q.value := by
  have hkept := h.cuckoo
  simp only [State.cuckoo, Prod.mk.injEq] at hkept
  obtain ⟨hmode, hcap, hslots⟩ := hkept
  have harg : step t = .next (writeReg .arg0 (BitVec.ofNat 32 i)
      (t.setHost (hostWr s.cfg.engineBase .cmd (encode .ckReadSlot) :: .wait :: rest))) := by
    refine (h.step_eq hcfg).trans (hostTurn_hostWr ?_)
    rw [h.cfg]
    exact h.host
  have hstaged := (h.setHost (hostWr s.cfg.engineBase .cmd (encode .ckReadSlot) :: .wait :: rest)).stage (BitVec.ofNat 32 i)
  have hindex : u32 (BitVec.ofNat 32 i) = i := (BitVec.toNat_ofNat i 32).trans (Nat.mod_eq_of_lt (hi.trans hmax))
  obtain ⟨u, hexec, hcuckoo, hresult, hpair⟩ := exec_ckReadSlot_answers
    (s := ((writeReg .arg0 (BitVec.ofNat 32 i) t).setHost (.wait :: rest)).accept (encode .ckReadSlot))
    (hmode.trans hready) (lt_of_lt_of_eq (hindex.trans_lt hi) hcap.symm)
  have hslot : slotRead t.slots (u32 (BitVec.ofNat 32 i)) = slotRead s.slots i := by rw [hindex, hslots]
  obtain ⟨v, hreach, hv, hres0, hres1, hres⟩ := hstaged.run_command hcfg hexec hcuckoo
  refine ⟨v, .head harg hreach, hv, hres.trans (hresult.trans (congrArg Option.isSome hslot)), fun q hq => ?_⟩
  obtain ⟨hkey, hvalue⟩ := hpair q (hslot.trans hq)
  exact ⟨hres0.trans hkey, hres1.trans hvalue⟩

/-! ## The loop over the slots -/

/-- What the traversal has collected before it comes to slot `i + 1`. -/
theorem traversal_succ (what : Collect) (i : Nat) (m : SlotStore) :
    traversal what (i + 1) m =
      match slotRead m i with
      | some q => collectWord what (traversal what i m) (collectOf what q)
      | none => traversal what i m := by
  rw [traversal, List.range_succ, List.foldl_append]
  rfl

theorem Traversing.slot_next {what : Collect} {i c : Nat} (h : Traversing s t g (.slot what i c :: rest))
    (hcfg : s.cfg.wellFormed = true) (hi : i < c) :
    ∃ v, step t = .next v ∧ Traversing s v g
      (hostDo s.cfg.engineBase .ckReadSlot [BitVec.ofNat 32 i] ++ .collectIf what :: .slot what (i + 1) c :: rest) := by
  refine ⟨_, (h.step_eq hcfg).trans ?_, h.setHost _⟩
  simp only [hostTurn, h.host, if_pos hi, h.cfg]

theorem Traversing.slot_end {what : Collect} {c : Nat} (h : Traversing s t g (.slot what c c :: rest))
    (hcfg : s.cfg.wellFormed = true) : ∃ v, step t = .next v ∧ Traversing s v g rest := by
  refine ⟨_, (h.step_eq hcfg).trans ?_, h.setHost _⟩
  simp only [hostTurn, h.host, if_neg (Nat.lt_irrefl c)]

/-- The test of RESULT after a slot was read (log entry 16). -/
theorem Traversing.collectIf {what : Collect} (h : Traversing s t g (.collectIf what :: rest))
    (hcfg : s.cfg.wellFormed = true) :
    ∃ v, step t = .next v ∧ Traversing s v g (if t.result then .collect what :: rest else rest) ∧
      v.res0 = t.res0 ∧ v.res1 = t.res1 := by
  have hbit : (readReg .status t).1.getLsbD 1 = t.result := by
    rw [readReg_status_of_idle (State.busy_eq_false_iff.2 h.phase)]
    exact getLsbD_statusOf ..
  have hstep := h.step_eq hcfg
  simp only [hostTurn, h.host, hostReadReg_of_idle h.phase, hbit] at hstep
  exact ⟨_, hstep, ⟨h.cfg, h.phase, h.sched, h.cuckoo, h.gathered, rfl⟩, rfl, rfl⟩

/-- What is collected of a slot is its key from RES0, or its value from RES1. -/
theorem Traversing.collect {what : Collect} {q : Pair} (h : Traversing s t g (.collect what :: rest))
    (hcfg : s.cfg.wellFormed = true) (hkey : t.res0 = q.key) (hvalue : t.res1 = q.value) :
    ∃ v, step t = .next v ∧ Traversing s v (collectWord what g (collectOf what q)) rest := by
  have hopen := openRead_of_idle (State.busy_eq_false_iff.2 h.phase)
  have hword : (readReg (collectReg what) t).1 = collectOf what q := by
    cases what with
    | keys => exact (congrArg Prod.fst (hopen t.res0)).trans hkey
    | values => exact (congrArg Prod.fst (hopen t.res1)).trans hvalue
  have hstep := h.step_eq hcfg
  simp only [hostTurn, h.host, hostReadReg_of_idle h.phase, hword, h.gathered] at hstep
  exact ⟨_, hstep, ⟨h.cfg, h.phase, h.sched, h.cuckoo, rfl, rfl⟩⟩

/-- The loop begins at slot 0 of as many slots as CK_CAPACITY gave, with nothing collected. -/
theorem Traversing.slotLoop {what : Collect} (h : Traversing s t g (.slotLoop what :: rest))
    (hcfg : s.cfg.wellFormed = true) :
    ∃ v, step t = .next v ∧ Traversing s v [] (.slot what 0 t.res0.toNat :: rest) := by
  have hword : (readReg .res0 t).1 = t.res0 :=
    congrArg Prod.fst (openRead_of_idle (State.busy_eq_false_iff.2 h.phase) t.res0)
  have hstep := h.step_eq hcfg
  simp only [hostTurn, h.host, hostReadReg_of_idle h.phase, hword] at hstep
  exact ⟨_, hstep, ⟨h.cfg, h.phase, h.sched, h.cuckoo, rfl, rfl⟩⟩

/-- One lap: the loop at slot `i` reads the slot and comes to slot `i + 1`, with the slot collected if it is Occupied. -/
theorem Traversing.lap {what : Collect} {i : Nat}
    (h : Traversing s t (traversal what i s.slots) (.slot what i s.capacity :: rest)) (hcfg : s.cfg.wellFormed = true)
    (hready : s.ckMode = .ready) (hi : i < s.capacity) (hmax : s.capacity < 2 ^ 32) :
    ∃ v, Reaches t v ∧ Traversing s v (traversal what (i + 1) s.slots) (.slot what (i + 1) s.capacity :: rest) := by
  obtain ⟨t1, hslot, h1⟩ := h.slot_next hcfg hi
  obtain ⟨t2, hread, h2, hresult, hpair⟩ := h1.run_ckReadSlot hcfg hready hi hmax
  obtain ⟨t3, htest, h3, hres0, hres1⟩ := h2.collectIf hcfg
  have hreach : Reaches t t3 := .head hslot (hread.trans (.head htest (.refl t3)))
  rw [hresult] at h3
  rw [traversal_succ]
  cases hheld : slotRead s.slots i with
  | none =>
    rw [hheld] at h3
    exact ⟨t3, hreach, h3⟩
  | some q =>
    rw [hheld] at h3
    obtain ⟨hkey, hvalue⟩ := hpair q hheld
    obtain ⟨t4, hcollect, h4⟩ := h3.collect hcfg (hres0.trans hkey) (hres1.trans hvalue)
    exact ⟨t4, hreach.trans (.head hcollect (.refl t4)), h4⟩

/-- The whole loop, from any slot on: `n` laps are left. -/
theorem Traversing.loop {what : Collect} (n : Nat) {i : Nat} (hn : i + n = s.capacity)
    (h : Traversing s t (traversal what i s.slots) (.slot what i s.capacity :: rest)) (hcfg : s.cfg.wellFormed = true)
    (hready : s.ckMode = .ready) (hmax : s.capacity < 2 ^ 32) :
    ∃ v, Reaches t v ∧ Traversing s v (traversal what s.capacity s.slots) rest := by
  induction n generalizing i t with
  | zero =>
    obtain rfl : i = s.capacity := hn
    obtain ⟨v, hstep, hv⟩ := h.slot_end hcfg
    exact ⟨v, .head hstep (.refl v), hv⟩
  | succ n ih =>
    obtain ⟨u, hlap, hu⟩ := h.lap hcfg hready (by omega) hmax
    obtain ⟨v, hrest, hv⟩ := ih (by omega) hu
    exact ⟨v, hlap.trans hrest, hv⟩

end

/-- A traversal of an idle READY engine, with nothing scheduled, ends with the table collected. -/
theorem reaches_of_hostTraverse {s : State} {what : Collect} (hinv : Inv s) (hidle : s.phase = .idle)
    (hready : s.ckMode = .ready) (hsched : s.sched = []) (hhost : s.host = hostTraverse s.cfg.engineBase what) :
    ∃ t, Reaches s t ∧ Traversing s t (traversal what s.capacity s.slots) [] := by
  have hmax : s.capacity < 2 ^ 32 := by
    have hcap := (hinv.cuckoo.tableOk hready).2.1
    have hbound := (wellFormed_ranges hinv.cfg).2.1.2
    omega
  have hstart : Traversing s s s.gathered (hostTraverse s.cfg.engineBase what) :=
    ⟨rfl, hidle, hsched, rfl, rfl, hhost⟩
  obtain ⟨t1, hcapacity, h1, hres⟩ := hstart.run_ckCapacity hinv.cfg hready
  obtain ⟨t2, hloop, h2⟩ := h1.slotLoop hinv.cfg
  have hcount : t1.res0.toNat = s.capacity := by rw [hres, BitVec.toNat_ofNat, Nat.mod_eq_of_lt hmax]
  rw [hcount] at h2
  obtain ⟨t3, hlaps, h3⟩ := h2.loop s.capacity (Nat.zero_add _) hinv.cfg hready hmax
  exact ⟨t3, hcapacity.trans (.head hloop hlaps), h3⟩

/-- Settles O59: the traversal collects the table (`reaches_of_hostTraverse`), as a set of keys (`mem_traversal_keys`,
`traversal_keys_nodup`) or as the values in slot order (`traversal_values`). -/
theorem traversalCollectsTheTable : Obligations.TraversalCollectsTheTable := by
  intro s what hinv hidle hready hsched hhost
  obtain ⟨t, ⟨n, hrun⟩, ht⟩ := reaches_of_hostTraverse hinv hidle hready hsched hhost
  have hkept := ht.cuckoo
  simp only [State.cuckoo, Prod.mk.injEq] at hkept
  obtain ⟨-, hcap, hslots⟩ := hkept
  refine ⟨n, t, hrun, ?_, fun hkeys => ?_, fun hvalues => ?_, ht.gathered, hslots, hcap⟩
  · simp [State.runOver, ht.host, State.busy_eq_false_iff.2 ht.phase]
  · rw [ht.gathered, hkeys]
    exact ⟨mem_traversal_keys s.capacity s.slots, traversal_keys_nodup s.capacity s.slots⟩
  · rw [ht.gathered, hvalues, traversal_values]

end Sys2Proof.Machine
end
